-- ==== Sys2Proof/Word.lean ====
section
/-! DEFINITION. The word types of the block (rules R5, R9). -/

namespace Sys2Proof

/-- The addressable unit of the file buffer and of a slice (rule R42). -/
abbrev Byte := BitVec 8

/-- A `u32` container field (rule R9). -/
abbrev U32 := BitVec 32

/-- A decoded scalar, a `u64`, or an `i64` shown by its pattern: `WORD` = 64 bits (rules R5, R9). -/
abbrev Word := BitVec 64

end Sys2Proof
end

