-- ==== Sys2Proof/Config.lean ====
section
/-! DEFINITION. What an implementation fixes: the constants of rule R5, the parameters of rule R6, and the free values. -/

namespace Sys2Proof

/-- The float decoder's reuse window `(prev_leading, prev_trailing)` (rule R28). -/
structure Window where
  leading : Nat
  trailing : Nat
  deriving DecidableEq, Repr, Inhabited

/-- Parameter `F64_RESERVED_POLICY` (rules R6, R94). -/
inductive ReservedPolicy where
  | refuse
  | softStop
  | mb0Is64
  deriving DecidableEq, Repr, Inhabited

/-- Parameter `READ_AFTER_FAIL` (rules R6, R117). -/
inductive ReadAfterFail where
  | stickyFail
  | refuse
  deriving DecidableEq, Repr, Inhabited

/-- The parameters the source leaves open, each with the default of rule R6. -/
structure Params where
  /-- `F64_WINDOW_RESET`: the reuse window before the first new-window block (rule R140). -/
  windowReset : Option Window := none
  /-- `F64_RESERVED_POLICY`: what a reserved float symbol does (rule R94). -/
  reservedPolicy : ReservedPolicy := .refuse
  /-- `FILE_LEN_MAX`: the largest `file_len` the host may present, `none` for unbounded. -/
  fileLenMax : Option Nat := none
  /-- `READ_AFTER_FAIL`: what `READ_BITS` does on a reader that has failed (rule R117). -/
  readAfterFail : ReadAfterFail := .stickyFail
  deriving DecidableEq, Repr, Inhabited

namespace Config

/-- `NMIN`: the smallest `n` of `READ_BITS`. -/
def readMin : Nat := 1
/-- `WORD`: the width of a decoded scalar and the largest `n` of `READ_BITS`. -/
def wordBits : Nat := 64
/-- `MAGIC`: the required value of the header's `magic` field. -/
def magic : U32 := 0x50415251
/-- `HEADER_BYTES`. -/
def headerBytes : Nat := 32
/-- `MIN_FILE_BYTES`. -/
def minFileBytes : Nat := 36
/-- `FOOTER_SIZE_BYTES`. -/
def footerSizeBytes : Nat := 4
/-- `NCOLS`: the only legal footer `column_count`. -/
def columnCount : U32 := 2
/-- `SUBHDR_BYTES`. -/
def subHeaderBytes : Nat := 8

/-- The registers rule R40 starts with no value and a symbol's meaning reads. -/
inductive UnwrittenRegister where
  | floatPrevValue
  | intPrevValue
  | intPrevDelta
  deriving DecidableEq, Repr

/-- FREE VALUE: what a read of a register yields that nothing has written (log entry 1). -/
opaque unwritten : UnwrittenRegister → Word

/-- FREE VALUE: the value that comes with `ok = false` (rule R116: a draw, any `u64`), for each draw (log entry 2). -/
opaque failedReadValue : Nat → Word

end Config

/-- The bound rule R6 puts on `F64_WINDOW_RESET`: `leading + trailing ≤ 63`. -/
def Params.wf (p : Params) : Bool :=
  match p.windowReset with
  | none => true
  | some w => decide (w.leading + w.trailing ≤ 63)

end Sys2Proof
end

