-- ==== Sys2Proof/Machine/BitReader.lean ====
section
/-! DEFINITION. The BitReader: a cursor over a byte sequence, and READ_BITS (rules R21 to R26, R52, R53, R110 to R122). -/

namespace Sys2Proof.Machine

/-- The reader group `rd` (rule R21). -/
structure Reader where
  buffer : List Byte
  byteCursor : Nat
  bitCursor : Fin 8
  failed : Bool
  deriving DecidableEq, Repr

/-- Why a read has no meaning (rule R252). -/
inductive ReadRefusal where
  /-- `n` outside `1 .. 64` (rule R113). -/
  | width
  /-- A failed reader under `READ_AFTER_FAIL = Refuse` (rule R117). -/
  | failedReader
  deriving DecidableEq, Repr

/-- The result of one READ_BITS, with the reader after it. `short` is `ok = false`: it carries no value, because callers
must not use the one that comes with it (rule R116). -/
inductive BitRead where
  | value (v : Word) (rd : Reader)
  | short (rd : Reader)
  | refused (why : ReadRefusal)
  deriving DecidableEq, Repr

/-- `NEW_READER(buffer)` (rule R111). -/
def Reader.new (buffer : List Byte) : Reader :=
  { buffer := buffer, byteCursor := 0, bitCursor := 0, failed := false }

/-- The program counter of the block, `8 * byte_cursor + bit_cursor` (rule R24). -/
def Reader.pc (rd : Reader) : Nat := 8 * rd.byteCursor + rd.bitCursor.val

/-- `avail` (rule R112). -/
def Reader.avail (rd : Reader) : Nat := 8 * rd.buffer.length - rd.pc

/-- Stream bit `i` of a byte sequence: bit `7 - (i mod 8)` of byte `i div 8` (rule R52). -/
def streamBit (buffer : List Byte) (i : Nat) : Bool :=
  (buffer.getD (i / 8) 0).getLsbD (7 - i % 8)

/-- The bit at the cursor, as READ_BITS takes it: `(buffer[byte_cursor] >> (7 - bit_cursor)) & 1` (rule R112). -/
def Reader.bit (rd : Reader) : Bool :=
  (rd.buffer.getD rd.byteCursor 0).getLsbD (7 - rd.bitCursor.val)

/-- One bit further (rule R112). -/
def Reader.next (rd : Reader) : Reader :=
  if rd.bitCursor = 7 then { rd with byteCursor := rd.byteCursor + 1, bitCursor := 0 }
  else { rd with bitCursor := rd.bitCursor + 1 }

/-- The `repeat n times` of rule R112: the first bit taken ends as bit `n - 1` of the value. -/
def readLoop : Nat → Reader → Word → Word × Reader
  | 0, rd, v => (v, rd)
  | n + 1, rd, v => readLoop n rd.next ((v <<< 1) ||| (if rd.bit then 1 else 0))

/-- `READ_BITS(rd, n)` (rule R112), with rule R113 for other `n`, rule R115 for the soft failure and rule R117 for a reader
that has failed. -/
def readBits (policy : ReadAfterFail) (rd : Reader) (n : Nat) : BitRead :=
  if n < Config.readMin ∨ Config.wordBits < n then .refused .width
  else if rd.failed then
    match policy with
    | .stickyFail => .short rd
    | .refuse => .refused .failedReader
  else if rd.avail < n then .short { rd with failed := true }
  else
    let r := readLoop n rd 0
    .value r.1 r.2

/-- The unread bits, in stream order. -/
def Reader.unread (rd : Reader) : List Bool :=
  (List.range rd.avail).map (fun j => streamBit rd.buffer (rd.pc + j))

/-- The reader with its cursor `n` bits further (rule R114). -/
def Reader.advance (rd : Reader) (n : Nat) : Reader :=
  { rd with byteCursor := (rd.pc + n) / 8, bitCursor := ⟨(rd.pc + n) % 8, Nat.mod_lt _ (by decide)⟩ }

/-- The cursor never passes the end of the buffer (rules R21, R24). -/
def Reader.inBounds (rd : Reader) : Bool := decide (rd.pc ≤ 8 * rd.buffer.length)

end Sys2Proof.Machine
end

