-- ==== Sys2Proof/Machine/Memory.lean ====
section
/-! DEFINITION. The file buffer: its one canonical form, reading it, and how the host's bytes come into it (rules R42, R50,
R58, R62). No operation of the block writes it. -/

namespace Sys2Proof.Machine

/-- `FILE`: the bytes at `0 .. len - 1`. A cell is listed only where its byte is not 0 (log entry 13). -/
structure FileBuf where
  cells : List Host.Cell := []
  len : Nat := 0
  deriving DecidableEq, Repr, Inhabited

namespace Memory

/-- What an address of the file that no cell lists reads as: the one definition of it (log entry 13). -/
def unlisted : Byte := 0

/-- The byte at an address. -/
def read : List Host.Cell → Nat → Byte
  | [], _ => unlisted
  | (b, v) :: cs, a => if a = b then v else read cs a

/-- Addresses rise strictly from `lo`, and no cell holds what an unlisted address reads as. -/
def wfFrom (lo : Nat) : List Host.Cell → Bool
  | [] => true
  | (a, v) :: cs => decide (lo ≤ a) && v != unlisted && wfFrom (a + 1) cs

/-- The canonical form. -/
def wf (cells : List Host.Cell) : Bool := wfFrom 0 cells

/-- The cells of a byte sequence laid at `at_`. -/
def cellsFrom (at_ : Nat) : List Byte → List Host.Cell
  | [] => []
  | v :: vs => if v = unlisted then cellsFrom (at_ + 1) vs else (at_, v) :: cellsFrom (at_ + 1) vs

end Memory

/-- The host presents a whole file (rule R273). -/
def FileBuf.ofBytes (bytes : List Byte) : FileBuf :=
  { cells := Memory.cellsFrom 0 bytes, len := bytes.length }

/-- The canonical form of a file buffer: canonical cells, all inside the file. -/
def FileBuf.wf (f : FileBuf) : Bool :=
  Memory.wf f.cells && f.cells.all (fun c => decide (c.1 < f.len))

/-- `FILE[a]`. -/
def FileBuf.byte (f : FileBuf) (a : Nat) : Byte := Memory.read f.cells a

/-- `FILE[a .. a+n)` for a range that lies in the file. -/
def FileBuf.bytes (f : FileBuf) (a n : Nat) : List Byte :=
  (List.range n).map (fun k => f.byte (a + k))

/-- The bounds check of rule R62. -/
def FileBuf.inRange (f : FileBuf) (a : Int) (n : Nat) : Bool :=
  decide (0 ≤ a) && decide (a + n ≤ f.len)

/-- `MemBytes(a, n)`: `none` is `FormatError(OUT_OF_RANGE)` (rule R62). -/
def memBytes (f : FileBuf) (a : Int) (n : Nat) : Option (List Byte) :=
  if f.inRange a n then some (f.bytes a.toNat n) else none

/-- The little-endian unsigned number in a byte sequence (rule R50). -/
def leNat : List Byte → Nat
  | [] => 0
  | b :: bs => b.toNat + 256 * leNat bs

/-- The `n` little-endian bytes of a number. -/
def leBytes : Nat → Nat → List Byte
  | 0, _ => []
  | n + 1, v => BitVec.ofNat 8 v :: leBytes n (v / 256)

/-- `MemRead(a, 4)` (rules R10, R50, R62). -/
def memRead32 (f : FileBuf) (a : Int) : Option U32 := (memBytes f a 4).map (fun bs => BitVec.ofNat 32 (leNat bs))

/-- `MemRead(a, 8)` (rules R10, R50, R62). -/
def memRead64 (f : FileBuf) (a : Int) : Option Word := (memBytes f a 8).map (fun bs => BitVec.ofNat 64 (leNat bs))

end Sys2Proof.Machine
end

