-- ==== Sys2Proof/Syntax.lean ====
section
/-! DEFINITION. The instructions as syntax: the eleven bitstream symbols of rule R81 and the four container records of rules
R96 to R99, one constructor for each row of the opcode table. -/

namespace Sys2Proof

/-- The kept fields of the header record (rule R96); bytes 24..31 are neither read nor kept (rule R32). -/
structure HeaderFields where
  magic : U32
  formatVersion : U32
  recordCount : Word
  columnCount : U32
  identifier : List Byte
  deriving DecidableEq, Repr, Inhabited

/-- The fields of the trailer and of the footer's head (rule R97). -/
structure FooterFields where
  footerSize : U32
  metadataVersion : U32
  columnCount : U32
  deriving DecidableEq, Repr, Inhabited

/-- One column descriptor (rules R33, R98). -/
structure DescriptorFields where
  nameLen : U32
  name : List Byte
  type : U32
  offset : Word
  size : Word
  count : Word
  deriving DecidableEq, Repr, Inhabited

/-- The instructions. A payload `x` of a float XOR symbol is the zero-extended payload (rule R88); its width is not an
operand: `f64XorNew` has it in `m`, `f64XorReuse` takes it from the window registers (rule R83). -/
inductive Instr where
  /-- `F64.FIRST` (rule R133). -/
  | f64First (v : Word)
  /-- `F64.REPEAT` (rule R135). -/
  | f64Repeat
  /-- `F64.XOR_REUSE` (rule R136). -/
  | f64XorReuse (x : Word)
  /-- `F64.XOR_NEW` (rule R137). -/
  | f64XorNew (l m : BitVec 6) (x : Word)
  /-- `I64.FIRST` (rule R163). -/
  | i64First (v : Word)
  /-- `I64.FIRST_DELTA` (rule R164). -/
  | i64FirstDelta (d : Word)
  /-- `I64.DOD0` (rule R166). -/
  | i64Dod0
  /-- `I64.DOD7` (rule R167). -/
  | i64Dod7 (d : BitVec 7)
  /-- `I64.DOD9` (rule R168). -/
  | i64Dod9 (d : BitVec 9)
  /-- `I64.DOD12` (rule R169). -/
  | i64Dod12 (d : BitVec 12)
  /-- `I64.DOD64` (rule R170). -/
  | i64Dod64 (d : Word)
  /-- `HEADER` (rules R96, R193, R194). -/
  | header (h : HeaderFields)
  /-- `TRAILER-FOOTER` (rules R97, R195 to R197). -/
  | trailerFooter (f : FooterFields)
  /-- `DESCRIPTOR` (rules R98, R199). -/
  | descriptor (d : DescriptorFields)
  /-- `COLUMN` (rules R99, R202); `data` is the bit-packed data after the unread sub-header. -/
  | column (data : List Byte)
  deriving DecidableEq, Repr

/-- Where a symbol stands: its stream and position, and for the float stream the window registers (rules R81, R86). -/
inductive Slot where
  | floatFirst
  | floatLater (window : Option Window)
  | intFirst
  | intSecond
  | intLater
  deriving DecidableEq, Repr

/-- Which reserved float encoding was met (rules R92, R93, R95). -/
inductive Reserved where
  /-- `F64.XOR_NEW` with `M = 0` or `L + M > 64`. -/
  | badWindow
  /-- `F64.XOR_REUSE` while no window is valid. -/
  | reuseBeforeWindow
  deriving DecidableEq, Repr

/-- The causes of a FormatError, in the order of their codes 1 to 5 (rule R241). -/
inductive Cause where
  | fileTooSmall
  | badMagic
  | footerBeforeHeader
  | badColumnCount
  | outOfRange
  deriving DecidableEq, Repr

end Sys2Proof
end

