-- ==== Sys2Proof/Machine/Operands.lean ====
section
/-! DEFINITION. Operand forms: how a raw field becomes the value a symbol works with (rules R88, R136, R137, R172, R173). -/

namespace Sys2Proof.Machine

/-- `sext_w` (rule R172) as a 64-bit pattern. -/
def sext {w : Nat} (x : BitVec w) : Word := x.signExtend 64

/-- `+64`: addition of two 64-bit patterns modulo `2^64` (rule R173). -/
def addWrap (a b : Word) : Word := a + b

/-- `prev XOR (x << t)` (rules R136, R137). -/
def xorPayload (prev x : Word) (t : Nat) : Word := prev ^^^ (x <<< t)

/-- The payload width of a reuse-window block, `64 - prev_leading - prev_trailing` (rule R136). -/
def reuseWidth (w : Window) : Nat := 64 - w.leading - w.trailing

/-- What the fields `L` and `M` of `F64.XOR_NEW` stand for: the payload width and the window they open, or `none` for a
reserved pair (rules R92 to R94, R137). -/
def newWindow (policy : ReservedPolicy) (l m : BitVec 6) : Option (Nat × Window) :=
  if m.toNat = 0 then
    if policy = .mb0Is64 ∧ l.toNat = 0 then some (64, ⟨0, 0⟩) else none
  else if 64 < l.toNat + m.toNat then none
  else some (m.toNat, ⟨l.toNat, 64 - l.toNat - m.toNat⟩)

end Sys2Proof.Machine
end

