-- ==== Sys2Proof/WellFormed.lean ====
section
/-! DEFINITION. The checks on an instruction as syntax: the legal operand values of rules R92, R93, R96 to R98 and R101. -/

namespace Sys2Proof

/-- The header's `magic` is the required one and its `identifier` has 4 bytes (rules R32, R96). -/
def HeaderFields.wellFormed (h : HeaderFields) : Bool :=
  h.magic == Config.magic && h.identifier.length == 4

/-- The footer declares exactly two columns (rule R97). -/
def FooterFields.wellFormed (f : FooterFields) : Bool :=
  f.columnCount == Config.columnCount

/-- `name` has `name_len` bytes (rule R98). -/
def DescriptorFields.wellFormed (d : DescriptorFields) : Bool :=
  d.name.length == d.nameLen.toNat

/-- The instruction has a legal encoding under the default parameters, whatever the window registers hold. -/
def Instr.wellFormed : Instr → Bool
  | .f64First _ => true
  | .f64Repeat => true
  | .f64XorReuse _ => true
  | .f64XorNew l m x => m != 0 && decide (l.toNat + m.toNat ≤ 64) && decide (x.toNat < 2 ^ m.toNat)
  | .i64First _ => true
  | .i64FirstDelta _ => true
  | .i64Dod0 => true
  | .i64Dod7 _ => true
  | .i64Dod9 _ => true
  | .i64Dod12 _ => true
  | .i64Dod64 _ => true
  | .header h => h.wellFormed
  | .trailerFooter f => f.wellFormed
  | .descriptor d => d.wellFormed
  | .column data => decide (data.length + 8 < 2 ^ 64)

/-- Value #2 or later of a float stream. -/
def Slot.isFloatLater : Slot → Bool
  | .floatLater _ => true
  | .floatFirst => false
  | .intFirst => false
  | .intSecond => false
  | .intLater => false

/-- The payload of a reuse-window block fits its window; none is valid where there is no window (rules R95, R136). -/
def reusePayloadFits (x : Word) : Option Window → Bool
  | none => false
  | some w => decide (1 ≤ Machine.reuseWidth w) && decide (x.toNat < 2 ^ Machine.reuseWidth w)

/-- The payload of a new-window block fits the width its fields give; a reserved pair gives none (rules R92 to R94, R137). -/
def newPayloadFits (x : Word) : Option (Nat × Window) → Bool
  | none => false
  | some (n, _) => decide (x.toNat < 2 ^ n)

/-- The symbol may stand at the slot and its payload fits the width the slot and the policy give it (rules R81, R94, R101). -/
def Instr.fits (policy : ReservedPolicy) (slot : Slot) : Instr → Bool
  | .f64First _ => slot == .floatFirst
  | .f64Repeat => slot.isFloatLater
  | .f64XorReuse x =>
    match slot with
    | .floatLater window => reusePayloadFits x window
    | _ => false
  | .f64XorNew l m x => slot.isFloatLater && newPayloadFits x (Machine.newWindow policy l m)
  | .i64First _ => slot == .intFirst
  | .i64FirstDelta _ => slot == .intSecond
  | .i64Dod0 => slot == .intLater
  | .i64Dod7 _ => slot == .intLater
  | .i64Dod9 _ => slot == .intLater
  | .i64Dod12 _ => slot == .intLater
  | .i64Dod64 _ => slot == .intLater
  | .header _ => false
  | .trailerFooter _ => false
  | .descriptor _ => false
  | .column _ => false

end Sys2Proof
end

