-- ==== Sys2Proof/Decode.lean ====
section
/-! DEFINITION. Decoding: a symbol from a bit reader (rules R81 to R88), a record from the file (rules R96 to R99); then the
encoder, from the same rules, and the opcode table's words. -/

namespace Sys2Proof

open Machine

/-! ### Symbols -/

/-- What reading one symbol gives, with the reader after the reads that were made. -/
inductive SymbolRead where
  | symbol (i : Instr) (rd : Reader)
  /-- A READ_BITS returned `ok = false`: TruncatedStreamCondition (rule R250). -/
  | exhausted (rd : Reader)
  /-- A reserved float encoding, found before its payload is read (rule R94). -/
  | reserved (why : Reserved) (rd : Reader)
  /-- A READ_BITS that has no meaning (rule R252). -/
  | refused (why : ReadRefusal)
  deriving DecidableEq, Repr

/-- `(v, ok) <- READ_BITS(rd, n); ok?` and then the rest (rules R132, R162). -/
def afterRead (r : BitRead) (k : Word → Reader → SymbolRead) : SymbolRead :=
  match r with
  | .value v rd => k v rd
  | .short rd => .exhausted rd
  | .refused why => .refused why

/-- A symbol of the float stream at value #2 or later (rules R134 to R137). -/
def decodeFloatLater (p : Params) (window : Option Window) (rd : Reader) : SymbolRead :=
  afterRead (readBits p.readAfterFail rd 1) fun control rd =>
  if control = 0 then .symbol .f64Repeat rd
  else
    afterRead (readBits p.readAfterFail rd 1) fun blockType rd =>
    if blockType = 0 then
      match window with
      | none => .reserved .reuseBeforeWindow rd
      | some w => afterRead (readBits p.readAfterFail rd (reuseWidth w)) fun x rd => .symbol (.f64XorReuse x) rd
    else
      afterRead (readBits p.readAfterFail rd 6) fun l rd =>
      afterRead (readBits p.readAfterFail rd 6) fun m rd =>
      match newWindow p.reservedPolicy (l.setWidth 6) (m.setWidth 6) with
      | none => .reserved .badWindow rd
      | some (n, _) =>
        afterRead (readBits p.readAfterFail rd n) fun x rd => .symbol (.f64XorNew (l.setWidth 6) (m.setWidth 6) x) rd

/-- A symbol of the int stream at value #3 or later: prefix bits one at a time, at most four (rules R165 to R170). -/
def decodeIntLater (p : Params) (rd : Reader) : SymbolRead :=
  afterRead (readBits p.readAfterFail rd 1) fun b rd =>
  if b = 0 then .symbol .i64Dod0 rd
  else
    afterRead (readBits p.readAfterFail rd 1) fun b rd =>
    if b = 0 then afterRead (readBits p.readAfterFail rd 7) fun x rd => .symbol (.i64Dod7 (x.setWidth 7)) rd
    else
      afterRead (readBits p.readAfterFail rd 1) fun b rd =>
      if b = 0 then afterRead (readBits p.readAfterFail rd 9) fun x rd => .symbol (.i64Dod9 (x.setWidth 9)) rd
      else
        afterRead (readBits p.readAfterFail rd 1) fun b rd =>
        if b = 0 then afterRead (readBits p.readAfterFail rd 12) fun x rd => .symbol (.i64Dod12 (x.setWidth 12)) rd
        else afterRead (readBits p.readAfterFail rd 64) fun x rd => .symbol (.i64Dod64 x) rd

/-- One symbol at its slot (rules R81, R86, R87). -/
def decodeSymbol (p : Params) (slot : Slot) (rd : Reader) : SymbolRead :=
  match slot with
  | .floatFirst => afterRead (readBits p.readAfterFail rd 64) fun v rd => .symbol (.f64First v) rd
  | .floatLater window => decodeFloatLater p window rd
  | .intFirst => afterRead (readBits p.readAfterFail rd 64) fun v rd => .symbol (.i64First v) rd
  | .intSecond => afterRead (readBits p.readAfterFail rd 64) fun d rd => .symbol (.i64FirstDelta d) rd
  | .intLater => decodeIntLater p rd

/-! ### Records -/

/-- A read outside the file raises `FormatError(OUT_OF_RANGE)` (rule R62). -/
def orOutOfRange {α : Type} : Option α → Except Cause α
  | some a => .ok a
  | none => .error .outOfRange

/-- The header's fields (rules R96, R192 to R194). Bytes 24..31 are not read. -/
def decodeHeader (f : FileBuf) : Except Cause HeaderFields :=
  if f.len < Config.minFileBytes then .error .fileTooSmall
  else orOutOfRange (do
    let magic ← memRead32 f 0
    let formatVersion ← memRead32 f 4
    let recordCount ← memRead64 f 8
    let columnCount ← memRead32 f 16
    let identifier ← memBytes f 20 4
    return { magic, formatVersion, recordCount, columnCount, identifier })

/-- `footer_start = L - 4 - footer_size`, an integer that may be negative (rules R195, R208). -/
def footerStart (len : Nat) (footerSize : U32) : Int :=
  (len : Int) - Config.footerSizeBytes - footerSize.toNat

/-- The trailer and the footer's head (rules R97, R195 to R197). -/
def decodeTrailerFooter (f : FileBuf) : Except Cause FooterFields := do
  let footerSize ← orOutOfRange (memRead32 f ((f.len : Int) - Config.footerSizeBytes))
  let start := footerStart f.len footerSize
  if start < Config.headerBytes then throw .footerBeforeHeader
  let metadataVersion ← orOutOfRange (memRead32 f start)
  let columnCount ← orOutOfRange (memRead32 f (start + 4))
  return { footerSize, metadataVersion, columnCount }

/-- A descriptor at address `p`, its fields read in order (rules R98, R199, R200). -/
def decodeDescriptor (f : FileBuf) (p : Int) : Except Cause DescriptorFields :=
  orOutOfRange (do
    let nameLen ← memRead32 f p
    let k : Nat := nameLen.toNat
    let name ← memBytes f (p + 4) k
    let type ← memRead32 f (p + 4 + k)
    let offset ← memRead64 f (p + 8 + k)
    let size ← memRead64 f (p + 16 + k)
    let count ← memRead64 f (p + 24 + k)
    return { nameLen, name, type, offset, size, count })

/-- The data of a column (rules R63, R99, R202). The 8 bytes of sub-header are not read (rule R61). -/
def decodeColumn (f : FileBuf) (offset size : Word) : Except Cause (List Byte) :=
  if size.toNat < Config.subHeaderBytes ∨ f.len < offset.toNat + size.toNat then .error .outOfRange
  else .ok (f.bytes (offset.toNat + Config.subHeaderBytes) (size.toNat - Config.subHeaderBytes))

/-! ### The encoder -/

/-- The `n` bits of a number, most significant first (rules R53, R80). -/
def msbBits : Nat → Nat → List Bool
  | 0, _ => []
  | n + 1, v => v.testBit n :: msbBits n v

/-- The stream bits of a symbol at its slot (rules R81 to R85). A record has none. -/
def encodeSymbol (policy : ReservedPolicy) (slot : Slot) : Instr → List Bool
  | .f64First v => msbBits 64 v.toNat
  | .f64Repeat => [false]
  | .f64XorReuse x =>
      match slot with
      | .floatLater (some w) => [true, false] ++ msbBits (reuseWidth w) x.toNat
      | _ => [true, false]
  | .f64XorNew l m x =>
      match newWindow policy l m with
      | some (n, _) => [true, true] ++ msbBits 6 l.toNat ++ msbBits 6 m.toNat ++ msbBits n x.toNat
      | none => [true, true] ++ msbBits 6 l.toNat ++ msbBits 6 m.toNat
  | .i64First v => msbBits 64 v.toNat
  | .i64FirstDelta d => msbBits 64 d.toNat
  | .i64Dod0 => [false]
  | .i64Dod7 d => [true, false] ++ msbBits 7 d.toNat
  | .i64Dod9 d => [true, true, false] ++ msbBits 9 d.toNat
  | .i64Dod12 d => [true, true, true, false] ++ msbBits 12 d.toNat
  | .i64Dod64 d => [true, true, true, true] ++ msbBits 64 d.toNat
  | .header _ => []
  | .trailerFooter _ => []
  | .descriptor _ => []
  | .column _ => []

/-- The 32 bytes of a header; the reserved bytes, which may be any, as zeros (rule R96, log entry 16). -/
def encodeHeader (h : HeaderFields) : List Byte :=
  leBytes 4 h.magic.toNat ++ leBytes 4 h.formatVersion.toNat ++ leBytes 8 h.recordCount.toNat ++
    leBytes 4 h.columnCount.toNat ++ h.identifier ++ List.replicate 8 0

/-- The 8 bytes of a footer's head (rule R97). -/
def encodeFooterHead (f : FooterFields) : List Byte :=
  leBytes 4 f.metadataVersion.toNat ++ leBytes 4 f.columnCount.toNat

/-- The 4 bytes of the trailer (rule R97). -/
def encodeTrailer (f : FooterFields) : List Byte := leBytes 4 f.footerSize.toNat

/-- The bytes of a descriptor (rule R98). -/
def encodeDescriptor (d : DescriptorFields) : List Byte :=
  leBytes 4 d.nameLen.toNat ++ d.name ++ leBytes 4 d.type.toNat ++ leBytes 8 d.offset.toNat ++
    leBytes 8 d.size.toNat ++ leBytes 8 d.count.toNat

/-- The bytes of a column; the sub-header, which may be any, as zeros (rule R99, log entry 16). -/
def encodeColumn (data : List Byte) : List Byte := List.replicate 8 0 ++ data

/-- The words of an instruction: the stream bits of a symbol, the bytes of a record, or, for the footer, the bytes of its
head and those of the trailer, which stand apart in the file. -/
inductive Words where
  | stream (bits : List Bool)
  | record (bytes : List Byte)
  | footer (head trailer : List Byte)
  deriving DecidableEq, Repr

/-- The encoder, one arm per instruction. -/
def encode (policy : ReservedPolicy) (slot : Slot) (i : Instr) : Words :=
  match i with
  | .header h => .record (encodeHeader h)
  | .trailerFooter f => .footer (encodeFooterHead f) (encodeTrailer f)
  | .descriptor d => .record (encodeDescriptor d)
  | .column data => .record (encodeColumn data)
  | .f64First _ | .f64Repeat | .f64XorReuse _ | .f64XorNew _ _ _ | .i64First _ | .i64FirstDelta _ | .i64Dod0 | .i64Dod7 _
  | .i64Dod9 _ | .i64Dod12 _ | .i64Dod64 _ => .stream (encodeSymbol policy slot i)

/-- A byte from eight bits, most significant first (rule R52). -/
def packByte (bits : List Bool) : Byte :=
  BitVec.ofNat 8 (bits.foldl (fun v b => 2 * v + (if b then 1 else 0)) 0)

/-- The bytes of a bit string, padded with zero bits to a whole byte: `.pad0` (rules R52, R102). -/
def packBits : Nat → List Bool → List Byte
  | 0, _ => []
  | n + 1, bits => packByte ((bits ++ List.replicate 8 false).take 8) :: packBits n (bits.drop 8)

/-- `packBits` for all of the bits. -/
def pack (bits : List Bool) : List Byte := packBits ((bits.length + 7) / 8) bits

/-! ### The opcode table's words (log entry 14)

The table gives a symbol no stream and no position, which decode it (rule R81), so the width chooses the slot: 8 bits value
#2 or later of a float stream, 64 bits value #1 of a float stream, any other width but 32 value #3 or later of an int
stream. 32 bits is a container record's matched field. -/

/-- The slot a table word of this width is read at. -/
def tableSlot (nbits : Nat) : Slot :=
  if nbits = 8 then .floatLater (some ⟨0, 1⟩) else if nbits = 64 then .floatFirst else .intLater

/-- The bytes of a symbol's word: one word of `nbits` bits, its first stream bit the most significant (rule R80), and zeros up
to the longest symbol. -/
def tableStream (nbits w : Nat) : List Byte := (leBytes (nbits / 8) w).reverse ++ List.replicate 10 0

/-- Which record a 32-bit table word is read as: by the value the table matches. -/
inductive TableRecord where
  | header
  | trailerFooter
  | descriptor
  deriving DecidableEq, Repr

/-- The record whose required value the word is; the descriptor, which requires none, for any other word. -/
def tableRecord (w : Nat) : TableRecord :=
  if w = Config.magic.toNat then .header else if w = Config.columnCount.toNat then .trailerFooter else .descriptor

/-- A file that holds the word where the record's matched field stands: the magic at 0; `column_count` in a footer that starts
at 32; a descriptor's `name_len` at 32. -/
def tableFile (w : Nat) : FileBuf :=
  match tableRecord w with
  | .header => FileBuf.ofBytes (leBytes 4 w ++ List.replicate 32 0)
  | .trailerFooter => FileBuf.ofBytes (List.replicate 36 0 ++ leBytes 4 w ++ leBytes 4 8)
  | .descriptor => FileBuf.ofBytes (List.replicate 32 0 ++ leBytes 4 w ++ List.replicate 96 0)

/-- What a decoder of records answers, as an option. -/
def decodedOk {α : Type} : Except Cause α → Option α
  | .ok a => some a
  | .error _ => none

/-- The instruction the decoder reads from a table word. -/
def decodeTableWord (nbits w : Nat) : Option Instr :=
  if nbits = 32 then
    match tableRecord w with
    | .header => (decodedOk (decodeHeader (tableFile w))).map .header
    | .trailerFooter => (decodedOk (decodeTrailerFooter (tableFile w))).map .trailerFooter
    | .descriptor => (decodedOk (decodeDescriptor (tableFile w) 32)).map .descriptor
  else
    match decodeSymbol {} (tableSlot nbits) (Reader.new (tableStream nbits w)) with
    | .symbol i _ => some i
    | .exhausted _ => none
    | .reserved _ _ => none
    | .refused _ => none

end Sys2Proof
end

