-- ==== Sys2Proof/Machine/State.lean ====
section
/-! DEFINITION. The state of the block, all of it (`10_state.md`), the reasons a step can stop, and the state after reset. A
register that rule R40 starts with "no value" is an option, as that rule asks (log entry 1). -/

namespace Sys2Proof.Machine

/-- The float decoder group `fd` (rules R27, R28, R30). The two window registers are written together, so they are
kept together. -/
structure FloatDecoder where
  /-- The private reader, created only if there is something to read (rule R131). -/
  rd : Option Reader := none
  count : Word := 0
  prevValue : Option Word := none
  window : Option Window := none
  /-- `fd.window_valid`: a new-window block has been decoded (rules R28, R36; log entry 22). -/
  windowValid : Bool := false
  out : List Word := []
  deriving DecidableEq, Repr

/-- The int decoder group `id` (rules R30, R31). -/
structure IntDecoder where
  /-- The private reader, created only if there is something to read (rule R161). -/
  rd : Option Reader := none
  count : Word := 0
  prevValue : Option Word := none
  prevDelta : Option Word := none
  out : List Word := []
  deriving DecidableEq, Repr

/-- The parser group `cp` (rules R32 to R34). The registers of one record are written together. -/
structure Container where
  fileLen : Option Nat := none
  header : Option HeaderFields := none
  footer : Option FooterFields := none
  footerStart : Option Int := none
  col0 : Option DescriptorFields := none
  col1 : Option DescriptorFields := none
  slice0 : Option (List Byte) := none
  slice1 : Option (List Byte) := none
  deriving DecidableEq, Repr, Inhabited

/-- The result of READ_FILE (rules R12, R35). A row pairs a timestamp pattern with a value pattern (rule R11). -/
inductive FileResult where
  | rows (rows : List (Word × Word))
  | formatError (cause : Cause)
  deriving DecidableEq, Repr

/-- The orchestrator group `or` (rule R35). -/
structure Orchestrator where
  ts : List Word := []
  val : List Word := []
  rows : List (Word × Word) := []
  result : Option FileResult := none
  deriving DecidableEq, Repr

/-- What an operation delivers to the host (rules R12, R282). -/
inductive Result where
  /-- NEW_READER: the number the host names the reader by (log entry 7). -/
  | reader (k : Nat)
  /-- READ_BITS: `(value, ok)`. -/
  | bits (value : Word) (ok : Bool)
  /-- DECODE_I64: the sequence, each `i64` by its pattern. -/
  | ints (values : List Word)
  /-- DECODE_F64: the sequence of 64-bit patterns. -/
  | floats (patterns : List Word)
  /-- PARSE_CONTAINER: `Parsed(header, footer, slice0, slice1)`. -/
  | parsed (registers : Container)
  /-- READ_FILE: `Rows`. -/
  | rows (rows : List (Word × Word))
  /-- PARSE_CONTAINER or READ_FILE: `FormatError(cause)`. -/
  | formatError (cause : Cause)
  deriving DecidableEq, Repr

/-- A move of the host (rules R111, R283). -/
inductive Request where
  | newReader (buffer : List Byte)
  /-- READ_BITS on the host's reader number `k`; `n` is any integer the host may write (rule R113). -/
  | readBits (k : Nat) (n : Int)
  | decodeI64 (data : List Byte) (count : Word)
  | decodeF64 (data : List Byte) (count : Word)
  | parseContainer (file : List Byte)
  | readFile (file : List Byte)
  deriving DecidableEq, Repr

/-- On whose behalf a parse or a decode runs: the host's own request, or READ_FILE (rule R231). -/
inductive Caller where
  | host
  | readFile
  deriving DecidableEq, Repr

/-- The running operation and how far it is (rules R7, R231, R282). -/
inductive Phase where
  /-- No invocation runs. -/
  | idle
  | parsing (caller : Caller)
  | decodingInts (caller : Caller)
  | decodingFloats (caller : Caller)
  /-- READ_FILE with both columns in `or.ts` and `or.val` (rule R232). -/
  | pairing
  /-- READ_FILE with its result in `or.result` (rules R231, R234). -/
  | returning
  deriving DecidableEq, Repr

/-- No condition stops this block with a fault: a FormatError ends the operation and control returns to the host (rule R246),
truncation is a normal completion (rule R250), and every operation terminates (rule R254). -/
inductive Fault where
  deriving DecidableEq, Repr

/-- Requests and symbols the spec gives no result at all (rule R252). Each is safe: the model stops where it promises nothing. -/
inductive Refusal where
  /-- An instruction with no meaning in the model yet; raised by `exec`'s arms only. -/
  | notModelled (mnemonic : String)
  /-- READ_BITS with `n` outside `1 .. 64` (rule R113); raised by the host's READ_BITS, and by a float decode whose window
  registers give such a width, which rule R6's bound on the parameter excludes. -/
  | readWidth
  /-- READ_BITS on a failed reader under `READ_AFTER_FAIL = Refuse` (rule R117); raised by the host's READ_BITS. -/
  | readAfterFail
  /-- A reserved float symbol where the policy gives it no meaning (rules R94, R95); raised by the float decode. -/
  | reservedSymbol (why : Reserved)
  /-- A file longer than a finite `FILE_LEN_MAX` (rule R6, log entry 9); raised by PARSE_CONTAINER and READ_FILE. -/
  | fileTooLong
  /-- READ_BITS on a reader the host never made (rule R283, log entry 7); raised by the host's READ_BITS. -/
  | noSuchReader
  deriving DecidableEq, Repr

/-- The refusal of a READ_BITS that has no meaning. -/
def Refusal.ofRead : ReadRefusal → Refusal
  | .width => .readWidth
  | .failedReader => .readAfterFail

/-- The whole machine. -/
structure State where
  /-- The parameters of rule R6, fixed when the block is built (rule R274); no step writes them. -/
  params : Params
  /-- `FILE` (rule R42), as the host presented it last (log entry 13). -/
  file : FileBuf
  /-- The host's moves still to come, in order (log entry 6). -/
  requests : List Request
  /-- The readers the host made (rule R111). -/
  readers : List Reader
  /-- The running operation. -/
  phase : Phase
  /-- The parser's running address `p` (rule R191). -/
  ptr : Int
  id : IntDecoder
  fd : FloatDecoder
  cp : Container
  orch : Orchestrator
  /-- The host's side: the result last delivered to it (log entry 23). -/
  result : Option Result
  /-- The host's side: the header and footer registers as it may read them once the parse's operation has delivered
  (rules R33, R66; log entry 23). -/
  hostRegisters : Container
  /-- How many free values have been drawn (log entry 2). -/
  draws : Nat
  deriving DecidableEq, Repr

/-- FREE VALUE: what the host reads of the `cp` registers after a FormatError, when none of them is defined for it (rules R33,
R246; log entry 3). -/
opaque undefinedContainer : Nat → Container

/-- The machine right after reset: no invocation runs and every register has the start value of rule R40. -/
def State.reset : State :=
  { params := {}, file := {}, requests := [], readers := [], phase := .idle, ptr := 0, id := {}, fd := {}, cp := {},
    orch := {}, result := none, hostRegisters := {}, draws := 0 }

end Sys2Proof.Machine
end

