-- ==== Sys2Proof/Machine/Flags.lean ====
section
/-! DEFINITION. The one-bit values of the block, all of them (rule R36): there is no condition code. -/

namespace Sys2Proof.Machine

/-- `ok`, the second result of a READ_BITS (rule R36); none for a request that has no result. -/
def BitRead.ok : BitRead → Option Bool
  | .value _ _ => some true
  | .short _ => some false
  | .refused _ => none

/-- `fd.window_valid` (rules R28, R36, R40): 0 at the start of a decode, set by a new-window block (rule R137). -/
def State.windowValid (s : State) : Bool := s.fd.windowValid

/-- `window_valid` as the algorithm of rules R132 and R140 starts and tests it: 1 when the window registers hold a value, which
they do from the start when `F64_WINDOW_RESET` is a pair. DESIGN CHOICE: that this and the register of rule R28 are two bits,
where the spec has one name for both (log entry 22). They agree when the parameter is `none`. -/
def State.windowUsable (s : State) : Bool := s.fd.window.isSome

/-- `rd.failed` of the float decode's reader, once there is one (rule R25). -/
def State.floatFailed (s : State) : Option Bool := s.fd.rd.map (fun rd => rd.failed)

/-- `rd.failed` of the int decode's reader, once there is one (rule R25). -/
def State.intFailed (s : State) : Option Bool := s.id.rd.map (fun rd => rd.failed)

end Sys2Proof.Machine
end

