-- ==== Sys2Proof/Machine/Ops.lean ====
section
/-! DEFINITION. The named operations on the state that the meanings share: reading the decoders' registers, emitting a value,
ending an operation, taking a FormatError (there is no return from one, rule R247), and starting a decode or a parse. -/

namespace Sys2Proof.Machine

/-! ### Registers -/

/-- `fd.prev_value`, a free value while nothing has written it (log entry 1). -/
def State.floatPrev (s : State) : Word := s.fd.prevValue.getD (Config.unwritten .floatPrevValue)

/-- `id.prev_value`, a free value while nothing has written it (log entry 1). -/
def State.intPrev (s : State) : Word := s.id.prevValue.getD (Config.unwritten .intPrevValue)

/-- `id.prev_delta`, a free value while nothing has written it (log entry 1). -/
def State.intDelta (s : State) : Word := s.id.prevDelta.getD (Config.unwritten .intPrevDelta)

/-! ### Emitting -/

/-- `emit(out, v)` of the float decoder, its other registers unchanged (rules R10, R135). -/
def State.emitFloat (s : State) (v : Word) : State := { s with fd := { s.fd with out := s.fd.out ++ [v] } }

/-- `fd.prev_value <- v; emit(out, v)` (rules R133, R136, R137). -/
def State.writeFloat (s : State) (v : Word) : State :=
  { s with fd := { s.fd with prevValue := some v, out := s.fd.out ++ [v] } }

/-- `(prev_leading, prev_trailing) <- w; window_valid <- 1` (rule R137). -/
def State.openWindow (s : State) (w : Window) : State :=
  { s with fd := { s.fd with window := some w, windowValid := true } }

/-- `id.prev_value <- v; emit(out, v)` (rule R163). -/
def State.writeInt (s : State) (v : Word) : State :=
  { s with id := { s.id with prevValue := some v, out := s.id.out ++ [v] } }

/-- `id.prev_delta <- d; id.prev_value <- id.prev_value +64 d; emit(out, id.prev_value)` (rules R164, R171). -/
def State.stepInt (s : State) (d : Word) : State :=
  { s with id :=
    { s.id with
      prevDelta := some d
      prevValue := some (addWrap s.intPrev d)
      out := s.id.out ++ [addWrap s.intPrev d] } }

/-- The common tail of the five delta-of-delta symbols: the delta-of-delta is applied first (rule R171). -/
def State.applyDod (s : State) (dod : Word) : State := s.stepInt (addWrap s.intDelta dod)

/-! ### The end of an operation -/

/-- The block with no invocation and no state: every register at its start value (rules R39, R270). What is the host's stays:
the file it presents, its readers, its requests and what was delivered to it (log entry 17). -/
def State.discard (s : State) : State :=
  { s with phase := .idle, ptr := 0, id := {}, fd := {}, cp := {}, orch := {} }

/-- The invocation ends: its result goes to the host, and the block holds nothing of it (rules R39, R270, R282). How the result
reaches the host is the model's choice: in one field, which holds it until the next delivery (log entry 23). -/
def State.deliver (s : State) (r : Result) : State := { s.discard with result := some r }

/-- An operation whose parse succeeded delivers its result, and with it the registers, which the host may read from then on (rule
R33) and not before (rule R66); where it reads them is log entry 23. -/
def State.deliverParsed (s : State) (r : Result) : State := { s.deliver r with hostRegisters := s.cp }

/-- A FormatError is delivered, and with it no `cp` register is defined for the host any more (rules R33, R246;
log entry 3). -/
def State.deliverError (s : State) (c : Cause) : State :=
  { s.deliver (.formatError c) with hostRegisters := undefinedContainer s.draws, draws := s.draws + 1 }

/-- The float decode returns `out` as it stands, complete or by the soft stop of rule R141, and its reader and registers are
discarded (rules R26, R278). Within READ_FILE the pairing follows. -/
def State.finishFloats (s : State) : State :=
  match s.phase with
  | .decodingFloats .readFile => { s with fd := {}, orch := { s.orch with val := s.fd.out }, phase := .pairing }
  | _ => s.deliver (.floats s.fd.out)

/-- The int decode returns `out` as it stands, complete or by the soft stop of rule R174, and its reader and registers are
discarded (rules R26, R278). Within READ_FILE the float decode follows (rule R233). -/
def State.finishInts (s : State) : State :=
  match s.phase with
  | .decodingInts .readFile =>
    { s with id := {}, orch := { s.orch with ts := s.id.out }, phase := .decodingFloats .readFile }
  | _ => s.deliver (.ints s.id.out)

/-- READ_FILE pairs the columns positionally, up to the shorter one (rules R231, R232). -/
def State.pairColumns (s : State) : State :=
  { s with
    orch := { s.orch with rows := s.orch.ts.zip s.orch.val, result := some (.rows (s.orch.ts.zip s.orch.val)) }
    phase := .returning }

/-- READ_FILE ends and delivers what `or.result` holds (rules R12, R231, R282). With no result, where no run leads, nothing is
delivered. -/
def State.returnFile (s : State) : State :=
  match s.orch.result with
  | some (.rows rs) => s.deliverParsed (.rows rs)
  | some (.formatError c) => s.deliverError c
  | none => s.discard

/-! ### The exception -/

/-- Taking a FormatError (rule R246): the parse ends at once and holds nothing any more (rule R247), only the cause is recorded
(rule R243). PARSE_CONTAINER delivers the cause; the READ_FILE that called it returns it with no rows (rule R234), and the host
sees nothing of it before (rule R66). Nothing is saved. -/
def State.raise (s : State) (c : Cause) : State :=
  match s.phase with
  | .parsing .readFile => { s.discard with orch := { result := some (.formatError c) }, phase := .returning }
  | _ => s.deliverError c

/-- A reserved float symbol, by `F64_RESERVED_POLICY` (rules R94, R95). -/
def State.reservedSymbol (s : State) (why : Reserved) : Host.Outcome State Fault Refusal :=
  match s.params.reservedPolicy with
  | .softStop => .next s.finishFloats
  | .refuse => .refused (.reservedSymbol why)
  | .mb0Is64 => .refused (.reservedSymbol why)

/-! ### The start of an operation -/

/-- The reader of a decode; none if `data` is empty or `count = 0` (rules R131, R161). -/
def startReader (data : List Byte) (count : Word) : Option Reader :=
  if data = [] ∨ count = 0 then none else some (Reader.new data)

/-- The int decoder at the start of a decode (rules R40, R162). -/
def IntDecoder.start (data : List Byte) (count : Word) : IntDecoder := { rd := startReader data count, count := count }

/-- The float decoder at the start of a decode (rules R40, R132, R140): with a window parameter the window registers hold the
pair, and `fd.window_valid` is 0 all the same (log entry 22). -/
def FloatDecoder.start (p : Params) (data : List Byte) (count : Word) : FloatDecoder :=
  { rd := startReader data count, count := count, window := p.windowReset }

/-- A parse starts on the presented file (rules R40, R191, R273). -/
def State.startParse (s : State) (caller : Caller) (file : List Byte) : State :=
  { s with file := FileBuf.ofBytes file, ptr := 0, cp := { fileLen := some file.length }, phase := .parsing caller }

/-- The whole parse has succeeded (rules R191, R207). PARSE_CONTAINER delivers the registers; READ_FILE goes on with the two
decodes, column 0 first (rules R201, R204, R231, R233; log entry 11). -/
def State.finishParse (s : State) (count0 count1 : Word) (slice0 slice1 : List Byte) : State :=
  match s.phase with
  | .parsing .readFile =>
    { s with
      id := IntDecoder.start slice0 count0
      fd := FloatDecoder.start s.params slice1 count1
      phase := .decodingInts .readFile }
  | _ => s.deliverParsed (.parsed s.cp)

end Sys2Proof.Machine
end

