-- ==== Sys2Proof/Machine/FloatSymbols.lean ====
section
/-! DEFINITION. The meanings of the four float symbols (rules R133 to R140), their bits already taken from the reader. -/

namespace Sys2Proof.Machine

/-- `F64.FIRST` (rule R133). -/
def execF64First (v : Word) (s : State) : Host.Outcome State Fault Refusal := .next (s.writeFloat v)

/-- `F64.REPEAT` (rule R135). -/
def execF64Repeat (s : State) : Host.Outcome State Fault Refusal := .next (s.emitFloat s.floatPrev)

/-- `F64.XOR_REUSE` (rules R95, R136, R140): reserved unless the window registers hold a value. -/
def execF64XorReuse (x : Word) (s : State) : Host.Outcome State Fault Refusal :=
  match s.fd.window with
  | none => s.reservedSymbol .reuseBeforeWindow
  | some w => .next (s.writeFloat (xorPayload s.floatPrev x w.trailing))

/-- `F64.XOR_NEW` (rules R92 to R94, R137). -/
def execF64XorNew (l m : BitVec 6) (x : Word) (s : State) : Host.Outcome State Fault Refusal :=
  match newWindow s.params.reservedPolicy l m with
  | none => s.reservedSymbol .badWindow
  | some (_, w) => .next ((s.writeFloat (xorPayload s.floatPrev x w.trailing)).openWindow w)

end Sys2Proof.Machine
end

