-- ==== Sys2Proof/Machine/IntSymbols.lean ====
section
/-! DEFINITION. The meanings of the seven int symbols (rules R163 to R171), their bits already taken from the reader. -/

namespace Sys2Proof.Machine

/-- `I64.FIRST` (rule R163). -/
def execI64First (v : Word) (s : State) : Host.Outcome State Fault Refusal := .next (s.writeInt v)

/-- `I64.FIRST_DELTA` (rule R164). -/
def execI64FirstDelta (d : Word) (s : State) : Host.Outcome State Fault Refusal := .next (s.stepInt d)

/-- `I64.DOD0` (rule R166). -/
def execI64Dod0 (s : State) : Host.Outcome State Fault Refusal := .next (s.applyDod 0)

/-- `I64.DOD7` (rule R167). -/
def execI64Dod7 (d : BitVec 7) (s : State) : Host.Outcome State Fault Refusal := .next (s.applyDod (sext d))

/-- `I64.DOD9` (rule R168). -/
def execI64Dod9 (d : BitVec 9) (s : State) : Host.Outcome State Fault Refusal := .next (s.applyDod (sext d))

/-- `I64.DOD12` (rule R169). -/
def execI64Dod12 (d : BitVec 12) (s : State) : Host.Outcome State Fault Refusal := .next (s.applyDod (sext d))

/-- `I64.DOD64` (rule R170). -/
def execI64Dod64 (d : Word) (s : State) : Host.Outcome State Fault Refusal := .next (s.applyDod (sext d))

end Sys2Proof.Machine
end

