-- ==== Sys2Proof/Machine/Records.lean ====
section
/-! DEFINITION. The meanings of the four container records (rules R191 to R202), their fields already read from the file. -/

namespace Sys2Proof.Machine

/-- `HEADER`: the magic is checked; the other fields are kept for the host and not checked (rules R193, R194). -/
def execHeader (h : HeaderFields) (s : State) : Host.Outcome State Fault Refusal :=
  if h.magic = Config.magic then .next { s with cp := { s.cp with header := some h } }
  else .next (s.raise .badMagic)

/-- `TRAILER-FOOTER`: where the footer starts, and that it declares two columns (rules R195 to R197). -/
def execTrailerFooter (f : FooterFields) (s : State) : Host.Outcome State Fault Refusal :=
  if footerStart s.file.len f.footerSize < Config.headerBytes then .next (s.raise .footerBeforeHeader)
  else if f.columnCount = Config.columnCount then
    .next { s with
      cp := { s.cp with footer := some f, footerStart := some (footerStart s.file.len f.footerSize) }
      ptr := footerStart s.file.len f.footerSize + 8 }
  else .next (s.raise .badColumnCount)

/-- `DESCRIPTOR`: descriptor 0, then descriptor 1; the next record follows at once (rules R191, R198, R199). -/
def execDescriptor (d : DescriptorFields) (s : State) : Host.Outcome State Fault Refusal :=
  .next { s with
    cp := if s.cp.col0 = none then { s.cp with col0 := some d } else { s.cp with col1 := some d }
    ptr := s.ptr + 32 + d.nameLen.toNat }

/-- `COLUMN`: slice 0, then slice 1 (rule R202). -/
def execColumn (data : List Byte) (s : State) : Host.Outcome State Fault Refusal :=
  .next { s with
    cp := if s.cp.slice0 = none then { s.cp with slice0 := some data } else { s.cp with slice1 := some data } }

end Sys2Proof.Machine
end

