-- ==== Sys2Proof/Machine/Dispatch.lean ====
section
/-! DEFINITION. One arm per instruction. -/

namespace Sys2Proof.Machine

def exec (i : Instr) (s : State) : Host.Outcome State Fault Refusal :=
  match i with
  | .f64First v => Sys2Proof.Machine.execF64First v s
  | .f64Repeat => Sys2Proof.Machine.execF64Repeat s
  | .f64XorReuse x => Sys2Proof.Machine.execF64XorReuse x s
  | .f64XorNew l m x => Sys2Proof.Machine.execF64XorNew l m x s
  | .i64First v => Sys2Proof.Machine.execI64First v s
  | .i64FirstDelta d => Sys2Proof.Machine.execI64FirstDelta d s
  | .i64Dod0 => Sys2Proof.Machine.execI64Dod0 s
  | .i64Dod7 d => Sys2Proof.Machine.execI64Dod7 d s
  | .i64Dod9 d => Sys2Proof.Machine.execI64Dod9 d s
  | .i64Dod12 d => Sys2Proof.Machine.execI64Dod12 d s
  | .i64Dod64 d => Sys2Proof.Machine.execI64Dod64 d s
  | .header h => Sys2Proof.Machine.execHeader h s
  | .trailerFooter f => Sys2Proof.Machine.execTrailerFooter f s
  | .descriptor d => Sys2Proof.Machine.execDescriptor d s
  | .column data => Sys2Proof.Machine.execColumn data s

end Sys2Proof.Machine
end

