-- ==== Sys2Proof/Machine/Fetch.lean ====
section
/-! DEFINITION. Fetching the next instruction of the running operation: the next record of the parse (rule R191), or the next
symbol of a decode (rules R132, R162). -/

namespace Sys2Proof.Machine

/-- What a fetch gives: an instruction to execute, with the state after its bits were taken, or the way this step ends
without one. -/
inductive Fetched where
  | instr (i : Instr) (s : State)
  | ends (o : Host.Outcome State Fault Refusal)

/-- How far a parse has come, told by the registers written so far (rule R191). -/
inductive ParseStage where
  | header
  | footer
  | descriptor
  /-- The range of the next column is to be cut, by its descriptor. -/
  | column (d : DescriptorFields)
  /-- Everything has been read: the two counts and the two slices. -/
  | done (count0 count1 : Word) (slice0 slice1 : List Byte)

/-- The order of the records: header, footer, descriptor 0, descriptor 1, column 0, column 1 (rule R191). -/
def Container.stage (cp : Container) : ParseStage :=
  match cp.header with
  | none => .header
  | some _ =>
    match cp.footer with
    | none => .footer
    | some _ =>
      match cp.col0, cp.col1 with
      | some d0, some d1 =>
        match cp.slice0, cp.slice1 with
        | none, _ => .column d0
        | some _, none => .column d1
        | some b0, some b1 => .done d0.count d1.count b0 b1
      | _, _ => .descriptor

/-- A record that was read is executed; a check that failed raises its cause (rule R246). -/
def fetchedRecord {α : Type} (s : State) (record : α → Instr) : Except Cause α → Fetched
  | .ok a => .instr (record a) s
  | .error c => .ends (.next (s.raise c))

/-- The next record of the parse. -/
def fetchRecord (s : State) : Fetched :=
  match s.cp.stage with
  | .header => fetchedRecord s .header (decodeHeader s.file)
  | .footer => fetchedRecord s .trailerFooter (decodeTrailerFooter s.file)
  | .descriptor => fetchedRecord s .descriptor (decodeDescriptor s.file s.ptr)
  | .column d => fetchedRecord s .column (decodeColumn s.file d.offset d.size)
  | .done count0 count1 slice0 slice1 => .ends (.next (s.finishParse count0 count1 slice0 slice1))

/-- The slot of the next int symbol, by the number of values emitted (rules R81, R87). -/
def IntDecoder.slot (id : IntDecoder) : Slot :=
  match id.out.length with
  | 0 => .intFirst
  | 1 => .intSecond
  | _ => .intLater

/-- The slot of the next float symbol, by the number of values emitted and the window registers (rules R81, R86). -/
def FloatDecoder.slot (fd : FloatDecoder) : Slot :=
  match fd.out.length with
  | 0 => .floatFirst
  | _ => .floatLater fd.window

/-- The loop of DECODE_I64: the next symbol while fewer than `count` values are out, else the end (rules R162, R174, R176). -/
def fetchInt (s : State) : Fetched :=
  match s.id.rd with
  | none => .ends (.next s.finishInts)
  | some rd =>
    if s.id.out.length < s.id.count.toNat then
      match decodeSymbol s.params s.id.slot rd with
      | .symbol i rd => .instr i { s with id := { s.id with rd := some rd } }
      | .exhausted rd => .ends (.next ({ s with id := { s.id with rd := some rd } } : State).finishInts)
      | .reserved why rd => .ends (({ s with id := { s.id with rd := some rd } } : State).reservedSymbol why)
      | .refused why => .ends (.refused (.ofRead why))
    else .ends (.next s.finishInts)

/-- The loop of DECODE_F64: the next symbol while fewer than `count` values are out, else the end (rules R132, R141, R144). -/
def fetchFloat (s : State) : Fetched :=
  match s.fd.rd with
  | none => .ends (.next s.finishFloats)
  | some rd =>
    if s.fd.out.length < s.fd.count.toNat then
      match decodeSymbol s.params s.fd.slot rd with
      | .symbol i rd => .instr i { s with fd := { s.fd with rd := some rd } }
      | .exhausted rd => .ends (.next ({ s with fd := { s.fd with rd := some rd } } : State).finishFloats)
      | .reserved why rd => .ends (({ s with fd := { s.fd with rd := some rd } } : State).reservedSymbol why)
      | .refused why => .ends (.refused (.ofRead why))
    else .ends (.next s.finishFloats)

end Sys2Proof.Machine
end

