-- ==== Sys2Proof/Machine/Requests.lean ====
section
/-! DEFINITION. The host's operations, as an idle machine takes them up (rules R7, R273, R283). None has an encoding (rule
R104). NEW_READER and READ_BITS complete at once; the others start, and run one instruction a step. -/

namespace Sys2Proof.Machine

/-- A file within `FILE_LEN_MAX` (rule R6). -/
def admits (p : Params) (file : List Byte) : Bool :=
  match p.fileLenMax with
  | none => true
  | some bound => decide (file.length ≤ bound)

/-- `NEW_READER(buffer)`: a fresh reader, which the host names by its number (rule R111). -/
def serveNewReader (buffer : List Byte) (s : State) : Host.Outcome State Fault Refusal :=
  .next (({ s with readers := s.readers ++ [Reader.new buffer] } : State).deliver (.reader s.readers.length))

/-- `READ_BITS(rd, n)` on the host's reader number `k` (rules R112 to R117). The value that comes with `ok = false` is a draw
(rule R116). -/
def serveReadBits (k : Nat) (n : Int) (s : State) : Host.Outcome State Fault Refusal :=
  match s.readers[k]? with
  | none => .refused .noSuchReader
  | some rd =>
    match readBits s.params.readAfterFail rd n.toNat with
    | .value v rd => .next (({ s with readers := s.readers.set k rd } : State).deliver (.bits v true))
    | .short rd =>
      .next (({ s with readers := s.readers.set k rd, draws := s.draws + 1 } : State).deliver
        (.bits (Config.failedReadValue s.draws) false))
    | .refused why => .refused (.ofRead why)

/-- `DECODE_I64(data, count)` starts (rules R160 to R162). -/
def serveDecodeI64 (data : List Byte) (count : Word) (s : State) : Host.Outcome State Fault Refusal :=
  .next { s with id := IntDecoder.start data count, phase := .decodingInts .host }

/-- `DECODE_F64(data, count)` starts (rules R130 to R132). -/
def serveDecodeF64 (data : List Byte) (count : Word) (s : State) : Host.Outcome State Fault Refusal :=
  .next { s with fd := FloatDecoder.start s.params data count, phase := .decodingFloats .host }

/-- `PARSE_CONTAINER(FILE)` starts (rules R190, R191). -/
def serveParseContainer (file : List Byte) (s : State) : Host.Outcome State Fault Refusal :=
  if admits s.params file then .next (s.startParse .host file) else .refused .fileTooLong

/-- `READ_FILE(FILE)` starts (rules R230, R231). -/
def serveReadFile (file : List Byte) (s : State) : Host.Outcome State Fault Refusal :=
  if admits s.params file then .next (s.startParse .readFile file) else .refused .fileTooLong

/-- One request. -/
def serve (r : Request) (s : State) : Host.Outcome State Fault Refusal :=
  match r with
  | .newReader buffer => serveNewReader buffer s
  | .readBits k n => serveReadBits k n s
  | .decodeI64 data count => serveDecodeI64 data count s
  | .decodeF64 data count => serveDecodeF64 data count s
  | .parseContainer file => serveParseContainer file s
  | .readFile file => serveReadFile file s

/-- An idle machine takes the host's next request, which starts from a block that holds nothing (rules R39, R40, R270); with none
it waits, and nothing changes (log entry 10). -/
def idleStep (s : State) : Host.Outcome State Fault Refusal :=
  match s.requests with
  | [] => .next s
  | r :: rest => serve r { s.discard with requests := rest }

end Sys2Proof.Machine
end

