-- ==== Sys2Proof/Machine/Step.lean ====
section
/-! DEFINITION. One step: an idle machine takes a request; a running operation fetches one instruction and executes it, or
ends. -/

namespace Sys2Proof.Machine

/-- The next instruction of the running operation. -/
def fetch (s : State) : Fetched :=
  match s.phase with
  | .idle => .ends (idleStep s)
  | .parsing _ => fetchRecord s
  | .decodingInts _ => fetchInt s
  | .decodingFloats _ => fetchFloat s
  | .pairing => .ends (.next s.pairColumns)
  | .returning => .ends (.next s.returnFile)

/-- What was fetched is executed; a fetch without an instruction has ended the step. -/
def Fetched.run : Fetched → Host.Outcome State Fault Refusal
  | .instr i s => exec i s
  | .ends o => o

/-- One step of the machine. -/
def step (s : State) : Host.Outcome State Fault Refusal := (fetch s).run

/-- The machine with a table word placed where the next step fetches it (log entries 14, 15): in the private reader of a decode
that stands at the word's slot, or in the file of a parse that stands at the word's record. -/
def State.withFetchWord (s : State) (nbits w : Nat) : State :=
  if nbits = 32 then
    match tableRecord w with
    | .header => { s with file := tableFile w, cp := {}, phase := .parsing .host }
    | .trailerFooter =>
      { s with file := tableFile w, cp := { header := some default }, phase := .parsing .host }
    | .descriptor =>
      { s with
        file := tableFile w
        ptr := 32
        cp := { header := some default, footer := some default }
        phase := .parsing .host }
  else
    match tableSlot nbits with
    | .floatFirst =>
      { s with
        fd := { rd := some (Reader.new (tableStream nbits w)), count := 1 }
        phase := .decodingFloats .host }
    | .floatLater window =>
      { s with
        fd :=
          { rd := some (Reader.new (tableStream nbits w)), count := 2, prevValue := some 0
            window := window, windowValid := window.isSome, out := [0] }
        phase := .decodingFloats .host }
    | .intFirst =>
      { s with id := { rd := some (Reader.new (tableStream nbits w)), count := 1 }, phase := .decodingInts .host }
    | .intSecond =>
      { s with
        id := { rd := some (Reader.new (tableStream nbits w)), count := 2, prevValue := some 0, out := [0] }
        phase := .decodingInts .host }
    | .intLater =>
      { s with
        id := { rd := some (Reader.new (tableStream nbits w)), count := 3, prevValue := some 0, prevDelta := some 0, out := [0, 0] }
        phase := .decodingInts .host }

end Sys2Proof.Machine
end

