-- ==== Sys2Proof/Machine/Transactions.lean ====
section
/-! DEFINITION. Each host operation as the one indivisible transaction of rule R7: the whole algorithms of rules R132, R162,
R191 and R231, written from their pseudocode over plain byte sequences. The machine's steps are to deliver the same results. -/

namespace Sys2Proof.Machine.Transaction

/-- `(v, ok) <- READ_BITS(rd, n); ok?` where only `ok` matters: no decoder reads a failed reader (rule R118). -/
def readOk (rd : Reader) (n : Nat) : Option (Word × Reader) :=
  match readBits .stickyFail rd n with
  | .value v rd => some (v, rd)
  | .short _ => none
  | .refused _ => none

/-- `sext_w` by its arithmetic definition (rule R172). -/
def sextValue (w : Nat) (x : Word) : Word :=
  if x.toNat < 2 ^ (w - 1) then x else BitVec.ofInt 64 ((x.toNat : Int) - (2 ^ w : Nat))

/-! ### DECODE_I64 (rule R162) -/

/-- The delta-of-delta of a symbol at value #3 or later; none if a read fails. -/
def readDod (rd : Reader) : Option (Word × Reader) := do
  let (b, rd) ← readOk rd 1
  if b = 0 then return (0, rd)
  let (b, rd) ← readOk rd 1
  if b = 0 then
    let (x, rd) ← readOk rd 7
    return (sextValue 7 x, rd)
  let (b, rd) ← readOk rd 1
  if b = 0 then
    let (x, rd) ← readOk rd 9
    return (sextValue 9 x, rd)
  let (b, rd) ← readOk rd 1
  if b = 0 then
    let (x, rd) ← readOk rd 12
    return (sextValue 12 x, rd)
  let (x, rd) ← readOk rd 64
  return (sextValue 64 x, rd)

/-- At most `n` further values. -/
def intLoop : Nat → Reader → (prevValue prevDelta : Word) → List Word
  | 0, _, _, _ => []
  | n + 1, rd, prevValue, prevDelta =>
    match readDod rd with
    | none => []
    | some (dod, rd) =>
      (prevValue + (prevDelta + dod)) :: intLoop n rd (prevValue + (prevDelta + dod)) (prevDelta + dod)

/-- `DECODE_I64(data, count)`. -/
def decodeI64 (data : List Byte) (count : Word) : List Word :=
  if data = [] ∨ count = 0 then []
  else
    match readOk (Reader.new data) 64 with
    | none => []
    | some (v, rd) =>
      if count = 1 then [v]
      else
        match readOk rd 64 with
        | none => [v]
        | some (d, rd) => v :: (v + d) :: intLoop (count.toNat - 2) rd (v + d) d

/-! ### DECODE_F64 (rule R132) -/

/-- How a float symbol that yields no value ends the decode. -/
inductive Halt where
  | truncated
  | reserved (why : Reserved)
  | width
  deriving DecidableEq, Repr

/-- A read of a decoder. -/
def readOr (rd : Reader) (n : Nat) : Except Halt (Word × Reader) :=
  match readBits .stickyFail rd n with
  | .value v rd => .ok (v, rd)
  | .short _ => .error .truncated
  | .refused _ => .error .width

/-- A symbol at value #2 or later: the value it yields, the window after it and the reader after it. -/
def readFloat (policy : ReservedPolicy) (prev : Word) (window : Option Window) (rd : Reader) :
    Except Halt (Word × Option Window × Reader) := do
  let (c, rd) ← readOr rd 1
  if c = 0 then return (prev, window, rd)
  let (t, rd) ← readOr rd 1
  if t = 0 then
    match window with
    | none => throw (.reserved .reuseBeforeWindow)
    | some w =>
      let (x, rd) ← readOr rd (64 - w.leading - w.trailing)
      return (prev ^^^ (x <<< w.trailing), some w, rd)
  let (l, rd) ← readOr rd 6
  let (m, rd) ← readOr rd 6
  if m = 0 ∧ policy = .mb0Is64 ∧ l = 0 then
    let (x, rd) ← readOr rd 64
    return (prev ^^^ x, some ⟨0, 0⟩, rd)
  if m = 0 ∨ 64 < l.toNat + m.toNat then throw (.reserved .badWindow)
  let (x, rd) ← readOr rd m.toNat
  return (prev ^^^ (x <<< (64 - l.toNat - m.toNat)), some ⟨l.toNat, 64 - l.toNat - m.toNat⟩, rd)

/-- At most `n` further values, or the refusal of rule R94. -/
def floatLoop (policy : ReservedPolicy) : Nat → Reader → Word → Option Window → Except Refusal (List Word)
  | 0, _, _, _ => .ok []
  | n + 1, rd, prev, window =>
    match readFloat policy prev window rd with
    | .ok (v, window, rd) => (floatLoop policy n rd v window).map (fun vs => v :: vs)
    | .error .truncated => .ok []
    | .error (.reserved why) => if policy = .softStop then .ok [] else .error (.reservedSymbol why)
    | .error .width => .error .readWidth

/-- `DECODE_F64(data, count)` under the parameters. -/
def decodeF64 (p : Params) (data : List Byte) (count : Word) : Except Refusal (List Word) :=
  if data = [] ∨ count = 0 then .ok []
  else
    match readOk (Reader.new data) 64 with
    | none => .ok []
    | some (v, rd) => (floatLoop p.reservedPolicy (count.toNat - 1) rd v p.windowReset).map (fun vs => v :: vs)

/-! ### PARSE_CONTAINER (rule R191) -/

/-- `MemBytes(a, n)` on the whole file as a byte sequence (rules R10, R62). -/
def bytesAt (file : List Byte) (a : Int) (n : Nat) : Except Cause (List Byte) :=
  if 0 ≤ a ∧ a + n ≤ file.length then .ok ((file.drop a.toNat).take n) else .error .outOfRange

/-- `MemRead(a, 4)`. -/
def u32At (file : List Byte) (a : Int) : Except Cause U32 := (bytesAt file a 4).map (fun bs => BitVec.ofNat 32 (leNat bs))

/-- `MemRead(a, 8)`. -/
def u64At (file : List Byte) (a : Int) : Except Cause Word := (bytesAt file a 8).map (fun bs => BitVec.ofNat 64 (leNat bs))

/-- One descriptor at address `p`. -/
def descriptorAt (file : List Byte) (p : Int) : Except Cause DescriptorFields := do
  let nameLen ← u32At file p
  let k : Nat := nameLen.toNat
  let name ← bytesAt file (p + 4) k
  let type ← u32At file (p + 4 + k)
  let offset ← u64At file (p + 8 + k)
  let size ← u64At file (p + 16 + k)
  let count ← u64At file (p + 24 + k)
  return { nameLen, name, type, offset, size, count }

/-- The slice of a column, its range checked (rule R63). -/
def sliceOf (file : List Byte) (d : DescriptorFields) : Except Cause (List Byte) :=
  if d.size.toNat < 8 ∨ d.offset.toNat + d.size.toNat > file.length then .error .outOfRange
  else .ok ((file.drop (d.offset.toNat + 8)).take (d.size.toNat - 8))

/-- `PARSE_CONTAINER(FILE)`. -/
def parseContainer (file : List Byte) : Except Cause Container := do
  if file.length < 36 then throw .fileTooSmall
  let magic ← u32At file 0
  if magic ≠ 0x50415251 then throw .badMagic
  let formatVersion ← u32At file 4
  let recordCount ← u64At file 8
  let hdrColumnCount ← u32At file 16
  let identifier ← bytesAt file 20 4
  let footerSize ← u32At file ((file.length : Int) - 4)
  let start : Int := (file.length : Int) - 4 - footerSize.toNat
  if start < 32 then throw .footerBeforeHeader
  let metadataVersion ← u32At file start
  let ftrColumnCount ← u32At file (start + 4)
  if ftrColumnCount ≠ 2 then throw .badColumnCount
  let col0 ← descriptorAt file (start + 8)
  let col1 ← descriptorAt file (start + 8 + 32 + col0.nameLen.toNat)
  let slice0 ← sliceOf file col0
  let slice1 ← sliceOf file col1
  return {
    fileLen := some file.length
    header := some { magic, formatVersion, recordCount, columnCount := hdrColumnCount, identifier }
    footer := some { footerSize, metadataVersion, columnCount := ftrColumnCount }
    footerStart := some start
    col0 := some col0
    col1 := some col1
    slice0 := some slice0
    slice1 := some slice1 }

/-! ### READ_FILE (rule R231) -/

/-- Both columns decoded, column 0 first, and paired positionally (rules R232, R233). -/
def decodeColumns (p : Params) (slice0 : List Byte) (count0 : Word) (slice1 : List Byte) (count1 : Word) :
    Except Refusal FileResult :=
  (decodeF64 p slice1 count1).map (fun vals => .rows ((decodeI64 slice0 count0).zip vals))

/-- `READ_FILE(FILE)` under the parameters. -/
def readFile (p : Params) (file : List Byte) : Except Refusal FileResult :=
  match parseContainer file with
  | .error c => .ok (.formatError c)
  | .ok cp =>
    match cp.col0, cp.col1, cp.slice0, cp.slice1 with
    | some d0, some d1, some b0, some b1 => decodeColumns p b0 d0.count b1 d1.count
    | _, _, _, _ => .ok (.formatError .outOfRange)

end Sys2Proof.Machine.Transaction
end

