-- ==== Sys2Proof/Machine/Assembler.lean ====
section
/-! DEFINITION. The pseudo-instructions of rule R102 and the streams they make (rules R101, R147, R178). They are the spec's
own notation for writing streams down; the block itself encodes nothing (rule R4). -/

namespace Sys2Proof.Machine.Assembler

/-! ### Int streams -/

/-- `I64.DOD d`: the shortest tier that holds `d` (rule R102). -/
def shortestDod (d : Word) : Instr :=
  if d = 0 then .i64Dod0
  else if -64 ≤ d.toInt ∧ d.toInt ≤ 63 then .i64Dod7 (d.setWidth 7)
  else if -256 ≤ d.toInt ∧ d.toInt ≤ 255 then .i64Dod9 (d.setWidth 9)
  else if -2048 ≤ d.toInt ∧ d.toInt ≤ 2047 then .i64Dod12 (d.setWidth 12)
  else .i64Dod64 d

/-- The delta-of-delta a symbol carries (rules R166 to R170, R172); none for any other instruction. -/
def dodOf : Instr → Option Word
  | .i64Dod0 => some 0
  | .i64Dod7 d => some (BitVec.ofInt 64 d.toInt)
  | .i64Dod9 d => some (BitVec.ofInt 64 d.toInt)
  | .i64Dod12 d => some (BitVec.ofInt 64 d.toInt)
  | .i64Dod64 d => some d
  | _ => none

/-- The symbols code the values that follow `prev` and `delta`, each in any tier that holds its delta-of-delta (rules R90,
R178). -/
def codesDods (prev delta : Word) : List Word → List Instr → Bool
  | [], [] => true
  | v :: vs, i :: is => dodOf i == some (v - prev - delta) && codesDods v (v - prev) vs is
  | _, _ => false

/-- The symbols code the int sequence (rule R178). -/
def codesInts : List Word → List Instr → Bool
  | [], [] => true
  | [v], [.i64First v'] => v == v'
  | v1 :: v2 :: vs, .i64First v :: .i64FirstDelta d :: is => v1 == v && d == v2 - v1 && codesDods v2 (v2 - v1) vs is
  | _, _ => false

/-- The values after `prev` and `delta`, each in its shortest tier. -/
def shortestDods (prev delta : Word) : List Word → List Instr
  | [] => []
  | v :: vs => shortestDod (v - prev - delta) :: shortestDods v (v - prev) vs

/-- An int sequence in its shortest tiers. -/
def assembleInts : List Word → List Instr
  | [] => []
  | [v] => [.i64First v]
  | v1 :: v2 :: vs => .i64First v1 :: .i64FirstDelta (v2 - v1) :: shortestDods v2 (v2 - v1) vs

/-- The stream bits of symbols of the int stream. Each has the same bits at every slot it may stand in. -/
def intBits (is : List Instr) : List Bool := (is.map (encodeSymbol .refuse .intLater)).flatten

/-! ### Float streams -/

/-- The number of leading zero bits of a word (rule R102). -/
def leadingZeros (x : Word) : Nat := ((msbBits 64 x.toNat).takeWhile (fun b => !b)).length

/-- The number of trailing zero bits of a word (rule R102). -/
def trailingZeros (x : Word) : Nat := ((msbBits 64 x.toNat).reverse.takeWhile (fun b => !b)).length

/-- `F64.VALUE p` after the pattern `q` and with the current window; none where rule R102 has no legal expansion. -/
def floatValue (q : Word) (window : Option Window) (p : Word) : Option Instr :=
  let x := p ^^^ q
  let lz := leadingZeros x
  let tz := trailingZeros x
  if p = q then some .f64Repeat
  else
    match window with
    | some w =>
      if w.leading ≤ lz ∧ w.trailing ≤ tz then some (.f64XorReuse (x >>> w.trailing))
      else if 64 - lz - tz ≤ 63 then some (.f64XorNew (BitVec.ofNat 6 lz) (BitVec.ofNat 6 (64 - lz - tz)) (x >>> tz))
      else none
    | none =>
      if 64 - lz - tz ≤ 63 then some (.f64XorNew (BitVec.ofNat 6 lz) (BitVec.ofNat 6 (64 - lz - tz)) (x >>> tz)) else none

/-- The window after a symbol (rules R136, R137). -/
def windowAfter (window : Option Window) : Instr → Option Window
  | .f64XorNew l m _ =>
    match newWindow .refuse l m with
    | some (_, w) => some w
    | none => window
  | _ => window

/-- The stream bits of the values that follow `q`; none if one of them has no legal expansion. -/
def floatBitsAfter (q : Word) (window : Option Window) : List Word → Option (List Bool)
  | [] => some []
  | p :: ps =>
    match floatValue q window p with
    | none => none
    | some i =>
      (floatBitsAfter p (windowAfter window i) ps).map
        (fun bits => encodeSymbol .refuse (.floatLater window) i ++ bits)

/-- The stream bits of a float sequence, under the default parameters (rules R102, R147). -/
def floatBits : List Word → Option (List Bool)
  | [] => some []
  | v :: vs => (floatBitsAfter v none vs).map (fun bits => encodeSymbol .refuse .floatFirst (.f64First v) ++ bits)

end Sys2Proof.Machine.Assembler
end

