-- ==== Sys2Proof/Safety.lean ====
section
/-! DEFINITION. What counts as a sound state, and the ways a run is spoken of, in the terms the statements use. -/

namespace Sys2Proof.Safety

open Machine

/-- `k` steps lead from `s` to `t`. -/
def Reaches (k : Nat) (s t : State) : Prop := Sys2Proof.core.run k s = .next t

/-- Within `k` steps the run is refused (rule R252). -/
def RefusedWithin (k : Nat) (s : State) (r : Refusal) : Prop := Sys2Proof.core.run k s = .refused r

/-- A float decode that still wants a value, with a reader that has not failed (rules R132, R144). -/
def FloatAt (s : State) (rd : Reader) : Prop :=
  (∃ c, s.phase = .decodingFloats c) ∧ s.fd.rd = some rd ∧ rd.failed = false ∧ s.fd.out.length < s.fd.count.toNat

/-- An int decode that still wants a value, with a reader that has not failed (rules R162, R176). -/
def IntAt (s : State) (rd : Reader) : Prop :=
  (∃ c, s.phase = .decodingInts c) ∧ s.id.rd = some rd ∧ rd.failed = false ∧ s.id.out.length < s.id.count.toNat

/-- The float decoder with its reader at another place. -/
def withFloatReader (s : State) (rd : Reader) : State := { s with fd := { s.fd with rd := some rd } }

/-- The int decoder with its reader at another place. -/
def withIntReader (s : State) (rd : Reader) : State := { s with id := { s.id with rd := some rd } }

/-- The state rule R171 asks for after a delta-of-delta, the sums modulo `2^64` (rule R173), and nothing else changed. -/
def afterDod (s : State) (dod : Word) : State :=
  { s with id :=
    { s.id with
      prevDelta := some (s.intDelta + dod)
      prevValue := some (s.intPrev + (s.intDelta + dod))
      out := s.id.out ++ [s.intPrev + (s.intDelta + dod)] } }

/-- A parse that stands before its header record. -/
def AtHeader (s : State) : Prop := (∃ c, s.phase = .parsing c) ∧ s.cp.header = none

/-- A parse that stands before its footer. -/
def AtFooter (s : State) : Prop := (∃ c, s.phase = .parsing c) ∧ s.cp.header ≠ none ∧ s.cp.footer = none

/-- A parse that stands before a descriptor. -/
def AtDescriptor (s : State) : Prop :=
  (∃ c, s.phase = .parsing c) ∧ s.cp.header ≠ none ∧ s.cp.footer ≠ none ∧ (s.cp.col0 = none ∨ s.cp.col1 = none)

/-- A parse that stands before the range of the column `d` describes: column 0 first (rule R202). -/
def AtColumn (s : State) (d : DescriptorFields) : Prop :=
  (∃ c, s.phase = .parsing c) ∧ s.cp.header ≠ none ∧ s.cp.footer ≠ none ∧
  ∃ d0 d1, s.cp.col0 = some d0 ∧ s.cp.col1 = some d1 ∧
    ((s.cp.slice0 = none ∧ d = d0) ∨ (s.cp.slice0 ≠ none ∧ s.cp.slice1 = none ∧ d = d1))

/-- Every reader's cursor is inside its buffer (rules R21, R22, R24). -/
def ReadersInBounds (s : State) : Prop :=
  (∀ rd ∈ s.readers, rd.pc ≤ 8 * rd.buffer.length) ∧
  (∀ rd, s.id.rd = some rd → rd.pc ≤ 8 * rd.buffer.length) ∧
  (∀ rd, s.fd.rd = some rd → rd.pc ≤ 8 * rd.buffer.length)

/-- The file buffer is in its canonical form. -/
def FileCanonical (s : State) : Prop := s.file.wf = true

/-- `prev_value` is the value emitted last, and no more than `count` are out (rules R27, R30, R144). -/
def FloatDecoderSound (fd : FloatDecoder) : Prop :=
  fd.prevValue = fd.out.getLast? ∧ fd.out.length ≤ fd.count.toNat

/-- The difference of the last two values of a sequence, if it has two. -/
def lastDelta : List Word → Option Word
  | [] => none
  | [_] => none
  | [a, b] => some (b - a)
  | _ :: b :: c :: vs => lastDelta (b :: c :: vs)

/-- `prev_value` is the value emitted last, `prev_delta` the last delta, and no more than `count` values are out (rules R30,
R31, R176). -/
def IntDecoderSound (id : IntDecoder) : Prop :=
  id.prevValue = id.out.getLast? ∧ id.prevDelta = lastDelta id.out ∧ id.out.length ≤ id.count.toNat

/-- Both decoders' registers are what their output says. -/
def DecodersSound (s : State) : Prop := FloatDecoderSound s.fd ∧ IntDecoderSound s.id

/-- The reuse window has a payload of 1 to 64 bits, and so has the window the parameter gives (rules R6, R28). With
`window_valid = 1` there is a window, of 63 bits at most unless the policy is `MB0_IS_64` (rule R28); with `window_valid = 0` only
the parameter can have given one (rules R28, R40). -/
def WindowLegal (s : State) : Prop :=
  s.params.wf = true ∧
  (∀ w, s.fd.window = some w → w.leading + w.trailing ≤ 63) ∧
  (s.windowValid = true →
    ∃ w, s.fd.window = some w ∧ (s.params.reservedPolicy ≠ .mb0Is64 → 64 - w.leading - w.trailing ≤ 63)) ∧
  (s.windowValid = false → ∀ w, s.fd.window = some w → s.params.windowReset = some w)

/-- Whether the running operation uses the parser's registers: from its parse on to the end, unless a check has failed. -/
def usesContainer (s : State) : Bool :=
  match s.phase with
  | .idle => false
  | .parsing _ => true
  | .decodingInts c => c == .readFile
  | .decodingFloats c => c == .readFile
  | .pairing => true
  | .returning =>
    match s.orch.result with
    | some (.rows _) => true
    | some (.formatError _) => false
    | none => false

/-- While an operation uses them, the parser's registers hold what the checks passed: the magic, two columns, a footer after
the header (rules R32, R33, R196, R197), and slices that are the data of columns that lie in the file (rules R34, R63). -/
def ContainerLegal (s : State) : Prop :=
  usesContainer s = true →
    s.cp.fileLen = some s.file.len ∧
    (∀ h, s.cp.header = some h → h.magic = Config.magic) ∧
    (∀ f, s.cp.footer = some f →
      f.columnCount = Config.columnCount ∧ s.cp.footerStart = some (footerStart s.file.len f.footerSize) ∧
      32 ≤ footerStart s.file.len f.footerSize) ∧
    (∀ b, s.cp.slice0 = some b →
      s.cp.col1 ≠ none ∧ ∃ d, s.cp.col0 = some d ∧ decodeColumn s.file d.offset d.size = .ok b) ∧
    (∀ b, s.cp.slice1 = some b →
      s.cp.slice0 ≠ none ∧ ∃ d, s.cp.col1 = some d ∧ decodeColumn s.file d.offset d.size = .ok b)

/-- The registers a phase does not use hold nothing:
nothing of an ended operation or decode is left (rules R26, R39, R41, R270, R278). -/
def HeldOnlyInUse (s : State) : Prop :=
  match s.phase with
  | .idle => s.id = {} ∧ s.fd = {} ∧ s.cp = {} ∧ s.orch = {} ∧ s.ptr = 0
  | .parsing _ => s.id = {} ∧ s.fd = {} ∧ s.orch = {}
  | .decodingInts .host => s.fd = {} ∧ s.cp = {} ∧ s.orch = {} ∧ s.ptr = 0
  | .decodingInts .readFile => s.orch = {}
  | .decodingFloats .host => s.id = {} ∧ s.cp = {} ∧ s.orch = {} ∧ s.ptr = 0
  | .decodingFloats .readFile => s.id = {} ∧ s.orch = { ts := s.orch.ts }
  | .pairing => s.id = {} ∧ s.fd = {} ∧ s.orch = { ts := s.orch.ts, val := s.orch.val }
  | .returning => s.id = {} ∧ s.fd = {}

end Sys2Proof.Safety
end

