-- ==== Sys2Proof/Certificates/Slice0/Obligations.lean ====
section
/-! DEFINITION. The statements, from the numbered rules of spec/. Each is listed in OBLIGATIONS.json. -/

open Sys2Proof Sys2Proof.Machine Sys2Proof.Safety

/-! ### Encoding -/

/-- Rules R81 to R88: a symbol's bits, wherever they stand in the stream and whatever follows, decode to that symbol with every
operand at every value its encoding admits, and exactly those bits are consumed. -/
def Obligations.SymbolDecodesFromItsEncoding : Prop :=
  ∀ (p : Params) (slot : Slot) (i : Instr) (rd : Reader) (rest : List Bool),
    i.fits p.reservedPolicy slot = true → rd.failed = false →
    rd.unread = encodeSymbol p.reservedPolicy slot i ++ rest →
    decodeSymbol p slot rd = .symbol i (rd.advance (encodeSymbol p.reservedPolicy slot i).length)

/-- Rules R81 to R88, the other direction: what the decoder reads is the encoding of what it answers, so each bit string has
one meaning at its slot. -/
def Obligations.DecodedSymbolHasItsEncoding : Prop :=
  ∀ (p : Params) (slot : Slot) (rd rd' : Reader) (i : Instr),
    decodeSymbol p slot rd = .symbol i rd' →
    i.fits p.reservedPolicy slot = true ∧
    rd.unread = encodeSymbol p.reservedPolicy slot i ++ rd'.unread ∧
    rd' = rd.advance (encodeSymbol p.reservedPolicy slot i).length

/-- Rule R91: the int stream has no reserved encoding, up to truncation; 68 bits always hold a symbol. -/
def Obligations.EveryBitStringIsAnIntStream : Prop :=
  ∀ (p : Params) (slot : Slot) (rd : Reader),
    (slot = .intFirst ∨ slot = .intSecond ∨ slot = .intLater) → rd.failed = false →
    (∃ i rd', decodeSymbol p slot rd = .symbol i rd') ∨
    (∃ rd', decodeSymbol p slot rd = .exhausted rd' ∧ rd.unread.length < 68)

/-- Rules R92 to R95. A new-window block with `M = 0` or `L + M > 64` is found out after `L` and `M` are read and before the
payload is, with 14 bits consumed; a reuse-window block while the window registers hold no value, which is so while
`window_valid = 0` under `F64_WINDOW_RESET = none`, after its two bits. Each is refused, or under `SoftStop` ends the decode
with the values emitted so far. Under `MB0_IS_64` the form `L = 0, M = 0` is legal and excepted. -/
def Obligations.ReservedFloatSymbols : Prop :=
  (∀ (s : State) (rd : Reader) (l m : BitVec 6) (rest : List Bool),
    FloatAt s rd → s.fd.out ≠ [] →
    rd.unread = [true, true] ++ msbBits 6 l.toNat ++ msbBits 6 m.toNat ++ rest →
    (m = 0 ∨ 64 < l.toNat + m.toNat) →
    ¬(s.params.reservedPolicy = .mb0Is64 ∧ l = 0 ∧ m = 0) →
    decodeSymbol s.params s.fd.slot rd = .reserved .badWindow (rd.advance 14) ∧
    (s.params.reservedPolicy ≠ .softStop → step s = .refused (.reservedSymbol .badWindow)) ∧
    (s.params.reservedPolicy = .softStop → step s = .next s.finishFloats)) ∧
  (∀ (s : State) (rd : Reader) (rest : List Bool),
    FloatAt s rd → s.fd.out ≠ [] →
    (s.windowUsable = false ∨ (WindowLegal s ∧ s.windowValid = false ∧ s.params.windowReset = none)) →
    rd.unread = [true, false] ++ rest →
    decodeSymbol s.params s.fd.slot rd = .reserved .reuseBeforeWindow (rd.advance 2) ∧
    (s.params.reservedPolicy ≠ .softStop → step s = .refused (.reservedSymbol .reuseBeforeWindow)) ∧
    (s.params.reservedPolicy = .softStop → step s = .next s.finishFloats))

/-- Rules R61, R96 to R99: each record is read back from its bytes with every field at every value. The header's reserved
bytes and a column's sub-header may hold anything; a footer may start at any address after the header, and a descriptor, with a
name of any length, and a column may stand at any address. -/
def Obligations.RecordsDecodeFromTheirEncoding : Prop :=
  (∀ (h : HeaderFields) (reserved rest : List Byte),
    h.identifier.length = 4 → reserved.length = 8 → 4 ≤ rest.length →
    decodeHeader (FileBuf.ofBytes ((encodeHeader h).take 24 ++ reserved ++ rest)) = .ok h) ∧
  (∀ (f : FooterFields) (before body : List Byte),
    32 ≤ before.length → f.footerSize.toNat = 8 + body.length →
    decodeTrailerFooter (FileBuf.ofBytes (before ++ encodeFooterHead f ++ body ++ encodeTrailer f)) = .ok f) ∧
  (∀ (d : DescriptorFields) (before rest : List Byte),
    d.wellFormed = true →
    decodeDescriptor (FileBuf.ofBytes (before ++ encodeDescriptor d ++ rest)) before.length = .ok d) ∧
  (∀ (before subHeader data rest : List Byte) (offset size : Word),
    subHeader.length = 8 → offset.toNat = before.length → size.toNat = 8 + data.length →
    decodeColumn (FileBuf.ofBytes (before ++ subHeader ++ data ++ rest)) offset size = .ok data)

/-- Words written out from the encodings of rules R83, R85 and R96 decode to the instructions they stand for. The slot a table
word is read at is the model's choice (log entry 14). -/
def Obligations.WrittenWordsDecode : Prop :=
  decodeTableWord 16 0b1110011111111111 = some (.i64Dod12 0x7FF) ∧
  decodeTableWord 16 0b1100110010000000 = some (.i64Dod9 0xC8) ∧
  decodeTableWord 16 0b1000001010000000 = some (.i64Dod7 0x05) ∧
  decodeTableWord 64 0x3FF0000000000000 = some (.f64First 0x3FF0000000000000) ∧
  decodeTableWord 8 0 = some .f64Repeat ∧
  decodeTableWord 32 0x50415251 = some (.header ⟨0x50415251, 0, 0, 0, [0, 0, 0, 0]⟩)

/-! ### The reader -/

/-- Rule R114: a read that succeeds takes the next `n` bits, the first as the most significant, and moves the cursor by `n`. -/
def Obligations.ReadBitsTakesTheNextBits : Prop :=
  ∀ (policy : ReadAfterFail) (rd : Reader) (n : Nat),
    rd.failed = false → 1 ≤ n → n ≤ 64 → n ≤ rd.avail →
    ∃ (v : Word) (rd' : Reader), readBits policy rd n = .value v rd' ∧
      v.toNat = ((List.range n).map (fun j => (streamBit rd.buffer (rd.pc + j)).toNat * 2 ^ (n - 1 - j))).sum ∧
      v.toNat < 2 ^ n ∧
      rd'.byteCursor = (rd.pc + n) / 8 ∧ rd'.bitCursor.val = (rd.pc + n) % 8 ∧ rd'.pc = rd.pc + n ∧
      rd'.failed = false ∧ rd'.buffer = rd.buffer

/-- Rules R113, R115, R117: every READ_BITS that yields no value. More bits than are left: it fails softly, consumes nothing and
marks the reader. A width outside 1 to 64: no meaning. A reader that has failed: by `READ_AFTER_FAIL`. -/
def Obligations.ReadBitsWithoutAValue : Prop :=
  ∀ (policy : ReadAfterFail) (rd : Reader) (n : Nat),
    ((n = 0 ∨ 64 < n) → readBits policy rd n = .refused .width) ∧
    (rd.failed = false → 1 ≤ n → n ≤ 64 → rd.avail < n → readBits policy rd n = .short { rd with failed := true }) ∧
    (1 ≤ n → n ≤ 64 → rd.failed = true → policy = .stickyFail → readBits policy rd n = .short rd) ∧
    (1 ≤ n → n ≤ 64 → rd.failed = true → policy = .refuse → readBits policy rd n = .refused .failedReader)

/-- Rule R121, both sides of the concatenation law. -/
def Obligations.ReadBitsConcatenates : Prop :=
  ∀ (policy : ReadAfterFail) (rd : Reader) (a b : Nat),
    rd.failed = false → 1 ≤ a → 1 ≤ b → a + b ≤ 64 →
    (a + b ≤ rd.avail →
      ∃ x y rd1 rd2, readBits policy rd a = .value x rd1 ∧ readBits policy rd1 b = .value y rd2 ∧
        ∃ z, readBits policy rd (a + b) = .value z rd2 ∧ z.toNat = x.toNat * 2 ^ b + y.toNat) ∧
    (a ≤ rd.avail → rd.avail < a + b →
      readBits policy rd (a + b) = .short { rd with failed := true } ∧
      ∃ x rd1, readBits policy rd a = .value x rd1 ∧ rd1.pc = rd.pc + a ∧
        readBits policy rd1 b = .short { rd1 with failed := true })

/-- Rule R111: an idle machine asked for a reader makes one at bit 0, and the block holds nothing (rule R270). The numbering of
readers, the list of requests and the field of the result are the model's (log entries 7, 6 and 23). -/
def Obligations.NewReaderStartsAtBitZero : Prop :=
  ∀ (s : State) (buffer : List Byte) (rest : List Request),
    s.phase = .idle → s.requests = .newReader buffer :: rest →
    step s = .next { s.discard with
      requests := rest
      readers := s.readers ++ [{ buffer := buffer, byteCursor := 0, bitCursor := 0, failed := false }]
      result := some (.reader s.readers.length) }

/-- Rules R30, R40, R131, R132, R161, R162, R191, R231: how the other operations start. Whatever an earlier operation could have
left is gone; a decode has its `count`, its window by `F64_WINDOW_RESET` and `fd.window_valid = 0` (log entry 22), and a reader
at bit 0 just when neither `data` nor `count` is empty; a parse has the presented file and its length and no other register.
That a start is a step of its own, and the list of requests, are the model's (log entries 5 and 6). -/
def Obligations.OperationsStartFromTheStartValues : Prop :=
  (∀ (s : State) (data : List Byte) (count : Word) (rest : List Request), s.phase = .idle →
    (s.requests = .decodeI64 data count :: rest →
      step s = .next { s with
        requests := rest, phase := .decodingInts .host, ptr := 0, fd := {}, cp := {}, orch := {}
        id :=
          { rd := if data = [] ∨ count = 0 then none
                  else some { buffer := data, byteCursor := 0, bitCursor := 0, failed := false }
            count := count, prevValue := none, prevDelta := none, out := [] } }) ∧
    (s.requests = .decodeF64 data count :: rest →
      step s = .next { s with
        requests := rest, phase := .decodingFloats .host, ptr := 0, id := {}, cp := {}, orch := {}
        fd :=
          { rd := if data = [] ∨ count = 0 then none
                  else some { buffer := data, byteCursor := 0, bitCursor := 0, failed := false }
            count := count, prevValue := none, window := s.params.windowReset, windowValid := false, out := [] } })) ∧
  (∀ (s : State) (file : List Byte) (rest : List Request), s.phase = .idle →
    (∀ bound, s.params.fileLenMax = some bound → file.length ≤ bound) →
    (s.requests = .parseContainer file :: rest →
      step s = .next { s with
        requests := rest, phase := .parsing .host, ptr := 0, id := {}, fd := {}, orch := {}
        file := FileBuf.ofBytes file, cp := { fileLen := some file.length } }) ∧
    (s.requests = .readFile file :: rest →
      step s = .next { s with
        requests := rest, phase := .parsing .readFile, ptr := 0, id := {}, fd := {}, orch := {}
        file := FileBuf.ofBytes file, cp := { fileLen := some file.length } })) ∧
  (∀ (file : List Byte) (a : Nat), (FileBuf.ofBytes file).len = file.length ∧ (FileBuf.ofBytes file).byte a = file.getD a 0)

/-- Rules R112 to R117 as the host sees them: what READ_BITS on one of its readers delivers. The value that comes with `ok =
false` is the free value of log entry 2; the numbering of readers, the list of requests and the field of the result are the
model's (log entries 7, 6 and 23). -/
def Obligations.HostReadBitsDelivers : Prop :=
  ∀ (s : State) (k : Nat) (n : Int) (rd : Reader) (rest : List Request),
    s.phase = .idle → s.requests = .readBits k n :: rest → s.readers[k]? = some rd →
    ((n < 1 ∨ 64 < n) → step s = .refused .readWidth) ∧
    (1 ≤ n → n ≤ 64 → rd.failed = true → s.params.readAfterFail = .refuse → step s = .refused .readAfterFail) ∧
    (1 ≤ n → n ≤ 64 → rd.failed = true → s.params.readAfterFail = .stickyFail →
      step s = .next { s.discard with
        requests := rest, draws := s.draws + 1, result := some (.bits (Config.failedReadValue s.draws) false) }) ∧
    (1 ≤ n → n ≤ 64 → rd.failed = false → (rd.avail : Int) < n →
      step s = .next { s.discard with
        requests := rest, draws := s.draws + 1, readers := s.readers.set k { rd with failed := true }
        result := some (.bits (Config.failedReadValue s.draws) false) }) ∧
    (1 ≤ n → n ≤ 64 → rd.failed = false → n ≤ (rd.avail : Int) →
      ∃ v, v.toNat = ((List.range n.toNat).map
          (fun j => (streamBit rd.buffer (rd.pc + j)).toNat * 2 ^ (n.toNat - 1 - j))).sum ∧
        step s = .next { s.discard with
          requests := rest, readers := s.readers.set k (rd.advance n.toNat), result := some (.bits v true) })

/-! ### Operands -/

/-- Rule R172: sign extension from any width, as a signed number. -/
def Obligations.SignExtension : Prop :=
  ∀ (w : Nat) (x : BitVec w), 1 ≤ w → w ≤ 64 →
    (sext x).toInt = if x.toNat < 2 ^ (w - 1) then (x.toNat : Int) else (x.toNat : Int) - 2 ^ w

/-- Rule R173: the additions are modulo `2^64`, the same for unsigned and signed readings, and the increment of the greatest
`i64` is the least. -/
def Obligations.AdditionsWrap : Prop :=
  (∀ a b : Word, (addWrap a b).toNat = (a.toNat + b.toNat) % 2 ^ 64 ∧
    (addWrap a b).toInt = (a.toInt + b.toInt).bmod (2 ^ 64)) ∧
  addWrap 0x7FFFFFFFFFFFFFFF 1 = 0x8000000000000000

/-- Rule R138: a new-window payload leaves the top `L` and the bottom `T` bits of the pattern alone, and no bit is shifted
out. -/
def Obligations.NewWindowPayloadStaysInItsWindow : Prop :=
  ∀ (policy : ReservedPolicy) (l m : BitVec 6) (n : Nat) (w : Window) (prev x : Word),
    newWindow policy l m = some (n, w) → x.toNat < 2 ^ n →
    w.leading = l.toNat ∧ w.leading + n + w.trailing = 64 ∧ w.trailing ≤ 63 ∧
    (x <<< w.trailing).toNat = x.toNat * 2 ^ w.trailing ∧
    ∀ i, (i < w.trailing ∨ 64 - w.leading ≤ i) → (xorPayload prev x w.trailing).getLsbD i = prev.getLsbD i

/-! ### The float symbols -/

/-- Rule R133: `F64.FIRST`, executed; fetched from its 64 bits and executed; and with fewer than 64 bits left. -/
def Obligations.F64FirstSymbol : Prop :=
  (∀ (v : Word) (s : State),
    exec (.f64First v) s = .next { s with fd := { s.fd with prevValue := some v, out := s.fd.out ++ [v] } }) ∧
  (∀ (s : State) (rd : Reader) (v : Word) (rest : List Bool),
    FloatAt s rd → s.fd.out = [] → rd.unread = msbBits 64 v.toNat ++ rest →
    step s = .next { s with fd := { s.fd with rd := some (rd.advance 64), prevValue := some v, out := [v] } }) ∧
  (∀ (s : State) (rd : Reader),
    FloatAt s rd → s.fd.out = [] → rd.avail < 64 →
    decodeSymbol s.params s.fd.slot rd = .exhausted { rd with failed := true } ∧ step s = .next s.finishFloats)

/-- Rule R135: `F64.REPEAT` emits `prev_value` and changes no other register; it needs no window. -/
def Obligations.F64RepeatSymbol : Prop :=
  (∀ (s : State) (v : Word), s.fd.prevValue = some v →
    exec .f64Repeat s = .next { s with fd := { s.fd with out := s.fd.out ++ [v] } }) ∧
  (∀ (s : State) (rd : Reader) (v : Word) (rest : List Bool),
    FloatAt s rd → s.fd.out ≠ [] → s.fd.prevValue = some v → rd.unread = false :: rest →
    step s = .next { s with fd := { s.fd with rd := some (rd.advance 1), out := s.fd.out ++ [v] } })

/-- Rule R136: `F64.XOR_REUSE` with a window, a new-window block's or the parameter's (rule R140): the payload's width and place
come from the window registers, which do not change. -/
def Obligations.F64XorReuseSymbol : Prop :=
  (∀ (s : State) (v x : Word) (w : Window), s.fd.prevValue = some v → s.fd.window = some w →
    exec (.f64XorReuse x) s = .next { s with
      fd := { s.fd with prevValue := some (v ^^^ (x <<< w.trailing)), out := s.fd.out ++ [v ^^^ (x <<< w.trailing)] } }) ∧
  (∀ (s : State) (rd : Reader) (v x : Word) (w : Window) (rest : List Bool),
    FloatAt s rd → s.fd.out ≠ [] → s.fd.prevValue = some v → s.fd.window = some w → w.leading + w.trailing ≤ 63 →
    x.toNat < 2 ^ (64 - w.leading - w.trailing) →
    rd.unread = [true, false] ++ msbBits (64 - w.leading - w.trailing) x.toNat ++ rest →
    step s = .next { s with
      fd := { s.fd with
        rd := some (rd.advance (2 + (64 - w.leading - w.trailing)))
        prevValue := some (v ^^^ (x <<< w.trailing))
        out := s.fd.out ++ [v ^^^ (x <<< w.trailing)] } })

/-- Rule R137: `F64.XOR_NEW` with a legal `L` and `M`: the payload is shifted by `T = 64 - L - M`, and `(L, T)` becomes the
reuse window, with `window_valid = 1`. -/
def Obligations.F64XorNewSymbol : Prop :=
  (∀ (s : State) (v x : Word) (l m : BitVec 6), s.fd.prevValue = some v → m ≠ 0 → l.toNat + m.toNat ≤ 64 →
    exec (.f64XorNew l m x) s = .next { s with
      fd := { s.fd with
        prevValue := some (v ^^^ (x <<< (64 - l.toNat - m.toNat)))
        window := some ⟨l.toNat, 64 - l.toNat - m.toNat⟩
        windowValid := true
        out := s.fd.out ++ [v ^^^ (x <<< (64 - l.toNat - m.toNat))] } }) ∧
  (∀ (s : State) (rd : Reader) (v x : Word) (l m : BitVec 6) (rest : List Bool),
    FloatAt s rd → s.fd.out ≠ [] → s.fd.prevValue = some v → m ≠ 0 → l.toNat + m.toNat ≤ 64 → x.toNat < 2 ^ m.toNat →
    rd.unread = [true, true] ++ msbBits 6 l.toNat ++ msbBits 6 m.toNat ++ msbBits m.toNat x.toNat ++ rest →
    step s = .next { s with
      fd := { s.fd with
        rd := some (rd.advance (14 + m.toNat))
        prevValue := some (v ^^^ (x <<< (64 - l.toNat - m.toNat)))
        window := some ⟨l.toNat, 64 - l.toNat - m.toNat⟩
        windowValid := true
        out := s.fd.out ++ [v ^^^ (x <<< (64 - l.toNat - m.toNat))] } })

/-- Rule R94 under `MB0_IS_64`: `L = 0, M = 0` is a 64-bit payload and opens the window `(0, 0)`. -/
def Obligations.F64XorNewSixtyFourBits : Prop :=
  (∀ (s : State) (v x : Word), s.fd.prevValue = some v → s.params.reservedPolicy = .mb0Is64 →
    exec (.f64XorNew 0 0 x) s = .next { s with
      fd := { s.fd with
        prevValue := some (v ^^^ x), window := some ⟨0, 0⟩, windowValid := true, out := s.fd.out ++ [v ^^^ x] } }) ∧
  (∀ (s : State) (rd : Reader) (v x : Word) (rest : List Bool),
    FloatAt s rd → s.fd.out ≠ [] → s.fd.prevValue = some v → s.params.reservedPolicy = .mb0Is64 →
    rd.unread = [true, true] ++ List.replicate 12 false ++ msbBits 64 x.toNat ++ rest →
    step s = .next { s with
      fd := { s.fd with
        rd := some (rd.advance 78), prevValue := some (v ^^^ x)
        window := some ⟨0, 0⟩, windowValid := true, out := s.fd.out ++ [v ^^^ x] } })

/-! ### The int symbols -/

/-- Rule R163: `I64.FIRST`, executed; fetched from its 64 bits and executed; and with fewer than 64 bits left. -/
def Obligations.I64FirstSymbol : Prop :=
  (∀ (v : Word) (s : State),
    exec (.i64First v) s = .next { s with id := { s.id with prevValue := some v, out := s.id.out ++ [v] } }) ∧
  (∀ (s : State) (rd : Reader) (v : Word) (rest : List Bool),
    IntAt s rd → s.id.out = [] → rd.unread = msbBits 64 v.toNat ++ rest →
    step s = .next { s with id := { s.id with rd := some (rd.advance 64), prevValue := some v, out := [v] } }) ∧
  (∀ (s : State) (rd : Reader),
    IntAt s rd → s.id.out = [] → rd.avail < 64 →
    decodeSymbol s.params s.id.slot rd = .exhausted { rd with failed := true } ∧ step s = .next s.finishInts)

/-- Rule R164: `I64.FIRST_DELTA`, executed; fetched and executed at value #2; and with fewer than 64 bits left. -/
def Obligations.I64FirstDeltaSymbol : Prop :=
  (∀ (s : State) (v d : Word), s.id.prevValue = some v →
    exec (.i64FirstDelta d) s = .next { s with
      id := { s.id with prevDelta := some d, prevValue := some (v + d), out := s.id.out ++ [v + d] } }) ∧
  (∀ (s : State) (rd : Reader) (v d : Word) (rest : List Bool),
    IntAt s rd → s.id.out = [v] → s.id.prevValue = some v → rd.unread = msbBits 64 d.toNat ++ rest →
    step s = .next { s with
      id := { s.id with
        rd := some (rd.advance 64), prevDelta := some d, prevValue := some (v + d), out := [v, v + d] } }) ∧
  (∀ (s : State) (rd : Reader) (v : Word),
    IntAt s rd → s.id.out = [v] → rd.avail < 64 →
    decodeSymbol s.params s.id.slot rd = .exhausted { rd with failed := true } ∧ step s = .next s.finishInts)

/-- Rules R166 to R171, as executed: each delta-of-delta symbol adds its sign-extended field to the delta and the new delta to
the value. A register that nothing has written reads as the free value of log entry 1. -/
def Obligations.DodSymbolsExecute : Prop :=
  ∀ (s : State),
    exec .i64Dod0 s = .next (afterDod s 0) ∧
    (∀ d, exec (.i64Dod7 d) s = .next (afterDod s (Transaction.sextValue 7 (d.setWidth 64)))) ∧
    (∀ d, exec (.i64Dod9 d) s = .next (afterDod s (Transaction.sextValue 9 (d.setWidth 64)))) ∧
    (∀ d, exec (.i64Dod12 d) s = .next (afterDod s (Transaction.sextValue 12 (d.setWidth 64)))) ∧
    (∀ d, exec (.i64Dod64 d) s = .next (afterDod s d))

/-- Rules R165 to R171, from the bits: at value #3 or later the prefix selects the tier, the field follows, and 1, 9, 12, 16
or 68 bits are consumed. A register that nothing has written reads as the free value of log entry 1. -/
def Obligations.DodSymbolsStep : Prop :=
  ∀ (s : State) (rd : Reader) (rest : List Bool), IntAt s rd → 2 ≤ s.id.out.length →
    (rd.unread = false :: rest → step s = .next (afterDod (withIntReader s (rd.advance 1)) 0)) ∧
    (∀ x : BitVec 7, rd.unread = [true, false] ++ msbBits 7 x.toNat ++ rest →
      step s = .next (afterDod (withIntReader s (rd.advance 9)) (Transaction.sextValue 7 (x.setWidth 64)))) ∧
    (∀ x : BitVec 9, rd.unread = [true, true, false] ++ msbBits 9 x.toNat ++ rest →
      step s = .next (afterDod (withIntReader s (rd.advance 12)) (Transaction.sextValue 9 (x.setWidth 64)))) ∧
    (∀ x : BitVec 12, rd.unread = [true, true, true, false] ++ msbBits 12 x.toNat ++ rest →
      step s = .next (afterDod (withIntReader s (rd.advance 16)) (Transaction.sextValue 12 (x.setWidth 64)))) ∧
    (∀ x : Word, rd.unread = [true, true, true, true] ++ msbBits 64 x.toNat ++ rest →
      step s = .next (afterDod (withIntReader s (rd.advance 68)) x))

/-! ### The container records -/

/-- Rules R193 to R199, R202: the four records as executed. HEADER: the magic is checked, the other fields are only kept.
TRAILER-FOOTER: where the footer starts, in integers, and how many columns it declares. DESCRIPTOR: descriptor 0, then
descriptor 1, each `32 + name_len` bytes long. COLUMN: slice 0, then slice 1. -/
def Obligations.RecordsExecute : Prop :=
  (∀ (h : HeaderFields) (s : State),
    (h.magic = 0x50415251 → exec (.header h) s = .next { s with cp := { s.cp with header := some h } }) ∧
    (h.magic ≠ 0x50415251 → exec (.header h) s = .next (s.raise .badMagic))) ∧
  (∀ (f : FooterFields) (s : State),
    ((s.file.len : Int) - 4 - f.footerSize.toNat < 32 →
      exec (.trailerFooter f) s = .next (s.raise .footerBeforeHeader)) ∧
    (32 ≤ (s.file.len : Int) - 4 - f.footerSize.toNat → f.columnCount ≠ 2 →
      exec (.trailerFooter f) s = .next (s.raise .badColumnCount)) ∧
    (32 ≤ (s.file.len : Int) - 4 - f.footerSize.toNat → f.columnCount = 2 →
      exec (.trailerFooter f) s = .next { s with
        cp := { s.cp with footer := some f, footerStart := some ((s.file.len : Int) - 4 - f.footerSize.toNat) }
        ptr := (s.file.len : Int) - 4 - f.footerSize.toNat + 8 })) ∧
  (∀ (d : DescriptorFields) (s : State),
    (s.cp.col0 = none → exec (.descriptor d) s = .next { s with
      cp := { s.cp with col0 := some d }, ptr := s.ptr + 32 + d.nameLen.toNat }) ∧
    (s.cp.col0 ≠ none → exec (.descriptor d) s = .next { s with
      cp := { s.cp with col1 := some d }, ptr := s.ptr + 32 + d.nameLen.toNat })) ∧
  (∀ (data : List Byte) (s : State),
    (s.cp.slice0 = none → exec (.column data) s = .next { s with cp := { s.cp with slice0 := some data } }) ∧
    (s.cp.slice0 ≠ none → exec (.column data) s = .next { s with cp := { s.cp with slice1 := some data } }))

/-! ### Frames -/

/-- What no float symbol changes: the parameters, the host's readers and requests, what the host reads, the file's every byte;
and but for a reserved form under `SoftStop`, which ends the decode, every register of the int decoder, of the parser and of the
orchestrator, and the decode's own reader and count. -/
def Obligations.FloatSymbolsFrame : Prop :=
  ∀ (i : Instr) (s t : State),
    ((∃ v, i = .f64First v) ∨ i = .f64Repeat ∨ (∃ x, i = .f64XorReuse x) ∨ (∃ l m x, i = .f64XorNew l m x)) →
    exec i s = .next t →
    t.readers = s.readers ∧ t.requests = s.requests ∧ t.params = s.params ∧ t.draws = s.draws ∧
    t.hostRegisters = s.hostRegisters ∧ (∀ a, t.file.byte a = s.file.byte a) ∧ t.file.len = s.file.len ∧
    ((t.id = s.id ∧ t.cp = s.cp ∧ t.orch = s.orch ∧ t.ptr = s.ptr ∧ t.phase = s.phase ∧ t.result = s.result ∧
        t.fd.rd = s.fd.rd ∧ t.fd.count = s.fd.count ∧ (i = .f64Repeat → t.fd.prevValue = s.fd.prevValue) ∧
        ((∀ l m x, i ≠ .f64XorNew l m x) → t.fd.window = s.fd.window ∧ t.fd.windowValid = s.fd.windowValid)) ∨
      (s.params.reservedPolicy = .softStop ∧ t = s.finishFloats ∧
        ((∃ x, i = .f64XorReuse x ∧ s.fd.window = none) ∨
         (∃ l m x, i = .f64XorNew l m x ∧ (m = 0 ∨ 64 < l.toNat + m.toNat)))))

/-- What no int symbol changes: everything but `prev_value`, `prev_delta` and `out` of the int decoder, and of those
`I64.FIRST` leaves `prev_delta`. -/
def Obligations.IntSymbolsFrame : Prop :=
  ∀ (i : Instr) (s t : State),
    ((∃ v, i = .i64First v) ∨ (∃ d, i = .i64FirstDelta d) ∨ i = .i64Dod0 ∨ (∃ d, i = .i64Dod7 d) ∨ (∃ d, i = .i64Dod9 d) ∨
      (∃ d, i = .i64Dod12 d) ∨ (∃ d, i = .i64Dod64 d)) →
    exec i s = .next t →
    t.fd = s.fd ∧ t.cp = s.cp ∧ t.orch = s.orch ∧ t.ptr = s.ptr ∧ t.readers = s.readers ∧ t.requests = s.requests ∧
    t.params = s.params ∧ t.draws = s.draws ∧ t.phase = s.phase ∧ t.result = s.result ∧ t.hostRegisters = s.hostRegisters ∧
    t.id.rd = s.id.rd ∧ t.id.count = s.id.count ∧
    ((∃ v, i = .i64First v) → t.id.prevDelta = s.id.prevDelta) ∧
    (∀ a, t.file.byte a = s.file.byte a) ∧ t.file.len = s.file.len

/-- What no container record changes, raising or not: the parameters, the host's readers and requests, the file's every byte. One
that raises no FormatError changes besides no register of the decoders and the orchestrator, and of the parser's registers only
its own. -/
def Obligations.RecordsFrame : Prop :=
  ∀ (i : Instr) (s t : State),
    ((∃ h, i = .header h) ∨ (∃ f, i = .trailerFooter f) ∨ (∃ d, i = .descriptor d) ∨ (∃ b, i = .column b)) →
    exec i s = .next t →
    t.readers = s.readers ∧ t.requests = s.requests ∧ t.params = s.params ∧
    (∀ a, t.file.byte a = s.file.byte a) ∧ t.file.len = s.file.len ∧
    ((∃ c, t = s.raise c ∧ ((∃ h, i = .header h) ∨ (∃ f, i = .trailerFooter f))) ∨
      (t.id = s.id ∧ t.fd = s.fd ∧ t.orch = s.orch ∧ t.phase = s.phase ∧ t.result = s.result ∧
        t.hostRegisters = s.hostRegisters ∧ t.draws = s.draws ∧
        (∀ h, i = .header h → t.cp = { s.cp with header := t.cp.header } ∧ t.ptr = s.ptr) ∧
        (∀ f, i = .trailerFooter f → t.cp = { s.cp with footer := t.cp.footer, footerStart := t.cp.footerStart }) ∧
        (∀ d, i = .descriptor d → t.cp = { s.cp with col0 := t.cp.col0, col1 := t.cp.col1 }) ∧
        (∀ b, i = .column b → t.cp = { s.cp with slice0 := t.cp.slice0, slice1 := t.cp.slice1 } ∧ t.ptr = s.ptr)))

/-! ### The step -/

/-- A step runs the decoded instruction: with the reader moved past the symbol's bits in a decode, and with nothing else done
in a parse. Which slot a decode stands at is told by how many values are out (rules R81, R87). -/
def Obligations.StepRunsTheDecodedInstruction : Prop :=
  (∀ (s : State) (rd rd' : Reader) (i : Instr),
    IntAt s rd → decodeSymbol s.params s.id.slot rd = .symbol i rd' → step s = exec i (withIntReader s rd')) ∧
  (∀ (s : State) (rd rd' : Reader) (i : Instr),
    FloatAt s rd → decodeSymbol s.params s.fd.slot rd = .symbol i rd' → step s = exec i (withFloatReader s rd')) ∧
  (∀ (s : State) (h : HeaderFields), AtHeader s → decodeHeader s.file = .ok h → step s = exec (.header h) s) ∧
  (∀ (s : State) (f : FooterFields), AtFooter s → decodeTrailerFooter s.file = .ok f → step s = exec (.trailerFooter f) s) ∧
  (∀ (s : State) (d : DescriptorFields),
    AtDescriptor s → decodeDescriptor s.file s.ptr = .ok d → step s = exec (.descriptor d) s) ∧
  (∀ (s : State) (d : DescriptorFields) (data : List Byte),
    AtColumn s d → decodeColumn s.file d.offset d.size = .ok data → step s = exec (.column data) s) ∧
  (∀ id : IntDecoder, id.slot = if id.out = [] then .intFirst else if id.out.length = 1 then .intSecond else .intLater) ∧
  (∀ fd : FloatDecoder, fd.slot = if fd.out = [] then .floatFirst else .floatLater fd.window)

/-- Rules R141, R142, R174: a symbol that is not wholly there ends the decode: its reads fail softly, and nothing is emitted for
it. -/
def Obligations.IncompleteSymbolStopsTheDecode : Prop :=
  (∀ (s : State) (rd : Reader) (i : Instr) (missing : List Bool),
    IntAt s rd → i.fits s.params.reservedPolicy s.id.slot = true → missing ≠ [] →
    encodeSymbol s.params.reservedPolicy s.id.slot i = rd.unread ++ missing →
    step s = .next s.finishInts ∧
    ∃ rd', decodeSymbol s.params s.id.slot rd = .exhausted rd' ∧ rd'.failed = true ∧ rd'.buffer = rd.buffer) ∧
  (∀ (s : State) (rd : Reader) (i : Instr) (missing : List Bool),
    FloatAt s rd → i.fits s.params.reservedPolicy s.fd.slot = true → missing ≠ [] →
    encodeSymbol s.params.reservedPolicy s.fd.slot i = rd.unread ++ missing →
    step s = .next s.finishFloats ∧
    ∃ rd', decodeSymbol s.params s.fd.slot rd = .exhausted rd' ∧ rd'.failed = true ∧ rd'.buffer = rd.buffer)

/-- Rules R131, R144, R161, R176: with no reader, or with `count` values out, a decode reads nothing and ends. Rules R26, R231
to R233, R270, R278, R282: how it ends. For the host, its sequence is delivered and the block holds nothing any more. Within
READ_FILE a column is kept and its decoder's reader and registers are discarded; the float decode follows the int decode; then
the columns are paired positionally up to the shorter, and the rows are delivered, and with them, not before, the registers the
host may read (rules R33, R66). The ends as steps of their own are the model's (log entry 5), and so is the field the result is
delivered in (log entry 23). -/
def Obligations.HowADecodeEnds : Prop :=
  (∀ (s : State) (c : Caller), s.phase = .decodingInts c → (s.id.rd = none ∨ s.id.count.toNat ≤ s.id.out.length) →
    step s = .next s.finishInts) ∧
  (∀ (s : State) (c : Caller), s.phase = .decodingFloats c → (s.fd.rd = none ∨ s.fd.count.toNat ≤ s.fd.out.length) →
    step s = .next s.finishFloats) ∧
  (∀ s : State,
    (s.phase = .decodingInts .host → s.finishInts = { s with
      phase := .idle, ptr := 0, id := {}, fd := {}, cp := {}, orch := {}, result := some (.ints s.id.out) }) ∧
    (s.phase = .decodingFloats .host → s.finishFloats = { s with
      phase := .idle, ptr := 0, id := {}, fd := {}, cp := {}, orch := {}, result := some (.floats s.fd.out) }) ∧
    (s.phase = .decodingInts .readFile → s.finishInts = { s with
      phase := .decodingFloats .readFile, id := {}, orch := { s.orch with ts := s.id.out } }) ∧
    (s.phase = .decodingFloats .readFile → s.finishFloats = { s with
      phase := .pairing, fd := {}, orch := { s.orch with val := s.fd.out } }) ∧
    (s.phase = .pairing →
      ∃ rows, step s = .next { s with
        phase := .returning, orch := { s.orch with rows := rows, result := some (.rows rows) } } ∧
      rows.length = min s.orch.ts.length s.orch.val.length ∧
      ∀ j, j < rows.length → ∃ a b, s.orch.ts[j]? = some a ∧ s.orch.val[j]? = some b ∧ rows[j]? = some (a, b)) ∧
    (∀ rows, s.phase = .returning → s.orch.result = some (.rows rows) → step s = .next { s with
      phase := .idle, ptr := 0, id := {}, fd := {}, cp := {}, orch := {}, result := some (.rows rows)
      hostRegisters := s.cp }))

/-! ### The exception -/

/-- Rules R234, R243, R246, R247: the whole state after a FormatError. The operation ends at once with its cause as the only
result, nothing is saved, and no register holds anything any more; the READ_FILE that called the parse has the cause for its
result, no rows, and delivers it, and nothing of it reaches the host before (rule R66). What the host then reads of the `cp`
registers is the free value of log entry 3; the field the result is delivered in is log entry 23, and READ_FILE's return as a
step of its own is log entry 5. -/
def Obligations.FormatErrorEntry : Prop :=
  ∀ (s : State) (c : Cause),
    (s.phase ≠ .parsing .readFile → s.raise c = { s with
      phase := .idle, ptr := 0, id := {}, fd := {}, cp := {}, orch := {}, result := some (.formatError c)
      hostRegisters := undefinedContainer s.draws, draws := s.draws + 1 }) ∧
    (s.phase = .parsing .readFile → s.raise c = { s with
      phase := .returning, ptr := 0, id := {}, fd := {}, cp := {}, orch := { result := some (.formatError c) } }) ∧
    (s.phase = .returning → s.orch.result = some (.formatError c) → step s = .next { s with
      phase := .idle, ptr := 0, id := {}, fd := {}, cp := {}, orch := {}, result := some (.formatError c)
      hostRegisters := undefinedContainer s.draws, draws := s.draws + 1 })

/-- Rules R96, R192 to R194: the first two checks, before anything of the trailer is read, and the fields that are kept. -/
def Obligations.HeaderChecks : Prop :=
  ∀ s : State, AtHeader s →
    (s.file.len < 36 → step s = .next (s.raise .fileTooSmall)) ∧
    (36 ≤ s.file.len → leNat (s.file.bytes 0 4) ≠ 0x50415251 → step s = .next (s.raise .badMagic)) ∧
    (36 ≤ s.file.len → leNat (s.file.bytes 0 4) = 0x50415251 →
      ∃ h, step s = .next { s with cp := { s.cp with header := some h } } ∧
        h.magic = 0x50415251 ∧ h.formatVersion.toNat = leNat (s.file.bytes 4 4) ∧
        h.recordCount.toNat = leNat (s.file.bytes 8 8) ∧ h.columnCount.toNat = leNat (s.file.bytes 16 4) ∧
        h.identifier = s.file.bytes 20 4)

/-- Rules R195 to R197, R242: the checks on the footer, in their order; its `column_count` is out of the file exactly when
`footer_size < 4`. -/
def Obligations.FooterChecks : Prop :=
  ∀ (s : State) (size : Nat), AtFooter s → 36 ≤ s.file.len → size = leNat (s.file.bytes (s.file.len - 4) 4) →
    (s.file.len < 36 + size → step s = .next (s.raise .footerBeforeHeader)) ∧
    (36 + size ≤ s.file.len → size < 4 → step s = .next (s.raise .outOfRange)) ∧
    (36 + size ≤ s.file.len → 4 ≤ size → leNat (s.file.bytes (s.file.len - 4 - size + 4) 4) ≠ 2 →
      step s = .next (s.raise .badColumnCount)) ∧
    (36 + size ≤ s.file.len → 4 ≤ size → leNat (s.file.bytes (s.file.len - 4 - size + 4) 4) = 2 →
      ∃ f, step s = .next { s with
          cp := { s.cp with footer := some f, footerStart := some ((s.file.len : Int) - 4 - size) }
          ptr := (s.file.len : Int) - 4 - size + 8 } ∧
        f.footerSize.toNat = size ∧ f.metadataVersion.toNat = leNat (s.file.bytes (s.file.len - 4 - size) 4) ∧
        f.columnCount = 2)

/-- Rules R62, R199, R200: a descriptor is read if and only if all of it, its name included, lies in the file. -/
def Obligations.DescriptorChecks : Prop :=
  ∀ (s : State) (p k : Nat), AtDescriptor s → s.ptr = p → k = leNat (s.file.bytes p 4) →
    (s.file.len < p + 32 + k → step s = .next (s.raise .outOfRange)) ∧
    (p + 32 + k ≤ s.file.len →
      ∃ d, step s = exec (.descriptor d) s ∧
        d.nameLen.toNat = k ∧ d.name = s.file.bytes (p + 4) k ∧ d.type.toNat = leNat (s.file.bytes (p + 4 + k) 4) ∧
        d.offset.toNat = leNat (s.file.bytes (p + 8 + k) 8) ∧ d.size.toNat = leNat (s.file.bytes (p + 16 + k) 8) ∧
        d.count.toNat = leNat (s.file.bytes (p + 24 + k) 8))

/-- Rules R63, R202: the range of a column, its sum taken without wrap, and the slice it gives. -/
def Obligations.ColumnChecks : Prop :=
  ∀ (s : State) (d : DescriptorFields), AtColumn s d →
    ((d.size.toNat < 8 ∨ s.file.len < d.offset.toNat + d.size.toNat) → step s = .next (s.raise .outOfRange)) ∧
    (8 ≤ d.size.toNat → d.offset.toNat + d.size.toNat ≤ s.file.len →
      step s = exec (.column (s.file.bytes (d.offset.toNat + 8) (d.size.toNat - 8))) s)

/-! ### The machine -/

/-- Rules R40, R270, R271: the start values the spec gives. The parameters are the defaults of rule R6 (log entry 8), and nothing
is the host's yet (log entries 6, 7 and 23). -/
def Obligations.ResetLeavesNoInvocation : Prop :=
  State.reset.phase = .idle ∧ State.reset.params = { } ∧
  State.reset.fd.out = [] ∧ State.reset.fd.prevValue = none ∧ State.reset.fd.window = none ∧
  State.reset.windowValid = false ∧ State.reset.windowUsable = false ∧
  State.reset.id.out = [] ∧ State.reset.id.prevValue = none ∧
  State.reset.id.prevDelta = none ∧ State.reset.cp = { } ∧ State.reset.orch.ts = [] ∧ State.reset.orch.val = [] ∧
  State.reset.orch.rows = [] ∧ State.reset.orch.result = none ∧ State.reset.fd.rd = none ∧ State.reset.id.rd = none ∧
  State.reset.readers = [] ∧ State.reset.requests = [] ∧ State.reset.result = none ∧ State.reset.hostRegisters = { }

/-- Rule R274: no step writes a parameter. -/
def Obligations.ParametersNeverChange : Prop :=
  ∀ s t : State, step s = .next t → t.params = s.params

/-- Rules R26, R38, R58, R66, R69, R254: while an operation runs, its inputs do not change: the file, the host's readers, and
its decode's count and data; within READ_FILE also what the parse has passed on to the decodes. The host's requests, which the
model holds in a list (log entry 6), wait. And until the step that ends the operation nothing is delivered to the host: its
result and its copy of the registers (log entry 23) stay as they were. -/
def Obligations.RunningOperationWritesNoInputAndShowsNothing : Prop :=
  ∀ s t : State, s.phase ≠ .idle → step s = .next t →
    (∀ a, t.file.byte a = s.file.byte a) ∧ t.file = s.file ∧ t.readers = s.readers ∧ t.requests = s.requests ∧
    (∀ c, s.phase = .decodingInts c → t.phase = s.phase →
      t.id.count = s.id.count ∧ t.id.rd.map (fun rd => rd.buffer) = s.id.rd.map (fun rd => rd.buffer)) ∧
    (∀ c, s.phase = .decodingFloats c → t.phase = s.phase →
      t.fd.count = s.fd.count ∧ t.fd.rd.map (fun rd => rd.buffer) = s.fd.rd.map (fun rd => rd.buffer)) ∧
    (s.phase = .decodingInts .readFile → t.fd = s.fd ∧ t.cp = s.cp) ∧
    (s.phase = .decodingFloats .readFile → t.orch.ts = s.orch.ts ∧ t.cp = s.cp) ∧
    (t.phase ≠ .idle → t.result = s.result ∧ t.hostRegisters = s.hostRegisters)

/-- Rules R24, R26: the cursor of a decode moves forward or stays, never past the end, and its buffer is never written, as long
as the decode runs; when the decode has ended its reader is gone. -/
def Obligations.CursorOnlyMovesForward : Prop :=
  ∀ s t : State, s.phase ≠ .idle → ReadersInBounds s → step s = .next t →
    (∀ rd c, s.id.rd = some rd → s.phase = .decodingInts c →
      (t.phase = s.phase ∧
        ∃ rd', t.id.rd = some rd' ∧ rd'.buffer = rd.buffer ∧ rd.pc ≤ rd'.pc ∧ rd'.pc ≤ 8 * rd'.buffer.length) ∨
      (t.phase ≠ s.phase ∧ t.id.rd = none)) ∧
    (∀ rd c, s.fd.rd = some rd → s.phase = .decodingFloats c →
      (t.phase = s.phase ∧
        ∃ rd', t.fd.rd = some rd' ∧ rd'.buffer = rd.buffer ∧ rd.pc ≤ rd'.pc ∧ rd'.pc ≤ 8 * rd'.buffer.length) ∨
      (t.phase ≠ s.phase ∧ t.fd.rd = none))

/-- Rules R248, R249, R252: while a parse or an int decode runs no step is refused, and no step of a decode delivers a FormatError
or makes one READ_FILE's result. -/
def Obligations.DecodesRaiseNothing : Prop :=
  (∀ (s : State) (c : Caller) (r : Refusal), s.phase = .parsing c → step s ≠ .refused r) ∧
  (∀ (s : State) (rd : Reader) (r : Refusal), IntAt s rd → step s ≠ .refused r) ∧
  (∀ (s t : State) (c : Caller) (e : Cause),
    (s.phase = .decodingInts c ∨ s.phase = .decodingFloats c) → step s = .next t →
    (t.phase = .idle → t.result ≠ some (.formatError e)) ∧
    (t.result = some (.formatError e) → s.result = some (.formatError e)) ∧
    (t.orch.result = some (.formatError e) → s.orch.result = some (.formatError e)))

/-! ### Invariants -/

/-- Rules R21, R22, R24: every step keeps every reader's cursor inside its buffer. -/
def Obligations.ReadersStayInBounds : Prop :=
  ∀ s t : State, ReadersInBounds s → step s = .next t → ReadersInBounds t

/-- Every step keeps the file buffer in its canonical form (the form is the model's, log entry 13). -/
def Obligations.FileStaysCanonical : Prop :=
  ∀ s t : State, FileCanonical s → step s = .next t → FileCanonical t

/-- Rules R27, R30, R31, R144, R176: every step keeps `prev_value` the value emitted last, `prev_delta` the last delta, and at
most `count` values out. -/
def Obligations.DecoderRegistersFollowTheOutput : Prop :=
  ∀ s t : State, DecodersSound s → step s = .next t → DecodersSound t

/-- Rules R6, R28, R36, R40: every step keeps the reuse window one with a payload of 1 to 64 bits, and `window_valid` the record
that a new-window block gave it. That `window_valid` stays 0 under a window of the parameter's alone is the model's reading (log
entry 22). -/
def Obligations.WindowStaysLegal : Prop :=
  ∀ s t : State, WindowLegal s → step s = .next t → WindowLegal t

/-- Rules R32 to R34, R63, R193, R196, R197, R202: every step keeps what the parser's checks established. -/
def Obligations.ContainerStaysLegal : Prop :=
  ∀ s t : State, ContainerLegal s → step s = .next t → ContainerLegal t

/-- Rules R26, R39, R40, R41, R270, R278: every step keeps the registers of each group empty outside the operations that use
them; above all, between two operations the block holds nothing. -/
def Obligations.RegistersAreHeldOnlyInUse : Prop :=
  ∀ s t : State, HeldOnlyInUse s → step s = .next t → HeldOnlyInUse t

/-- The machine after reset meets each of the invariants. -/
def Obligations.ResetMeetsTheInvariants : Prop :=
  ReadersInBounds State.reset ∧ FileCanonical State.reset ∧ DecodersSound State.reset ∧ WindowLegal State.reset ∧
  ContainerLegal State.reset ∧ HeldOnlyInUse State.reset

/-! ### Whole operations -/

/-- Rule R162: the steps of DECODE_I64 deliver what the whole algorithm computes, for any data and count. Steps within an
operation, the list of requests and the field of the result are the model's (log entries 5, 6 and 23). -/
def Obligations.DecodeI64RunsTheAlgorithm : Prop :=
  ∀ (s : State) (data : List Byte) (count : Word) (rest : List Request),
    s.phase = .idle → s.requests = .decodeI64 data count :: rest →
    ∃ k t, Reaches k s t ∧ t.phase = .idle ∧ t.requests = rest ∧
      t.result = some (.ints (Transaction.decodeI64 data count))

/-- Rule R132: the steps of DECODE_F64 deliver what the whole algorithm computes, or are refused as it is. Steps within an
operation, the list of requests and the field of the result are the model's (log entries 5, 6 and 23). -/
def Obligations.DecodeF64RunsTheAlgorithm : Prop :=
  ∀ (s : State) (data : List Byte) (count : Word) (rest : List Request),
    s.phase = .idle → s.requests = .decodeF64 data count :: rest →
    (∀ vs, Transaction.decodeF64 s.params data count = .ok vs →
      ∃ k t, Reaches k s t ∧ t.phase = .idle ∧ t.requests = rest ∧ t.result = some (.floats vs)) ∧
    (∀ r, Transaction.decodeF64 s.params data count = .error r → ∃ k, RefusedWithin k s r)

/-- Rule R191: the steps of PARSE_CONTAINER deliver what the whole algorithm computes: the registers, which the host may then
read (rule R33), or the first failing check's cause. Steps within an operation, the list of requests and the field of the result
are the model's (log entries 5, 6 and 23). -/
def Obligations.ParseContainerRunsTheAlgorithm : Prop :=
  ∀ (s : State) (file : List Byte) (rest : List Request),
    s.phase = .idle → s.requests = .parseContainer file :: rest →
    (∀ bound, s.params.fileLenMax = some bound → file.length ≤ bound) →
    ∃ k t, Reaches k s t ∧ t.phase = .idle ∧ t.requests = rest ∧
      (∀ cp, Transaction.parseContainer file = .ok cp → t.result = some (.parsed cp) ∧ t.hostRegisters = cp) ∧
      (∀ c, Transaction.parseContainer file = .error c → t.result = some (.formatError c))

/-- Rule R231: the steps of READ_FILE deliver what the whole algorithm computes, or are refused as it is; where the file parses,
the host may then read the registers (rule R33). Steps within an operation, the list of requests and the field of the result are
the model's (log entries 5, 6 and 23). -/
def Obligations.ReadFileRunsTheAlgorithm : Prop :=
  ∀ (s : State) (file : List Byte) (rest : List Request),
    s.phase = .idle → s.requests = .readFile file :: rest →
    (∀ bound, s.params.fileLenMax = some bound → file.length ≤ bound) →
    (∀ r, Transaction.readFile s.params file = .ok r →
      ∃ k t, Reaches k s t ∧ t.phase = .idle ∧ t.requests = rest ∧
        t.result = some (match r with | .rows rows => .rows rows | .formatError c => .formatError c) ∧
        (∀ cp, Transaction.parseContainer file = .ok cp → t.hostRegisters = cp)) ∧
    (∀ r, Transaction.readFile s.params file = .error r → ∃ k, RefusedWithin k s r)

/-- Rule R178: for every int sequence and any choice of tiers that hold its delta-of-deltas, followed by any bits, decoding
reconstructs the sequence. -/
def Obligations.IntRoundTrip : Prop :=
  ∀ (vs : List Word) (is : List Instr) (padding : List Bool),
    vs.length < 2 ^ 64 → Assembler.codesInts vs is = true →
    Transaction.decodeI64 (pack (Assembler.intBits is ++ padding)) (BitVec.ofNat 64 vs.length) = vs

/-- Rule R102: the shortest-tier coding is one of the codings of the int sequence, so every int sequence has one. -/
def Obligations.EveryIntSequenceHasACoding : Prop :=
  ∀ vs : List Word, Assembler.codesInts vs (Assembler.assembleInts vs) = true

/-- Rule R147: every float sequence the assembler can encode is reconstructed bit for bit, under any bits that follow. -/
def Obligations.FloatRoundTrip : Prop :=
  ∀ (vs : List Word) (bits padding : List Bool),
    vs.length < 2 ^ 64 → Assembler.floatBits vs = some bits →
    Transaction.decodeF64 {} (pack (bits ++ padding)) (BitVec.ofNat 64 vs.length) = .ok vs

/-- Rule R142 for both decoders: cutting the data short gives a prefix of the values, never an error. -/
def Obligations.TruncationGivesAPrefix : Prop :=
  (∀ (data : List Byte) (n : Nat) (count : Word),
    Transaction.decodeI64 (data.take n) count <+: Transaction.decodeI64 data count) ∧
  (∀ (p : Params) (data : List Byte) (n : Nat) (count : Word) (vs : List Word),
    Transaction.decodeF64 p data count = .ok vs →
    ∃ ws, Transaction.decodeF64 p (data.take n) count = .ok ws ∧ ws <+: vs)

/-- Rules R144, R176: how many values a decode can give. -/
def Obligations.DecodedLengthIsBounded : Prop :=
  (∀ (data : List Byte) (count : Word),
    (Transaction.decodeI64 data count).length ≤ count.toNat ∧
    (data.length < 8 → Transaction.decodeI64 data count = []) ∧
    (8 ≤ data.length → data.length < 16 → (Transaction.decodeI64 data count).length ≤ 1) ∧
    (16 ≤ data.length → (Transaction.decodeI64 data count).length ≤ 8 * data.length - 126)) ∧
  (∀ (p : Params) (data : List Byte) (count : Word) (vs : List Word), Transaction.decodeF64 p data count = .ok vs →
    vs.length ≤ count.toNat ∧ (data.length < 8 → vs = []) ∧ (8 ≤ data.length → vs.length ≤ 8 * data.length - 63))

/-- Rules R163, R164: `count = 1` takes the first 64 bits and ignores the rest; `count = 2` the first 128. -/
def Obligations.FirstValuesAreRaw : Prop :=
  ∀ (v d : Word) (rest : List Byte),
    Transaction.decodeI64 (pack (msbBits 64 v.toNat) ++ rest) 1 = [v] ∧
    Transaction.decodeI64 (pack (msbBits 64 v.toNat ++ msbBits 64 d.toNat) ++ rest) 2 = [v, v + d]

/-- Rules R193, R209, R255: a wrong magic is what is reported, whatever else is wrong with a file of 36 bytes or more; and no
file below 104 bytes parses. -/
def Obligations.FilesThatDoNotParse : Prop :=
  (∀ (magic rest : List Byte),
    magic.length = 4 → 32 ≤ rest.length → magic ≠ [0x51, 0x52, 0x41, 0x50] →
    Transaction.parseContainer (magic ++ rest) = .error .badMagic) ∧
  (∀ (file : List Byte), file.length < 104 → ∃ c, Transaction.parseContainer file = .error c)

/-- Rules R34, R202: the slices of a file that parses are its bytes, and lie inside it. -/
def Obligations.SlicesAreViewsOfTheFile : Prop :=
  ∀ (file : List Byte) (cp : Container), Transaction.parseContainer file = .ok cp →
    ∃ d0 d1, cp.col0 = some d0 ∧ cp.col1 = some d1 ∧
      8 ≤ d0.size.toNat ∧ d0.offset.toNat + d0.size.toNat ≤ file.length ∧
      8 ≤ d1.size.toNat ∧ d1.offset.toNat + d1.size.toNat ≤ file.length ∧
      cp.slice0 = some ((file.drop (d0.offset.toNat + 8)).take (d0.size.toNat - 8)) ∧
      cp.slice1 = some ((file.drop (d1.offset.toNat + 8)).take (d1.size.toNat - 8))
end

