-- ==== Sys2Proof/Laws/BitReader.lean ====
section
/-! SUPPORT. The reader: what one bit further means, what a run of bits is worth, and everything READ_BITS can answer, said in
terms of the unread bits. -/

namespace Sys2Proof.Machine

/-- The number a bit string stands for, its first bit the most significant (rule R53). -/
def bitsNat (bs : List Bool) : Nat := bs.foldl (fun v b => 2 * v + b.toNat) 0

theorem foldl_bits (bs : List Bool) (v : Nat) :
    bs.foldl (fun v b => 2 * v + b.toNat) v = v * 2 ^ bs.length + bitsNat bs := by
  induction bs generalizing v with
  | nil => simp [bitsNat]
  | cons b bs ih =>
    rw [bitsNat, List.foldl_cons, ih, List.foldl_cons, ih, List.length_cons, Nat.pow_succ]
    ring

@[simp] theorem bitsNat_nil : bitsNat [] = 0 := rfl

theorem bitsNat_cons (b : Bool) (bs : List Bool) : bitsNat (b :: bs) = b.toNat * 2 ^ bs.length + bitsNat bs := by
  rw [bitsNat, List.foldl_cons, foldl_bits]
  simp

theorem bitsNat_append (as bs : List Bool) : bitsNat (as ++ bs) = bitsNat as * 2 ^ bs.length + bitsNat bs := by
  rw [bitsNat, List.foldl_append, foldl_bits]
  rfl

theorem bitsNat_lt (bs : List Bool) : bitsNat bs < 2 ^ bs.length := by
  induction bs with
  | nil => simp
  | cons b bs ih =>
    rw [bitsNat_cons, List.length_cons, Nat.pow_succ]
    cases b <;> simp <;> omega

namespace Reader

variable (rd : Reader)

/-- Two readers with the same buffer, position and flag are one reader. -/
theorem ext_pc {a b : Reader} (hb : a.buffer = b.buffer) (hp : a.pc = b.pc) (hf : a.failed = b.failed) : a = b := by
  obtain ⟨ab, ac, ai, af⟩ := a
  obtain ⟨bb, bc, bi, bf⟩ := b
  simp only [pc] at hb hp hf
  have h1 : ac = bc := by omega
  have h2 : ai = bi := Fin.ext (by omega)
  subst hb h1 h2 hf
  rfl

@[simp] theorem next_buffer : rd.next.buffer = rd.buffer := by unfold next; split <;> rfl
@[simp] theorem next_failed : rd.next.failed = rd.failed := by unfold next; split <;> rfl

@[simp] theorem next_pc : rd.next.pc = rd.pc + 1 := by
  unfold next pc
  split
  · rename_i h
    simp [h]
    omega
  · rename_i h
    have : rd.bitCursor.val < 7 := by
      have := rd.bitCursor.isLt
      have : rd.bitCursor.val ≠ 7 := fun e => h (Fin.ext e)
      omega
    have e : (rd.bitCursor + 1).val = rd.bitCursor.val + 1 := by
      rw [Fin.val_add]
      simp
      omega
    simp [e]
    omega

@[simp] theorem advance_buffer (n : Nat) : (rd.advance n).buffer = rd.buffer := rfl
@[simp] theorem advance_failed (n : Nat) : (rd.advance n).failed = rd.failed := rfl

@[simp] theorem advance_pc (n : Nat) : (rd.advance n).pc = rd.pc + n := by
  show 8 * ((rd.pc + n) / 8) + (rd.pc + n) % 8 = rd.pc + n
  omega

@[simp] theorem advance_zero : rd.advance 0 = rd := ext_pc rfl (by simp) rfl

@[simp] theorem advance_advance (m n : Nat) : (rd.advance m).advance n = rd.advance (m + n) :=
  ext_pc rfl (by simp [Nat.add_assoc]) rfl

theorem next_eq_advance : rd.next = rd.advance 1 := ext_pc (by simp) (by simp) (by simp)

theorem bit_eq : rd.bit = streamBit rd.buffer rd.pc := by
  have h := rd.bitCursor.isLt
  unfold bit streamBit pc
  rw [show (8 * rd.byteCursor + rd.bitCursor.val) / 8 = rd.byteCursor by omega,
    show (8 * rd.byteCursor + rd.bitCursor.val) % 8 = rd.bitCursor.val by omega]

@[simp] theorem new_pc (buffer : List Byte) : (new buffer).pc = 0 := rfl
@[simp] theorem new_buffer (buffer : List Byte) : (new buffer).buffer = buffer := rfl
@[simp] theorem new_failed (buffer : List Byte) : (new buffer).failed = false := rfl

@[simp] theorem unread_length : rd.unread.length = rd.avail := by simp [unread]

theorem avail_advance (n : Nat) : (rd.advance n).avail = rd.avail - n := by
  simp only [avail, advance_pc, advance_buffer]
  omega

/-- The bits still unread after `n` more are taken. -/
theorem unread_advance (n : Nat) : (rd.advance n).unread = rd.unread.drop n := by
  apply List.ext_getElem
  · simp [avail_advance]
  · intro i h1 h2
    simp [unread, Nat.add_assoc]

end Reader

/-- The next `n` bits of a reader, in stream order. -/
def nextBits (n : Nat) (rd : Reader) : List Bool := (List.range n).map (fun j => streamBit rd.buffer (rd.pc + j))

@[simp] theorem nextBits_length (n : Nat) (rd : Reader) : (nextBits n rd).length = n := by simp [nextBits]

theorem nextBits_succ (n : Nat) (rd : Reader) : nextBits (n + 1) rd = rd.bit :: nextBits n rd.next := by
  simp [nextBits, List.range_succ_eq_map, Reader.bit_eq, Function.comp_def, Nat.add_assoc, Nat.add_comm 1]

theorem nextBits_eq_take {n : Nat} {rd : Reader} (h : n ≤ rd.avail) : nextBits n rd = rd.unread.take n := by
  simp [nextBits, Reader.unread, ← List.map_take, List.take_range, Nat.min_eq_left h]

/-- The loop of rule R112 takes the next `n` bits, the first as the most significant. -/
theorem readLoop_eq (n : Nat) (rd : Reader) (v : Word) :
    readLoop n rd v = (BitVec.ofNat 64 (v.toNat * 2 ^ n + bitsNat (nextBits n rd)), rd.advance n) := by
  induction n generalizing rd v with
  | zero => simp [readLoop, nextBits]
  | succ n ih =>
    rw [readLoop, ih, nextBits_succ, bitsNat_cons, Reader.next_eq_advance, Reader.advance_advance, Nat.add_comm 1 n]
    congr 1
    apply BitVec.eq_of_toNat_eq
    have key : ((v <<< 1) ||| (if rd.bit then 1 else 0) : Word).toNat = (2 * v.toNat + rd.bit.toNat) % 2 ^ 64 := by
      have : ((v <<< 1) ||| (if rd.bit then 1 else 0) : Word) = (v <<< 1) + (if rd.bit then 1 else 0) := by
        symm
        apply BitVec.add_eq_or_of_and_eq_zero
        ext i hi
        cases rd.bit <;> simp
        omega
      rw [this]
      cases rd.bit <;> simp [BitVec.toNat_add, BitVec.toNat_shiftLeft, Nat.shiftLeft_eq] <;> omega
    simp only [BitVec.toNat_ofNat, key, nextBits_length]
    rw [Nat.add_mod, Nat.mod_mul_mod, ← Nat.add_mod]
    congr 1
    ring

/-- READ_BITS of a width it admits, on a reader that has not failed and whose unread bits begin with `bs`. -/
theorem readBits_of_unread {policy : ReadAfterFail} {rd : Reader} {bs rest : List Bool} {n : Nat}
    (hf : rd.failed = false) (h1 : 1 ≤ n) (h64 : n ≤ 64) (hn : bs.length = n) (hu : rd.unread = bs ++ rest) :
    readBits policy rd n = .value (BitVec.ofNat 64 (bitsNat bs)) (rd.advance n) := by
  have ha : n ≤ rd.avail := by rw [← Reader.unread_length, hu]; simp; omega
  have hb : nextBits n rd = bs := by rw [nextBits_eq_take ha, hu, ← hn, List.take_left]
  have hneg : ¬(n < Config.readMin ∨ Config.wordBits < n) := by simp [Config.readMin, Config.wordBits]; omega
  simp [readBits, hneg, hf, Nat.not_lt.mpr ha, readLoop_eq, hb]

/-- Everything READ_BITS can answer. -/
theorem readBits_cases (policy : ReadAfterFail) (rd : Reader) (n : Nat) :
    ((n < 1 ∨ 64 < n) ∧ readBits policy rd n = .refused .width) ∨
    (1 ≤ n ∧ n ≤ 64 ∧ rd.failed = true ∧ policy = .refuse ∧ readBits policy rd n = .refused .failedReader) ∨
    (1 ≤ n ∧ n ≤ 64 ∧ rd.failed = true ∧ policy = .stickyFail ∧ readBits policy rd n = .short rd) ∨
    (1 ≤ n ∧ n ≤ 64 ∧ rd.failed = false ∧ rd.avail < n ∧ readBits policy rd n = .short { rd with failed := true }) ∨
    (1 ≤ n ∧ n ≤ 64 ∧ rd.failed = false ∧ n ≤ rd.avail ∧
      readBits policy rd n = .value (BitVec.ofNat 64 (bitsNat (rd.unread.take n))) (rd.advance n)) := by
  by_cases hw : n < 1 ∨ 64 < n
  · exact .inl ⟨hw, by simp only [readBits, Config.readMin, Config.wordBits, hw, ↓reduceIte]⟩
  have h1 : 1 ≤ n := by omega
  have h64 : n ≤ 64 := by omega
  refine .inr ?_
  have hneg : ¬(n < Config.readMin ∨ Config.wordBits < n) := by simpa [Config.readMin, Config.wordBits] using hw
  cases hf : rd.failed with
  | true =>
    cases policy with
    | refuse => exact .inl ⟨h1, h64, rfl, rfl, by simp [readBits, hneg, hf]⟩
    | stickyFail => exact .inr (.inl ⟨h1, h64, rfl, rfl, by simp [readBits, hneg, hf]⟩)
  | false =>
    refine .inr (.inr ?_)
    by_cases ha : rd.avail < n
    · exact .inl ⟨h1, h64, rfl, ha, by simp [readBits, hneg, hf, ha]⟩
    · exact .inr ⟨h1, h64, rfl, by omega,
        readBits_of_unread hf h1 h64 (by simp; omega) (List.take_append_drop n rd.unread).symm⟩

end Sys2Proof.Machine
end

