-- ==== Sys2Proof/Laws/Memory.lean ====
section
/-! SUPPORT. The file buffer: the host's bytes are read back as they are, and its form is canonical. -/

namespace Sys2Proof.Machine

theorem read_cellsFrom (bs : List Byte) (k a : Nat) :
    Memory.read (Memory.cellsFrom k bs) a = if k ≤ a then bs.getD (a - k) 0 else 0 := by
  induction bs generalizing k with
  | nil => simp [Memory.cellsFrom, Memory.read, Memory.unlisted]
  | cons b bs ih =>
    unfold Memory.cellsFrom
    split
    · rename_i hb
      rw [ih]
      by_cases h : k + 1 ≤ a
      · rw [if_pos h, if_pos (by omega), show a - k = (a - (k + 1)) + 1 by omega, List.getD_cons_succ]
      · rw [if_neg h]
        by_cases h2 : k ≤ a
        · rw [if_pos h2, show a - k = 0 by omega, List.getD_cons_zero, hb, Memory.unlisted]
        · rw [if_neg h2]
    · rw [Memory.read, ih]
      by_cases h : a = k
      · subst h
        simp
      · rw [if_neg h]
        by_cases h1 : k + 1 ≤ a
        · rw [if_pos h1, if_pos (by omega), show a - k = (a - (k + 1)) + 1 by omega, List.getD_cons_succ]
        · rw [if_neg h1, if_neg (by omega)]

/-- A byte of a file the host presented. -/
@[simp] theorem ofBytes_byte (bs : List Byte) (a : Nat) : (FileBuf.ofBytes bs).byte a = bs.getD a 0 := by
  simp [FileBuf.ofBytes, FileBuf.byte, read_cellsFrom]

@[simp] theorem ofBytes_len (bs : List Byte) : (FileBuf.ofBytes bs).len = bs.length := rfl

/-- A range of a file the host presented is that range of its bytes. -/
theorem ofBytes_bytes (bs : List Byte) (a n : Nat) (h : a + n ≤ bs.length) :
    (FileBuf.ofBytes bs).bytes a n = (bs.drop a).take n := by
  apply List.ext_getElem
  · simp [FileBuf.bytes]; omega
  · intro i h1 h2
    simp only [FileBuf.bytes, List.length_map, List.length_range] at h1
    simp [FileBuf.bytes, List.getD_eq_getElem?_getD, List.getElem?_eq_getElem (show a + i < bs.length by omega)]

/-- The bounds check of rule R62, as a proposition. -/
theorem inRange_iff (f : FileBuf) (a : Int) (n : Nat) : f.inRange a n = true ↔ 0 ≤ a ∧ a + n ≤ f.len := by
  simp [FileBuf.inRange]

/-- MemBytes on a file the host presented (rule R62). -/
theorem memBytes_ofBytes (bs : List Byte) (a : Int) (n : Nat) :
    memBytes (FileBuf.ofBytes bs) a n =
      if 0 ≤ a ∧ a + n ≤ bs.length then some ((bs.drop a.toNat).take n) else none := by
  by_cases h : 0 ≤ a ∧ a + n ≤ bs.length
  · have hr := (inRange_iff (FileBuf.ofBytes bs) a n).mpr h
    rw [memBytes, if_pos hr, if_pos h, ofBytes_bytes _ _ _ (by omega)]
  · have hr : ¬(FileBuf.ofBytes bs).inRange a n = true := fun e => h ((inRange_iff _ a n).mp e)
    rw [memBytes, if_neg hr, if_neg h]

theorem wfFrom_cellsFrom (bs : List Byte) (lo k : Nat) (h : lo ≤ k) :
    Memory.wfFrom lo (Memory.cellsFrom k bs) = true := by
  induction bs generalizing lo k with
  | nil => rfl
  | cons b bs ih =>
    unfold Memory.cellsFrom
    split
    · exact ih lo (k + 1) (by omega)
    · rename_i hb
      simp [Memory.wfFrom, h, hb, ih (k + 1) (k + 1) (le_refl _)]

theorem cellsFrom_lt (bs : List Byte) (k : Nat) : ∀ c ∈ Memory.cellsFrom k bs, c.1 < k + bs.length := by
  induction bs generalizing k with
  | nil => simp [Memory.cellsFrom]
  | cons b bs ih =>
    intro c hc
    unfold Memory.cellsFrom at hc
    split at hc
    · have := ih (k + 1) c hc
      simp; omega
    · rcases List.mem_cons.mp hc with rfl | hc
      · simp
      · have := ih (k + 1) c hc
        simp; omega

/-- The one operation that makes a file buffer makes a canonical one. -/
theorem ofBytes_wf (bs : List Byte) : (FileBuf.ofBytes bs).wf = true := by
  have h := cellsFrom_lt bs 0
  rw [FileBuf.wf, Bool.and_eq_true, List.all_eq_true]
  exact ⟨wfFrom_cellsFrom bs 0 0 (le_refl _), fun c hc => decide_eq_true (by simpa using h c hc)⟩

/-- The machine's file buffer is canonical after reset. -/
theorem reset_file_wf : State.reset.file.wf = true := by decide

/-! ### Little-endian numbers -/

theorem leNat_lt (bs : List Byte) : leNat bs < 256 ^ bs.length := by
  induction bs with
  | nil => simp [leNat]
  | cons b bs ih =>
    rw [leNat, List.length_cons, Nat.pow_succ]
    have := b.isLt
    omega

@[simp] theorem leBytes_length (n v : Nat) : (leBytes n v).length = n := by
  induction n generalizing v with
  | zero => rfl
  | succ n ih => simp [leBytes, ih]

theorem leNat_leBytes (n v : Nat) : leNat (leBytes n v) = v % 256 ^ n := by
  induction n generalizing v with
  | zero => simp [leBytes, leNat, Nat.mod_one]
  | succ n ih =>
    rw [leBytes, leNat, ih, BitVec.toNat_ofNat, show 256 ^ (n + 1) = 256 * 256 ^ n from Nat.pow_succ', Nat.mod_mul]

/-! ### Reads at an address inside the file -/

@[simp] theorem bytes_length (f : FileBuf) (a n : Nat) : (f.bytes a n).length = n := by simp [FileBuf.bytes]

theorem memBytes_nat (f : FileBuf) (a n : Nat) :
    memBytes f (a : Int) n = if a + n ≤ f.len then some (f.bytes a n) else none := by
  by_cases h : a + n ≤ f.len
  · rw [memBytes, if_pos ((inRange_iff _ _ _).mpr ⟨by omega, by omega⟩), if_pos h]
    rfl
  · rw [memBytes, if_neg (fun e => h (by have := (inRange_iff _ _ _).mp e; omega)), if_neg h]

theorem memRead32_nat (f : FileBuf) (a : Nat) :
    memRead32 f (a : Int) = if a + 4 ≤ f.len then some (BitVec.ofNat 32 (leNat (f.bytes a 4))) else none := by
  rw [memRead32, memBytes_nat]
  split <;> rfl

theorem memRead64_nat (f : FileBuf) (a : Nat) :
    memRead64 f (a : Int) = if a + 8 ≤ f.len then some (BitVec.ofNat 64 (leNat (f.bytes a 8))) else none := by
  rw [memRead64, memBytes_nat]
  split <;> rfl

@[simp] theorem toNat_ofNat_bytes4 (f : FileBuf) (a : Nat) :
    (BitVec.ofNat 32 (leNat (f.bytes a 4))).toNat = leNat (f.bytes a 4) := by
  have := leNat_lt (f.bytes a 4)
  rw [bytes_length] at this
  rw [BitVec.toNat_ofNat]
  omega

@[simp] theorem toNat_ofNat_bytes8 (f : FileBuf) (a : Nat) :
    (BitVec.ofNat 64 (leNat (f.bytes a 8))).toNat = leNat (f.bytes a 8) := by
  have := leNat_lt (f.bytes a 8)
  rw [bytes_length] at this
  rw [BitVec.toNat_ofNat]
  omega

/-- A segment of a file the host presented is read back. -/
theorem memBytes_segment {file pre seg post : List Byte} {a : Int} {n : Nat} (hF : file = pre ++ seg ++ post)
    (ha : a = pre.length) (hn : n = seg.length) : memBytes (FileBuf.ofBytes file) a n = some seg := by
  subst hF hn
  rw [memBytes_ofBytes, if_pos (by simp; omega)]
  congr 1
  rw [show a.toNat = pre.length by omega, List.append_assoc, List.drop_left, List.take_left]

theorem memRead32_segment {file pre post : List Byte} {a : Int} {v : U32}
    (hF : file = pre ++ leBytes 4 v.toNat ++ post) (ha : a = pre.length) :
    memRead32 (FileBuf.ofBytes file) a = some v := by
  have := v.isLt
  rw [memRead32, memBytes_segment hF ha (leBytes_length 4 _).symm]
  simp only [Option.map_some, leNat_leBytes]
  rw [Nat.mod_eq_of_lt (by simpa using this)]
  simp

theorem memRead64_segment {file pre post : List Byte} {a : Int} {v : Word}
    (hF : file = pre ++ leBytes 8 v.toNat ++ post) (ha : a = pre.length) :
    memRead64 (FileBuf.ofBytes file) a = some v := by
  have := v.isLt
  rw [memRead64, memBytes_segment hF ha (leBytes_length 8 _).symm]
  simp only [Option.map_some, leNat_leBytes]
  rw [Nat.mod_eq_of_lt (by simpa using this)]
  simp

end Sys2Proof.Machine
end

