-- ==== Sys2Proof/Laws/Symbols.lean ====
section
/-! SUPPORT. Symbols in a bit stream: what a run of `msbBits` reads as, what a READ_BITS that answered says about the bits, and
where decoding a symbol leaves the reader. -/

namespace Sys2Proof

open Machine

/-! ### The bits of a number -/

@[simp] theorem msbBits_length (n v : Nat) : (msbBits n v).length = n := by
  induction n with
  | zero => rfl
  | succ n ih => simp [msbBits, ih]

theorem bitsNat_msbBits (n v : Nat) : bitsNat (msbBits n v) = v % 2 ^ n := by
  induction n with
  | zero => simp [msbBits, Nat.mod_one]
  | succ n ih =>
    rw [msbBits, bitsNat_cons, ih, msbBits_length, Nat.pow_succ, Nat.mod_mul, Nat.add_comm, Nat.mul_comm]
    congr 2
    rw [Nat.testBit_eq_decide_div_mod_eq]
    rcases Nat.mod_two_eq_zero_or_one (v / 2 ^ n) with h | h <;> simp [h]

/-- Multiples of `2 ^ n` do not show in the low `m ≤ n` bits. -/
theorem msbBits_add_mul (m n v c : Nat) (h : m ≤ n) : msbBits m (v + c * 2 ^ n) = msbBits m v := by
  induction m with
  | zero => rfl
  | succ m ih =>
    rw [msbBits, msbBits, ih (by omega)]
    congr 1
    rw [Nat.testBit_eq_decide_div_mod_eq, Nat.testBit_eq_decide_div_mod_eq,
      show c * 2 ^ n = 2 ^ m * (2 * (c * 2 ^ (n - m - 1))) by
        rw [show n = m + (n - m - 1 + 1) by omega, Nat.pow_add, Nat.pow_succ,
          show m + (n - m - 1 + 1) - m - 1 = n - m - 1 by omega]
        ring,
      Nat.add_mul_div_left _ _ (Nat.two_pow_pos m), Nat.add_mul_mod_self_left]

/-- A bit string is the bits of the number it stands for. -/
theorem msbBits_bitsNat (bs : List Bool) : msbBits bs.length (bitsNat bs) = bs := by
  induction bs with
  | nil => rfl
  | cons b bs ih =>
    have hlt := bitsNat_lt bs
    rw [List.length_cons, msbBits, bitsNat_cons, Nat.add_comm, msbBits_add_mul _ _ _ _ (le_refl _), ih]
    congr 1
    cases b
    · simpa using Nat.testBit_lt_two_pow hlt
    · rw [Nat.testBit_eq_decide_div_mod_eq]
      simp [Nat.div_eq_of_lt hlt]

theorem setWidth_ofNat_toNat {w : Nat} (x : BitVec w) (h : w ≤ 64) : (BitVec.ofNat 64 x.toNat).setWidth w = x := by
  apply BitVec.eq_of_toNat_eq
  have := x.isLt
  have h2 : 2 ^ w ≤ 2 ^ 64 := Nat.pow_le_pow_right (by omega) h
  rw [BitVec.toNat_setWidth, BitVec.toNat_ofNat, Nat.mod_eq_of_lt (a := x.toNat) (by omega), Nat.mod_eq_of_lt this]

theorem toNat_setWidth_of_lt {v : Word} {w : Nat} (h : v.toNat < 2 ^ w) : (v.setWidth w).toNat = v.toNat := by
  rw [BitVec.toNat_setWidth, Nat.mod_eq_of_lt h]

/-! ### Reading -/

/-- READ_BITS where the next bits are those of `v`. -/
theorem read_msbBits {policy : ReadAfterFail} {rd : Reader} {rest : List Bool} (n v : Nat)
    (hf : rd.failed = false) (h1 : 1 ≤ n) (h64 : n ≤ 64) (hv : v < 2 ^ n) (hu : rd.unread = msbBits n v ++ rest) :
    readBits policy rd n = .value (BitVec.ofNat 64 v) (rd.advance n) ∧ (rd.advance n).unread = rest := by
  constructor
  · rw [readBits_of_unread hf h1 h64 (msbBits_length n v) hu, bitsNat_msbBits, Nat.mod_eq_of_lt hv]
  · rw [Reader.unread_advance, hu, List.drop_left' (msbBits_length n v)]

/-- READ_BITS of one bit. -/
theorem read_bit {policy : ReadAfterFail} {rd : Reader} {b : Bool} {rest : List Bool}
    (hf : rd.failed = false) (hu : rd.unread = b :: rest) :
    readBits policy rd 1 = .value (if b then 1 else 0) (rd.advance 1) ∧ (rd.advance 1).unread = rest := by
  constructor
  · rw [readBits_of_unread (bs := [b]) hf (le_refl _) (by omega) rfl hu]
    cases b <;> rfl
  · rw [Reader.unread_advance, hu, List.drop_one, List.tail_cons]

/-- What a READ_BITS that answered a value says of its reader and of the bits it took. -/
theorem readBits_inv {policy : ReadAfterFail} {rd rd' : Reader} {n : Nat} {v : Word}
    (h : readBits policy rd n = .value v rd') :
    rd.failed = false ∧ 1 ≤ n ∧ n ≤ 64 ∧ v.toNat < 2 ^ n ∧ rd' = rd.advance n ∧ n ≤ rd.avail ∧
      rd.unread = msbBits n v.toNat ++ rd'.unread := by
  rcases readBits_cases policy rd n with
    ⟨_, e⟩ | ⟨_, _, _, _, e⟩ | ⟨_, _, _, _, e⟩ | ⟨_, _, _, _, e⟩ | ⟨h1, h64, hf, ha, e⟩ <;> rw [e] at h <;> cases h
  have hl : (rd.unread.take n).length = n := by simp; omega
  have hlt : bitsNat (rd.unread.take n) < 2 ^ n := by simpa [hl] using bitsNat_lt (rd.unread.take n)
  have hv : (BitVec.ofNat 64 (bitsNat (rd.unread.take n))).toNat = bitsNat (rd.unread.take n) := by
    have h2 : 2 ^ n ≤ 2 ^ 64 := Nat.pow_le_pow_right (by omega) h64
    rw [BitVec.toNat_ofNat]
    exact Nat.mod_eq_of_lt (by omega)
  refine ⟨hf, h1, h64, by rw [hv]; exact hlt, rfl, ha, ?_⟩
  have := msbBits_bitsNat (rd.unread.take n)
  rw [hl] at this
  rw [hv, this, Reader.unread_advance, List.take_append_drop]

/-- What a READ_BITS of one bit that answered says of the bit it took. -/
theorem readBit_inv {policy : ReadAfterFail} {rd rd' : Reader} {b : Word} (h : readBits policy rd 1 = .value b rd') :
    rd.failed = false ∧ rd' = rd.advance 1 ∧ rd.unread = (!(b == 0)) :: rd'.unread := by
  obtain ⟨hf, -, -, hb, rfl, -, hu⟩ := readBits_inv h
  refine ⟨hf, rfl, ?_⟩
  rw [hu]
  have : b.toNat = 0 ∨ b.toNat = 1 := by omega
  rcases this with e | e
  · obtain rfl : b = 0 := BitVec.eq_of_toNat_eq e
    rfl
  · obtain rfl : b = 1 := BitVec.eq_of_toNat_eq e
    rfl

theorem afterRead_symbol {r : BitRead} {k : Word → Reader → SymbolRead} {i : Instr} {rd' : Reader}
    (h : afterRead r k = .symbol i rd') : ∃ v rd, r = .value v rd ∧ k v rd = .symbol i rd' := by
  cases r <;> simp [afterRead] at h
  exact ⟨_, _, rfl, h⟩

theorem afterRead_reserved {r : BitRead} {k : Word → Reader → SymbolRead} {why : Reserved} {rd' : Reader}
    (h : afterRead r k = .reserved why rd') : ∃ v rd, r = .value v rd ∧ k v rd = .reserved why rd' := by
  cases r <;> simp [afterRead] at h
  exact ⟨_, _, rfl, h⟩

/-! ### Windows -/

/-- The window of a new-window block and its payload fill the word. -/
theorem newWindow_width {policy : ReservedPolicy} {l m : BitVec 6} {n : Nat} {w : Window}
    (h : newWindow policy l m = some (n, w)) : 1 ≤ n ∧ n ≤ 64 ∧ w.leading + n + w.trailing = 64 := by
  unfold newWindow at h
  split at h
  · split at h <;> simp at h
    obtain ⟨rfl, rfl⟩ := h
    simp
  · split at h <;> simp at h
    obtain ⟨rfl, rfl⟩ := h
    simp
    omega

/-- A legal pair `L`, `M`, under any policy. -/
theorem newWindow_legal {policy : ReservedPolicy} {l m : BitVec 6} (hm : m ≠ 0) (hl : l.toNat + m.toNat ≤ 64) :
    newWindow policy l m = some (m.toNat, ⟨l.toNat, 64 - l.toNat - m.toNat⟩) := by
  have : m.toNat ≠ 0 := fun h => hm (BitVec.eq_of_toNat_eq h)
  simp [newWindow, this]
  omega

/-! ### Where a symbol read leaves the reader -/

/-- `rd'` is `rd` further on in the same bytes, never past their end if `rd` is not. -/
def Leads (rd rd' : Reader) : Prop :=
  rd'.buffer = rd.buffer ∧ rd.pc ≤ rd'.pc ∧ (rd.pc ≤ 8 * rd.buffer.length → rd'.pc ≤ 8 * rd.buffer.length)

theorem Leads.refl (rd : Reader) : Leads rd rd := ⟨rfl, le_refl _, id⟩

theorem Leads.trans {a b c : Reader} (h : Leads a b) (g : Leads b c) : Leads a c := by
  obtain ⟨h1, h2, h3⟩ := h
  obtain ⟨g1, g2, g3⟩ := g
  rw [h1] at g1 g3
  exact ⟨g1, by omega, fun e => g3 (h3 e)⟩

/-- Whatever a symbol read answers, its reader is further on. -/
def LeadsTo (rd : Reader) : SymbolRead → Prop
  | .symbol _ rd' => Leads rd rd'
  | .exhausted rd' => Leads rd rd'
  | .reserved _ rd' => Leads rd rd'
  | .refused _ => True

theorem LeadsTo.of_leads {a b : Reader} {r : SymbolRead} (h : Leads a b) (g : LeadsTo b r) : LeadsTo a r := by
  cases r <;> first | trivial | exact h.trans g

theorem leadsTo_afterRead {policy : ReadAfterFail} {rd : Reader} {n : Nat} {k : Word → Reader → SymbolRead}
    (h : ∀ v rd', LeadsTo rd' (k v rd')) : LeadsTo rd (afterRead (readBits policy rd n) k) := by
  rcases readBits_cases policy rd n with
    ⟨_, e⟩ | ⟨_, _, _, _, e⟩ | ⟨_, _, _, _, e⟩ | ⟨_, _, _, _, e⟩ | ⟨h1, h64, hf, ha, e⟩ <;> rw [e]
  · trivial
  · trivial
  · exact Leads.refl rd
  · exact ⟨rfl, le_refl _, id⟩
  · refine LeadsTo.of_leads (b := rd.advance n) ⟨rfl, by simp, ?_⟩ (h _ _)
    intro hb
    simp [Reader.avail] at ha ⊢
    omega

theorem leadsTo_decodeSymbol (p : Params) (slot : Slot) (rd : Reader) : LeadsTo rd (decodeSymbol p slot rd) := by
  cases slot with
  | floatFirst => exact leadsTo_afterRead fun _ rd => Leads.refl rd
  | intFirst => exact leadsTo_afterRead fun _ rd => Leads.refl rd
  | intSecond => exact leadsTo_afterRead fun _ rd => Leads.refl rd
  | intLater =>
    refine leadsTo_afterRead fun _ _ => ?_
    split
    · exact Leads.refl _
    refine leadsTo_afterRead fun _ _ => ?_
    split
    · exact leadsTo_afterRead fun _ rd => Leads.refl rd
    refine leadsTo_afterRead fun _ _ => ?_
    split
    · exact leadsTo_afterRead fun _ rd => Leads.refl rd
    refine leadsTo_afterRead fun _ _ => ?_
    split
    · exact leadsTo_afterRead fun _ rd => Leads.refl rd
    · exact leadsTo_afterRead fun _ rd => Leads.refl rd
  | floatLater w =>
    refine leadsTo_afterRead fun _ _ => ?_
    split
    · exact Leads.refl _
    refine leadsTo_afterRead fun _ _ => ?_
    split
    · split
      · exact Leads.refl _
      · exact leadsTo_afterRead fun _ rd => Leads.refl rd
    refine leadsTo_afterRead fun _ _ => ?_
    refine leadsTo_afterRead fun _ _ => ?_
    split
    · exact Leads.refl _
    · exact leadsTo_afterRead fun _ rd => Leads.refl rd

/-- What the decoder answers may stand at its slot, its payload of the width the slot gives. -/
theorem decodeSymbol_fits {p : Params} {slot : Slot} {rd rd' : Reader} {i : Instr}
    (h : decodeSymbol p slot rd = .symbol i rd') : i.fits p.reservedPolicy slot = true := by
  cases slot with
  | floatFirst =>
    obtain ⟨_, _, -, h⟩ := afterRead_symbol h
    cases h
    rfl
  | intFirst =>
    obtain ⟨_, _, -, h⟩ := afterRead_symbol h
    cases h
    rfl
  | intSecond =>
    obtain ⟨_, _, -, h⟩ := afterRead_symbol h
    cases h
    rfl
  | intLater =>
    obtain ⟨_, _, -, h⟩ := afterRead_symbol h
    split at h
    · cases h
      rfl
    obtain ⟨_, _, -, h⟩ := afterRead_symbol h
    split at h
    · obtain ⟨_, _, -, h⟩ := afterRead_symbol h
      cases h
      rfl
    obtain ⟨_, _, -, h⟩ := afterRead_symbol h
    split at h
    · obtain ⟨_, _, -, h⟩ := afterRead_symbol h
      cases h
      rfl
    obtain ⟨_, _, -, h⟩ := afterRead_symbol h
    split at h <;>
    · obtain ⟨_, _, -, h⟩ := afterRead_symbol h
      cases h
      rfl
  | floatLater w =>
    obtain ⟨_, _, -, h⟩ := afterRead_symbol h
    split at h
    · cases h
      rfl
    obtain ⟨_, _, -, h⟩ := afterRead_symbol h
    split at h
    · cases w with
      | none => cases h
      | some w =>
        obtain ⟨x, _, e, h⟩ := afterRead_symbol h
        obtain ⟨-, h1, -, hx, -⟩ := readBits_inv e
        cases h
        exact Bool.and_eq_true_iff.mpr ⟨decide_eq_true h1, decide_eq_true hx⟩
    obtain ⟨l, _, -, h⟩ := afterRead_symbol h
    obtain ⟨m, _, -, h⟩ := afterRead_symbol h
    split at h
    · cases h
    · rename_i hw
      obtain ⟨x, _, e, h⟩ := afterRead_symbol h
      obtain ⟨-, -, -, hx, -⟩ := readBits_inv e
      cases h
      simp [Instr.fits, Slot.isFloatLater, newPayloadFits, hw, hx]

/-- No slot of the int stream has a reserved encoding (rule R91). -/
theorem decodeSymbol_int_not_reserved {p : Params} {slot : Slot} {rd rd' : Reader} {why : Reserved}
    (hs : slot = .intFirst ∨ slot = .intSecond ∨ slot = .intLater) : decodeSymbol p slot rd ≠ .reserved why rd' := by
  intro h
  rcases hs with rfl | rfl | rfl
  · obtain ⟨_, _, -, h⟩ := afterRead_reserved h
    cases h
  · obtain ⟨_, _, -, h⟩ := afterRead_reserved h
    cases h
  · obtain ⟨_, _, -, h⟩ := afterRead_reserved h
    split at h
    · cases h
    obtain ⟨_, _, -, h⟩ := afterRead_reserved h
    split at h
    · obtain ⟨_, _, -, h⟩ := afterRead_reserved h
      cases h
    obtain ⟨_, _, -, h⟩ := afterRead_reserved h
    split at h
    · obtain ⟨_, _, -, h⟩ := afterRead_reserved h
      cases h
    obtain ⟨_, _, -, h⟩ := afterRead_reserved h
    split at h <;>
    · obtain ⟨_, _, -, h⟩ := afterRead_reserved h
      cases h

end Sys2Proof
end

