-- ==== Sys2Proof/Laws/PerInstr.lean ====
section
/-! SUPPORT. How long each instruction's encoding is (rules R81, R96 to R99), one lemma per constructor. -/

namespace Sys2Proof.Laws.EncodedLength

open Sys2Proof Sys2Proof.Machine

/-- The length rules R81 and R96 to R99 give an instruction: a symbol in bits, a record in bytes. -/
def Statement : Instr → Prop
  | .f64First v => ∀ p slot, (encodeSymbol p slot (.f64First v)).length = 64
  | .f64Repeat => ∀ p slot, (encodeSymbol p slot .f64Repeat).length = 1
  | .f64XorReuse x => ∀ p w, (encodeSymbol p (.floatLater (some w)) (.f64XorReuse x)).length = 2 + (64 - w.leading - w.trailing)
  | .f64XorNew l m x => ∀ p slot, (Instr.f64XorNew l m x).wellFormed = true →
      (encodeSymbol p slot (.f64XorNew l m x)).length = 14 + m.toNat
  | .i64First v => ∀ p slot, (encodeSymbol p slot (.i64First v)).length = 64
  | .i64FirstDelta d => ∀ p slot, (encodeSymbol p slot (.i64FirstDelta d)).length = 64
  | .i64Dod0 => ∀ p slot, (encodeSymbol p slot .i64Dod0).length = 1
  | .i64Dod7 d => ∀ p slot, (encodeSymbol p slot (.i64Dod7 d)).length = 9
  | .i64Dod9 d => ∀ p slot, (encodeSymbol p slot (.i64Dod9 d)).length = 12
  | .i64Dod12 d => ∀ p slot, (encodeSymbol p slot (.i64Dod12 d)).length = 16
  | .i64Dod64 d => ∀ p slot, (encodeSymbol p slot (.i64Dod64 d)).length = 68
  | .header h => (Instr.header h).wellFormed = true → (encodeHeader h).length = 32
  | .trailerFooter f => (encodeFooterHead f).length = 8 ∧ (encodeTrailer f).length = 4
  | .descriptor d => (Instr.descriptor d).wellFormed = true → (encodeDescriptor d).length = 32 + d.nameLen.toNat
  | .column data => (encodeColumn data).length = 8 + data.length

theorem f64First (v : Word) : Statement (.f64First v) := fun _ _ => msbBits_length 64 v.toNat

theorem f64Repeat : Statement .f64Repeat := fun _ _ => rfl

theorem f64XorReuse (x : Word) : Statement (.f64XorReuse x) := by
  intro p w
  simp [encodeSymbol, reuseWidth]
  omega

theorem f64XorNew (l m : BitVec 6) (x : Word) : Statement (.f64XorNew l m x) := by
  intro p slot h
  simp only [Instr.wellFormed, Bool.and_eq_true, bne_iff_ne, decide_eq_true_eq] at h
  simp [encodeSymbol, newWindow_legal h.1.1 h.1.2]
  omega

theorem i64First (v : Word) : Statement (.i64First v) := fun _ _ => msbBits_length 64 v.toNat

theorem i64FirstDelta (d : Word) : Statement (.i64FirstDelta d) := fun _ _ => msbBits_length 64 d.toNat

theorem i64Dod0 : Statement .i64Dod0 := fun _ _ => rfl

theorem i64Dod7 (d : BitVec 7) : Statement (.i64Dod7 d) := fun _ _ => by simp [encodeSymbol]

theorem i64Dod9 (d : BitVec 9) : Statement (.i64Dod9 d) := fun _ _ => by simp [encodeSymbol]

theorem i64Dod12 (d : BitVec 12) : Statement (.i64Dod12 d) := fun _ _ => by simp [encodeSymbol]

theorem i64Dod64 (d : Word) : Statement (.i64Dod64 d) := fun _ _ => by simp [encodeSymbol]

theorem header (h : HeaderFields) : Statement (.header h) := by
  intro hw
  simp only [Instr.wellFormed, HeaderFields.wellFormed, Bool.and_eq_true, beq_iff_eq] at hw
  simp [encodeHeader, hw.2]

theorem trailerFooter (f : FooterFields) : Statement (.trailerFooter f) := by
  constructor <;> simp [encodeFooterHead, encodeTrailer]

theorem descriptor (d : DescriptorFields) : Statement (.descriptor d) := by
  intro hw
  simp only [Instr.wellFormed, DescriptorFields.wellFormed, beq_iff_eq] at hw
  simp [encodeDescriptor, hw]
  omega

theorem column (data : List Byte) : Statement (.column data) := by
  show (encodeColumn data).length = 8 + data.length
  simp [encodeColumn]
  omega

end Sys2Proof.Laws.EncodedLength
end

