-- ==== Sys2Proof/Laws/State.lean ====
section
/-! SUPPORT. One lemma per field per named update of the state, true by rfl. -/

namespace Sys2Proof.Machine

namespace State

variable (s : State)

@[simp] theorem emitFloat_params (v : Word) : (s.emitFloat v).params = s.params := rfl
@[simp] theorem emitFloat_file (v : Word) : (s.emitFloat v).file = s.file := rfl
@[simp] theorem emitFloat_requests (v : Word) : (s.emitFloat v).requests = s.requests := rfl
@[simp] theorem emitFloat_readers (v : Word) : (s.emitFloat v).readers = s.readers := rfl
@[simp] theorem emitFloat_phase (v : Word) : (s.emitFloat v).phase = s.phase := rfl
@[simp] theorem emitFloat_ptr (v : Word) : (s.emitFloat v).ptr = s.ptr := rfl
@[simp] theorem emitFloat_id (v : Word) : (s.emitFloat v).id = s.id := rfl
@[simp] theorem emitFloat_fd (v : Word) : (s.emitFloat v).fd = { s.fd with out := s.fd.out ++ [v] } := rfl
@[simp] theorem emitFloat_cp (v : Word) : (s.emitFloat v).cp = s.cp := rfl
@[simp] theorem emitFloat_orch (v : Word) : (s.emitFloat v).orch = s.orch := rfl
@[simp] theorem emitFloat_result (v : Word) : (s.emitFloat v).result = s.result := rfl
@[simp] theorem emitFloat_hostRegisters (v : Word) : (s.emitFloat v).hostRegisters = s.hostRegisters := rfl
@[simp] theorem emitFloat_draws (v : Word) : (s.emitFloat v).draws = s.draws := rfl

@[simp] theorem writeFloat_params (v : Word) : (s.writeFloat v).params = s.params := rfl
@[simp] theorem writeFloat_file (v : Word) : (s.writeFloat v).file = s.file := rfl
@[simp] theorem writeFloat_requests (v : Word) : (s.writeFloat v).requests = s.requests := rfl
@[simp] theorem writeFloat_readers (v : Word) : (s.writeFloat v).readers = s.readers := rfl
@[simp] theorem writeFloat_phase (v : Word) : (s.writeFloat v).phase = s.phase := rfl
@[simp] theorem writeFloat_ptr (v : Word) : (s.writeFloat v).ptr = s.ptr := rfl
@[simp] theorem writeFloat_id (v : Word) : (s.writeFloat v).id = s.id := rfl
@[simp] theorem writeFloat_fd (v : Word) : (s.writeFloat v).fd = { s.fd with prevValue := some v, out := s.fd.out ++ [v] } := rfl
@[simp] theorem writeFloat_cp (v : Word) : (s.writeFloat v).cp = s.cp := rfl
@[simp] theorem writeFloat_orch (v : Word) : (s.writeFloat v).orch = s.orch := rfl
@[simp] theorem writeFloat_result (v : Word) : (s.writeFloat v).result = s.result := rfl
@[simp] theorem writeFloat_hostRegisters (v : Word) : (s.writeFloat v).hostRegisters = s.hostRegisters := rfl
@[simp] theorem writeFloat_draws (v : Word) : (s.writeFloat v).draws = s.draws := rfl

@[simp] theorem openWindow_params (w : Window) : (s.openWindow w).params = s.params := rfl
@[simp] theorem openWindow_file (w : Window) : (s.openWindow w).file = s.file := rfl
@[simp] theorem openWindow_requests (w : Window) : (s.openWindow w).requests = s.requests := rfl
@[simp] theorem openWindow_readers (w : Window) : (s.openWindow w).readers = s.readers := rfl
@[simp] theorem openWindow_phase (w : Window) : (s.openWindow w).phase = s.phase := rfl
@[simp] theorem openWindow_ptr (w : Window) : (s.openWindow w).ptr = s.ptr := rfl
@[simp] theorem openWindow_id (w : Window) : (s.openWindow w).id = s.id := rfl
@[simp] theorem openWindow_fd (w : Window) : (s.openWindow w).fd = { s.fd with window := some w, windowValid := true } := rfl
@[simp] theorem openWindow_cp (w : Window) : (s.openWindow w).cp = s.cp := rfl
@[simp] theorem openWindow_orch (w : Window) : (s.openWindow w).orch = s.orch := rfl
@[simp] theorem openWindow_result (w : Window) : (s.openWindow w).result = s.result := rfl
@[simp] theorem openWindow_hostRegisters (w : Window) : (s.openWindow w).hostRegisters = s.hostRegisters := rfl
@[simp] theorem openWindow_draws (w : Window) : (s.openWindow w).draws = s.draws := rfl

@[simp] theorem writeInt_params (v : Word) : (s.writeInt v).params = s.params := rfl
@[simp] theorem writeInt_file (v : Word) : (s.writeInt v).file = s.file := rfl
@[simp] theorem writeInt_requests (v : Word) : (s.writeInt v).requests = s.requests := rfl
@[simp] theorem writeInt_readers (v : Word) : (s.writeInt v).readers = s.readers := rfl
@[simp] theorem writeInt_phase (v : Word) : (s.writeInt v).phase = s.phase := rfl
@[simp] theorem writeInt_ptr (v : Word) : (s.writeInt v).ptr = s.ptr := rfl
@[simp] theorem writeInt_id (v : Word) : (s.writeInt v).id = { s.id with prevValue := some v, out := s.id.out ++ [v] } := rfl
@[simp] theorem writeInt_fd (v : Word) : (s.writeInt v).fd = s.fd := rfl
@[simp] theorem writeInt_cp (v : Word) : (s.writeInt v).cp = s.cp := rfl
@[simp] theorem writeInt_orch (v : Word) : (s.writeInt v).orch = s.orch := rfl
@[simp] theorem writeInt_result (v : Word) : (s.writeInt v).result = s.result := rfl
@[simp] theorem writeInt_hostRegisters (v : Word) : (s.writeInt v).hostRegisters = s.hostRegisters := rfl
@[simp] theorem writeInt_draws (v : Word) : (s.writeInt v).draws = s.draws := rfl

@[simp] theorem stepInt_params (d : Word) : (s.stepInt d).params = s.params := rfl
@[simp] theorem stepInt_file (d : Word) : (s.stepInt d).file = s.file := rfl
@[simp] theorem stepInt_requests (d : Word) : (s.stepInt d).requests = s.requests := rfl
@[simp] theorem stepInt_readers (d : Word) : (s.stepInt d).readers = s.readers := rfl
@[simp] theorem stepInt_phase (d : Word) : (s.stepInt d).phase = s.phase := rfl
@[simp] theorem stepInt_ptr (d : Word) : (s.stepInt d).ptr = s.ptr := rfl
@[simp] theorem stepInt_id (d : Word) : (s.stepInt d).id = 
    { s.id with prevDelta := some d, prevValue := some (addWrap s.intPrev d), out := s.id.out ++ [addWrap s.intPrev d] } := rfl
@[simp] theorem stepInt_fd (d : Word) : (s.stepInt d).fd = s.fd := rfl
@[simp] theorem stepInt_cp (d : Word) : (s.stepInt d).cp = s.cp := rfl
@[simp] theorem stepInt_orch (d : Word) : (s.stepInt d).orch = s.orch := rfl
@[simp] theorem stepInt_result (d : Word) : (s.stepInt d).result = s.result := rfl
@[simp] theorem stepInt_hostRegisters (d : Word) : (s.stepInt d).hostRegisters = s.hostRegisters := rfl
@[simp] theorem stepInt_draws (d : Word) : (s.stepInt d).draws = s.draws := rfl

@[simp] theorem discard_params : (s.discard).params = s.params := rfl
@[simp] theorem discard_file : (s.discard).file = s.file := rfl
@[simp] theorem discard_requests : (s.discard).requests = s.requests := rfl
@[simp] theorem discard_readers : (s.discard).readers = s.readers := rfl
@[simp] theorem discard_phase : (s.discard).phase = .idle := rfl
@[simp] theorem discard_ptr : (s.discard).ptr = 0 := rfl
@[simp] theorem discard_id : (s.discard).id = {} := rfl
@[simp] theorem discard_fd : (s.discard).fd = {} := rfl
@[simp] theorem discard_cp : (s.discard).cp = {} := rfl
@[simp] theorem discard_orch : (s.discard).orch = {} := rfl
@[simp] theorem discard_result : (s.discard).result = s.result := rfl
@[simp] theorem discard_hostRegisters : (s.discard).hostRegisters = s.hostRegisters := rfl
@[simp] theorem discard_draws : (s.discard).draws = s.draws := rfl

@[simp] theorem deliver_params (r : Result) : (s.deliver r).params = s.params := rfl
@[simp] theorem deliver_file (r : Result) : (s.deliver r).file = s.file := rfl
@[simp] theorem deliver_requests (r : Result) : (s.deliver r).requests = s.requests := rfl
@[simp] theorem deliver_readers (r : Result) : (s.deliver r).readers = s.readers := rfl
@[simp] theorem deliver_phase (r : Result) : (s.deliver r).phase = .idle := rfl
@[simp] theorem deliver_ptr (r : Result) : (s.deliver r).ptr = 0 := rfl
@[simp] theorem deliver_id (r : Result) : (s.deliver r).id = {} := rfl
@[simp] theorem deliver_fd (r : Result) : (s.deliver r).fd = {} := rfl
@[simp] theorem deliver_cp (r : Result) : (s.deliver r).cp = {} := rfl
@[simp] theorem deliver_orch (r : Result) : (s.deliver r).orch = {} := rfl
@[simp] theorem deliver_result (r : Result) : (s.deliver r).result = some r := rfl
@[simp] theorem deliver_hostRegisters (r : Result) : (s.deliver r).hostRegisters = s.hostRegisters := rfl
@[simp] theorem deliver_draws (r : Result) : (s.deliver r).draws = s.draws := rfl

@[simp] theorem deliverParsed_params (r : Result) : (s.deliverParsed r).params = s.params := rfl
@[simp] theorem deliverParsed_file (r : Result) : (s.deliverParsed r).file = s.file := rfl
@[simp] theorem deliverParsed_requests (r : Result) : (s.deliverParsed r).requests = s.requests := rfl
@[simp] theorem deliverParsed_readers (r : Result) : (s.deliverParsed r).readers = s.readers := rfl
@[simp] theorem deliverParsed_phase (r : Result) : (s.deliverParsed r).phase = .idle := rfl
@[simp] theorem deliverParsed_ptr (r : Result) : (s.deliverParsed r).ptr = 0 := rfl
@[simp] theorem deliverParsed_id (r : Result) : (s.deliverParsed r).id = {} := rfl
@[simp] theorem deliverParsed_fd (r : Result) : (s.deliverParsed r).fd = {} := rfl
@[simp] theorem deliverParsed_cp (r : Result) : (s.deliverParsed r).cp = {} := rfl
@[simp] theorem deliverParsed_orch (r : Result) : (s.deliverParsed r).orch = {} := rfl
@[simp] theorem deliverParsed_result (r : Result) : (s.deliverParsed r).result = some r := rfl
@[simp] theorem deliverParsed_hostRegisters (r : Result) : (s.deliverParsed r).hostRegisters = s.cp := rfl
@[simp] theorem deliverParsed_draws (r : Result) : (s.deliverParsed r).draws = s.draws := rfl

@[simp] theorem deliverError_params (c : Cause) : (s.deliverError c).params = s.params := rfl
@[simp] theorem deliverError_file (c : Cause) : (s.deliverError c).file = s.file := rfl
@[simp] theorem deliverError_requests (c : Cause) : (s.deliverError c).requests = s.requests := rfl
@[simp] theorem deliverError_readers (c : Cause) : (s.deliverError c).readers = s.readers := rfl
@[simp] theorem deliverError_phase (c : Cause) : (s.deliverError c).phase = .idle := rfl
@[simp] theorem deliverError_ptr (c : Cause) : (s.deliverError c).ptr = 0 := rfl
@[simp] theorem deliverError_id (c : Cause) : (s.deliverError c).id = {} := rfl
@[simp] theorem deliverError_fd (c : Cause) : (s.deliverError c).fd = {} := rfl
@[simp] theorem deliverError_cp (c : Cause) : (s.deliverError c).cp = {} := rfl
@[simp] theorem deliverError_orch (c : Cause) : (s.deliverError c).orch = {} := rfl
@[simp] theorem deliverError_result (c : Cause) : (s.deliverError c).result = some (.formatError c) := rfl
@[simp] theorem deliverError_hostRegisters (c : Cause) : (s.deliverError c).hostRegisters = undefinedContainer s.draws := rfl
@[simp] theorem deliverError_draws (c : Cause) : (s.deliverError c).draws = s.draws + 1 := rfl

@[simp] theorem pairColumns_params : (s.pairColumns).params = s.params := rfl
@[simp] theorem pairColumns_file : (s.pairColumns).file = s.file := rfl
@[simp] theorem pairColumns_requests : (s.pairColumns).requests = s.requests := rfl
@[simp] theorem pairColumns_readers : (s.pairColumns).readers = s.readers := rfl
@[simp] theorem pairColumns_phase : (s.pairColumns).phase = .returning := rfl
@[simp] theorem pairColumns_ptr : (s.pairColumns).ptr = s.ptr := rfl
@[simp] theorem pairColumns_id : (s.pairColumns).id = s.id := rfl
@[simp] theorem pairColumns_fd : (s.pairColumns).fd = s.fd := rfl
@[simp] theorem pairColumns_cp : (s.pairColumns).cp = s.cp := rfl
@[simp] theorem pairColumns_orch : (s.pairColumns).orch = 
    { s.orch with rows := s.orch.ts.zip s.orch.val, result := some (.rows (s.orch.ts.zip s.orch.val)) } := rfl
@[simp] theorem pairColumns_result : (s.pairColumns).result = s.result := rfl
@[simp] theorem pairColumns_hostRegisters : (s.pairColumns).hostRegisters = s.hostRegisters := rfl
@[simp] theorem pairColumns_draws : (s.pairColumns).draws = s.draws := rfl

@[simp] theorem startParse_params (c : Caller) (f : List Byte) : (s.startParse c f).params = s.params := rfl
@[simp] theorem startParse_file (c : Caller) (f : List Byte) : (s.startParse c f).file = FileBuf.ofBytes f := rfl
@[simp] theorem startParse_requests (c : Caller) (f : List Byte) : (s.startParse c f).requests = s.requests := rfl
@[simp] theorem startParse_readers (c : Caller) (f : List Byte) : (s.startParse c f).readers = s.readers := rfl
@[simp] theorem startParse_phase (c : Caller) (f : List Byte) : (s.startParse c f).phase = .parsing c := rfl
@[simp] theorem startParse_ptr (c : Caller) (f : List Byte) : (s.startParse c f).ptr = 0 := rfl
@[simp] theorem startParse_id (c : Caller) (f : List Byte) : (s.startParse c f).id = s.id := rfl
@[simp] theorem startParse_fd (c : Caller) (f : List Byte) : (s.startParse c f).fd = s.fd := rfl
@[simp] theorem startParse_cp (c : Caller) (f : List Byte) : (s.startParse c f).cp = { fileLen := some f.length } := rfl
@[simp] theorem startParse_orch (c : Caller) (f : List Byte) : (s.startParse c f).orch = s.orch := rfl
@[simp] theorem startParse_result (c : Caller) (f : List Byte) : (s.startParse c f).result = s.result := rfl
@[simp] theorem startParse_hostRegisters (c : Caller) (f : List Byte) : (s.startParse c f).hostRegisters = s.hostRegisters := rfl
@[simp] theorem startParse_draws (c : Caller) (f : List Byte) : (s.startParse c f).draws = s.draws := rfl

/-! Some ends choose by the phase or by `or.result`; what they leave alone, and what they discard, is the same in every case. -/

@[simp] theorem finishFloats_params : (s.finishFloats).params = s.params := by unfold finishFloats; split <;> rfl
@[simp] theorem finishFloats_file : (s.finishFloats).file = s.file := by unfold finishFloats; split <;> rfl
@[simp] theorem finishFloats_requests : (s.finishFloats).requests = s.requests := by unfold finishFloats; split <;> rfl
@[simp] theorem finishFloats_readers : (s.finishFloats).readers = s.readers := by unfold finishFloats; split <;> rfl
@[simp] theorem finishFloats_fd : (s.finishFloats).fd = {} := by unfold finishFloats; split <;> rfl
@[simp] theorem finishFloats_hostRegisters : (s.finishFloats).hostRegisters = s.hostRegisters := by unfold finishFloats; split <;> rfl
@[simp] theorem finishFloats_draws : (s.finishFloats).draws = s.draws := by unfold finishFloats; split <;> rfl

@[simp] theorem finishInts_params : (s.finishInts).params = s.params := by unfold finishInts; split <;> rfl
@[simp] theorem finishInts_file : (s.finishInts).file = s.file := by unfold finishInts; split <;> rfl
@[simp] theorem finishInts_requests : (s.finishInts).requests = s.requests := by unfold finishInts; split <;> rfl
@[simp] theorem finishInts_readers : (s.finishInts).readers = s.readers := by unfold finishInts; split <;> rfl
@[simp] theorem finishInts_id : (s.finishInts).id = {} := by unfold finishInts; split <;> rfl
@[simp] theorem finishInts_hostRegisters : (s.finishInts).hostRegisters = s.hostRegisters := by unfold finishInts; split <;> rfl
@[simp] theorem finishInts_draws : (s.finishInts).draws = s.draws := by unfold finishInts; split <;> rfl

@[simp] theorem raise_params (c : Cause) : (s.raise c).params = s.params := by unfold raise; split <;> rfl
@[simp] theorem raise_file (c : Cause) : (s.raise c).file = s.file := by unfold raise; split <;> rfl
@[simp] theorem raise_requests (c : Cause) : (s.raise c).requests = s.requests := by unfold raise; split <;> rfl
@[simp] theorem raise_readers (c : Cause) : (s.raise c).readers = s.readers := by unfold raise; split <;> rfl
@[simp] theorem raise_ptr (c : Cause) : (s.raise c).ptr = 0 := by unfold raise; split <;> rfl
@[simp] theorem raise_id (c : Cause) : (s.raise c).id = {} := by unfold raise; split <;> rfl
@[simp] theorem raise_fd (c : Cause) : (s.raise c).fd = {} := by unfold raise; split <;> rfl
@[simp] theorem raise_cp (c : Cause) : (s.raise c).cp = {} := by unfold raise; split <;> rfl

@[simp] theorem returnFile_params : (s.returnFile).params = s.params := by unfold returnFile; split <;> rfl
@[simp] theorem returnFile_file : (s.returnFile).file = s.file := by unfold returnFile; split <;> rfl
@[simp] theorem returnFile_requests : (s.returnFile).requests = s.requests := by unfold returnFile; split <;> rfl
@[simp] theorem returnFile_readers : (s.returnFile).readers = s.readers := by unfold returnFile; split <;> rfl
@[simp] theorem returnFile_phase : (s.returnFile).phase = .idle := by unfold returnFile; split <;> rfl
@[simp] theorem returnFile_ptr : (s.returnFile).ptr = 0 := by unfold returnFile; split <;> rfl
@[simp] theorem returnFile_id : (s.returnFile).id = {} := by unfold returnFile; split <;> rfl
@[simp] theorem returnFile_fd : (s.returnFile).fd = {} := by unfold returnFile; split <;> rfl
@[simp] theorem returnFile_cp : (s.returnFile).cp = {} := by unfold returnFile; split <;> rfl
@[simp] theorem returnFile_orch : (s.returnFile).orch = {} := by unfold returnFile; split <;> rfl

@[simp] theorem finishParse_params (n m : Word) (a b : List Byte) : (s.finishParse n m a b).params = s.params := by unfold finishParse; split <;> rfl
@[simp] theorem finishParse_file (n m : Word) (a b : List Byte) : (s.finishParse n m a b).file = s.file := by unfold finishParse; split <;> rfl
@[simp] theorem finishParse_requests (n m : Word) (a b : List Byte) : (s.finishParse n m a b).requests = s.requests := by unfold finishParse; split <;> rfl
@[simp] theorem finishParse_readers (n m : Word) (a b : List Byte) : (s.finishParse n m a b).readers = s.readers := by unfold finishParse; split <;> rfl
@[simp] theorem finishParse_draws (n m : Word) (a b : List Byte) : (s.finishParse n m a b).draws = s.draws := by unfold finishParse; split <;> rfl

end State

end Sys2Proof.Machine
end

