-- ==== Sys2Proof/Laws/Step.lean ====
section
/-! SUPPORT. Everything a step can do, phase by phase, and how runs compose. -/

namespace Sys2Proof

open Machine Safety

/-! ### Runs -/

theorem run_succ (k : Nat) (s : State) :
    Sys2Proof.core.run (k + 1) s =
      match step s with
      | .next s' => Sys2Proof.core.run k s'
      | .fault r => .fault r
      | .refused r => .refused r := by
  have e : Sys2Proof.core.step s = step s := rfl
  simp only [Host.Core.run]
  rw [e]
  cases step s <;> rfl

theorem Reaches.zero (s : State) : Reaches 0 s s := rfl

theorem Reaches.cons {s u t : State} {k : Nat} (h : step s = .next u) (g : Reaches k u t) : Reaches (k + 1) s t := by
  unfold Reaches
  rw [run_succ, h]
  exact g

theorem RefusedWithin.cons {s u : State} {k : Nat} {r : Refusal} (h : step s = .next u) (g : RefusedWithin k u r) :
    RefusedWithin (k + 1) s r := by
  unfold RefusedWithin
  rw [run_succ, h]
  exact g

theorem RefusedWithin.one {s : State} {r : Refusal} (h : step s = .refused r) : RefusedWithin 1 s r := by
  unfold RefusedWithin
  rw [run_succ, h]

theorem Reaches.trans {s u t : State} {j k : Nat} (h : Reaches j s u) (g : Reaches k u t) : Reaches (j + k) s t := by
  induction j generalizing s with
  | zero =>
    cases h
    rw [Nat.zero_add]
    exact g
  | succ j ih =>
    unfold Reaches at h
    rw [run_succ] at h
    rw [Nat.add_right_comm]
    cases e : step s with
    | next s' =>
      rw [e] at h
      exact Reaches.cons e (ih h)
    | fault r =>
      rw [e] at h
      cases h
    | refused r =>
      rw [e] at h
      cases h

theorem Reaches.refused {s u : State} {j k : Nat} {r : Refusal} (h : Reaches j s u) (g : RefusedWithin k u r) :
    RefusedWithin (j + k) s r := by
  induction j generalizing s with
  | zero =>
    cases h
    rw [Nat.zero_add]
    exact g
  | succ j ih =>
    unfold Reaches at h
    rw [run_succ] at h
    rw [Nat.add_right_comm]
    cases e : step s with
    | next s' =>
      rw [e] at h
      exact RefusedWithin.cons e (ih h)
    | fault r =>
      rw [e] at h
      cases h
    | refused r =>
      rw [e] at h
      cases h

/-! ### The step in a phase -/

theorem step_idle_eq {s : State} (h : s.phase = .idle) : step s = idleStep s := by
  unfold step fetch
  rw [h]
  rfl

theorem step_parsing_eq {s : State} {c : Caller} (h : s.phase = .parsing c) : step s = (fetchRecord s).run := by
  unfold step fetch
  rw [h]

theorem step_ints_eq {s : State} {c : Caller} (h : s.phase = .decodingInts c) : step s = (fetchInt s).run := by
  unfold step fetch
  rw [h]

theorem step_floats_eq {s : State} {c : Caller} (h : s.phase = .decodingFloats c) : step s = (fetchFloat s).run := by
  unfold step fetch
  rw [h]

theorem step_pairing_eq {s : State} (h : s.phase = .pairing) : step s = .next s.pairColumns := by
  unfold step fetch
  rw [h]
  rfl

theorem step_returning_eq {s : State} (h : s.phase = .returning) : step s = .next s.returnFile := by
  unfold step fetch
  rw [h]
  rfl

theorem intSlot_cases (id : IntDecoder) :
    id.slot = .intFirst ∧ id.out = [] ∨ id.slot = .intSecond ∧ (∃ v, id.out = [v]) ∨
      id.slot = .intLater ∧ 2 ≤ id.out.length := by
  unfold IntDecoder.slot
  rcases h : id.out with _ | ⟨a, _ | ⟨b, c⟩⟩ <;> simp

theorem floatSlot_cases (fd : FloatDecoder) :
    fd.slot = .floatFirst ∧ fd.out = [] ∨ fd.slot = .floatLater fd.window ∧ fd.out ≠ [] := by
  unfold FloatDecoder.slot
  rcases h : fd.out with _ | ⟨a, c⟩ <;> simp

/-! ### The ends of an operation -/

theorem finishInts_cases (s : State) :
    s.phase = .decodingInts .readFile ∧
      s.finishInts = { s with id := {}, phase := .decodingFloats .readFile, orch := { s.orch with ts := s.id.out } } ∨
    s.phase ≠ .decodingInts .readFile ∧ s.finishInts = s.deliver (.ints s.id.out) := by
  unfold State.finishInts
  split <;> simp_all

theorem finishFloats_cases (s : State) :
    s.phase = .decodingFloats .readFile ∧
      s.finishFloats = { s with fd := {}, phase := .pairing, orch := { s.orch with val := s.fd.out } } ∨
    s.phase ≠ .decodingFloats .readFile ∧ s.finishFloats = s.deliver (.floats s.fd.out) := by
  unfold State.finishFloats
  split <;> simp_all

theorem finishParse_cases (s : State) (c0 c1 : Word) (b0 b1 : List Byte) :
    s.phase = .parsing .readFile ∧
      s.finishParse c0 c1 b0 b1 = { s with
        id := IntDecoder.start b0 c0, fd := FloatDecoder.start s.params b1 c1, phase := .decodingInts .readFile } ∨
    s.phase ≠ .parsing .readFile ∧
      s.finishParse c0 c1 b0 b1 = s.deliverParsed (.parsed s.cp) := by
  unfold State.finishParse
  split <;> simp_all

/-- Where a decode's reader stood does not matter once the decode has ended. -/
@[simp] theorem withIntReader_finishInts (s : State) (rd : Reader) : (withIntReader s rd).finishInts = s.finishInts := by
  unfold State.finishInts withIntReader
  cases s.phase with
  | decodingInts c => cases c <;> rfl
  | idle => rfl
  | parsing c => rfl
  | decodingFloats c => rfl
  | pairing => rfl
  | returning => rfl

@[simp] theorem withFloatReader_finishFloats (s : State) (rd : Reader) :
    (withFloatReader s rd).finishFloats = s.finishFloats := by
  unfold State.finishFloats withFloatReader
  cases s.phase with
  | decodingFloats c => cases c <;> rfl
  | idle => rfl
  | parsing c => rfl
  | decodingInts c => rfl
  | pairing => rfl
  | returning => rfl

theorem raise_cases (s : State) (c : Cause) :
    s.phase = .parsing .readFile ∧
      s.raise c = { s.discard with orch := { result := some (.formatError c) }, phase := .returning } ∨
    s.phase ≠ .parsing .readFile ∧ s.raise c = s.deliverError c := by
  unfold State.raise
  split <;> simp_all

/-- How READ_FILE returns. -/
theorem returnFile_cases (s : State) :
    (∃ rows, s.orch.result = some (.rows rows) ∧ s.returnFile = s.deliverParsed (.rows rows)) ∨
    (∃ c, s.orch.result = some (.formatError c) ∧ s.returnFile = s.deliverError c) ∨
    s.orch.result = none ∧ s.returnFile = s.discard := by
  unfold State.returnFile
  split <;> simp_all

/-! ### Everything a step can do -/

/-- An idle step. -/
theorem step_idle_cases {s t : State} (hc : s.phase = .idle) (h : step s = .next t) :
    t = s ∨ ∃ r rest, s.requests = r :: rest ∧ serve r { s.discard with requests := rest } = .next t := by
  rw [step_idle_eq hc] at h
  simp only [idleStep] at h
  split at h
  · cases h
    exact .inl rfl
  · exact .inr ⟨_, _, by assumption, h⟩

/-- What serving a request can do. -/
theorem serve_cases {r : Request} {s t : State} (h : serve r s = .next t) :
    (∃ buffer, t = ({ s with readers := s.readers ++ [Reader.new buffer] } : State).deliver (.reader s.readers.length)) ∨
    (∃ (k n : Nat) (rd rd' : Reader) (v : Word), s.readers[k]? = some rd ∧
      readBits s.params.readAfterFail rd n = .value v rd' ∧
      t = ({ s with readers := s.readers.set k rd' } : State).deliver (.bits v true)) ∨
    (∃ (k n : Nat) (rd rd' : Reader), s.readers[k]? = some rd ∧ readBits s.params.readAfterFail rd n = .short rd' ∧
      t = ({ s with readers := s.readers.set k rd', draws := s.draws + 1 } : State).deliver
        (.bits (Config.failedReadValue s.draws) false)) ∨
    (∃ data count, t = { s with id := IntDecoder.start data count, phase := .decodingInts .host }) ∨
    (∃ data count, t = { s with fd := FloatDecoder.start s.params data count, phase := .decodingFloats .host }) ∨
    (∃ c file, t = s.startParse c file) := by
  cases r with
  | newReader b =>
    simp only [serve, serveNewReader] at h
    cases h
    exact .inl ⟨b, rfl⟩
  | readBits k n =>
    simp only [serve, serveReadBits] at h
    split at h
    · cases h
    rename_i rd hk
    split at h <;> cases h
    · exact .inr (.inl ⟨k, _, rd, _, _, hk, by assumption, rfl⟩)
    · exact .inr (.inr (.inl ⟨k, _, rd, _, hk, by assumption, rfl⟩))
  | decodeI64 d c =>
    simp only [serve, serveDecodeI64] at h
    cases h
    exact .inr (.inr (.inr (.inl ⟨d, c, rfl⟩)))
  | decodeF64 d c =>
    simp only [serve, serveDecodeF64] at h
    cases h
    exact .inr (.inr (.inr (.inr (.inl ⟨d, c, rfl⟩))))
  | parseContainer f =>
    simp only [serve, serveParseContainer] at h
    split at h <;> cases h
    exact .inr (.inr (.inr (.inr (.inr ⟨_, f, rfl⟩))))
  | readFile f =>
    simp only [serve, serveReadFile] at h
    split at h <;> cases h
    exact .inr (.inr (.inr (.inr (.inr ⟨_, f, rfl⟩))))

/-- A step of an int decode: it ends, complete or cut short, or it executes one symbol. -/
theorem step_ints_cases {s t : State} {c : Caller} (hc : s.phase = .decodingInts c) (h : step s = .next t) :
    t = s.finishInts ∨
    (∃ rd rd', s.id.rd = some rd ∧ Leads rd rd' ∧ s.id.out.length < s.id.count.toNat ∧
      ((s.id.out = [] ∧ ∃ v, t = (withIntReader s rd').writeInt v) ∨
       ((∃ a, s.id.out = [a]) ∧ ∃ v, t = (withIntReader s rd').stepInt v) ∨
       (2 ≤ s.id.out.length ∧ ∃ v, t = (withIntReader s rd').applyDod v))) := by
  rw [step_ints_eq hc] at h
  simp only [fetchInt] at h
  split at h
  · cases h
    exact .inl rfl
  rename_i rd hrd
  split at h
  swap
  · cases h
    exact .inl rfl
  rename_i hl
  have hlead := leadsTo_decodeSymbol s.params s.id.slot rd
  split at h
  · rename_i i rd' hd
    rw [hd] at hlead
    right
    refine ⟨rd, rd', hrd, hlead, hl, ?_⟩
    have hfit := decodeSymbol_fits hd
    simp only [Fetched.run] at h
    rcases intSlot_cases s.id with ⟨hs, ho⟩ | ⟨hs, ho⟩ | ⟨hs, ho⟩ <;> rw [hs] at hfit <;> cases i <;>
      simp [Instr.fits, Slot.isFloatLater] at hfit
    all_goals
      simp only [exec] at h
      cases h
    · exact .inl ⟨ho, _, rfl⟩
    · exact .inr (.inl ⟨ho, _, rfl⟩)
    all_goals exact .inr (.inr ⟨ho, _, rfl⟩)
  · rename_i rd' hd
    cases h
    exact .inl (withIntReader_finishInts s rd')
  · rename_i w rd' hd
    refine (decodeSymbol_int_not_reserved ?_ hd).elim
    rcases intSlot_cases s.id with ⟨h, _⟩ | ⟨h, _⟩ | ⟨h, _⟩ <;> simp [h]
  · cases h

/-- A step of a float decode: it ends, complete or cut short, or it executes one symbol. -/
theorem step_floats_cases {s t : State} {c : Caller} (hc : s.phase = .decodingFloats c) (h : step s = .next t) :
    t = s.finishFloats ∨
    (∃ rd rd', s.fd.rd = some rd ∧ Leads rd rd' ∧ s.fd.out.length < s.fd.count.toNat ∧
      ((s.fd.out = [] ∧ ∃ v, t = (withFloatReader s rd').writeFloat v) ∨
       (s.fd.out ≠ [] ∧ t = (withFloatReader s rd').emitFloat s.floatPrev) ∨
       (s.fd.out ≠ [] ∧ ∃ v, t = (withFloatReader s rd').writeFloat v) ∨
       (s.fd.out ≠ [] ∧ ∃ l m n w v, newWindow s.params.reservedPolicy l m = some (n, w) ∧
         t = ((withFloatReader s rd').writeFloat v).openWindow w))) := by
  rw [step_floats_eq hc] at h
  simp only [fetchFloat] at h
  split at h
  · cases h
    exact .inl rfl
  rename_i rd hrd
  split at h
  swap
  · cases h
    exact .inl rfl
  rename_i hl
  have hlead := leadsTo_decodeSymbol s.params s.fd.slot rd
  split at h
  · rename_i i rd' hd
    rw [hd] at hlead
    right
    refine ⟨rd, rd', hrd, hlead, hl, ?_⟩
    have hfit := decodeSymbol_fits hd
    simp only [Fetched.run] at h
    rcases floatSlot_cases s.fd with ⟨hs, ho⟩ | ⟨hs, ho⟩ <;> rw [hs] at hfit <;> cases i <;>
      simp [Instr.fits, Slot.isFloatLater] at hfit
    · simp only [exec] at h
      cases h
      exact .inl ⟨ho, _, rfl⟩
    · simp only [exec] at h
      cases h
      exact .inr (.inl ⟨ho, rfl⟩)
    · simp only [exec, execF64XorReuse] at h
      split at h
      · rename_i hw
        have hw : s.fd.window = none := hw
        simp [hw, reusePayloadFits] at hfit
      · cases h
        exact .inr (.inr (.inl ⟨ho, _, rfl⟩))
    · rename_i l m x
      simp only [exec, execF64XorNew] at h
      split at h
      · rename_i hw
        have hw : newWindow s.params.reservedPolicy l m = none := hw
        simp [hw, newPayloadFits] at hfit
      · rename_i n w hw
        cases h
        exact .inr (.inr (.inr ⟨ho, l, m, n, w, _, hw, rfl⟩))
  · rename_i rd' hd
    cases h
    exact .inl (withFloatReader_finishFloats s rd')
  · rename_i w rd' hd
    simp only [Fetched.run, State.reservedSymbol] at h
    split at h <;> cases h
    exact .inl (withFloatReader_finishFloats s rd')
  · cases h

/-- What a parse's registers say at each stage. -/
theorem stage_cases (cp : Container) :
    (cp.stage = .header ∧ cp.header = none) ∨
    (cp.stage = .footer ∧ cp.header ≠ none ∧ cp.footer = none) ∨
    (cp.stage = .descriptor ∧ cp.header ≠ none ∧ cp.footer ≠ none ∧ (cp.col0 = none ∨ cp.col1 = none)) ∨
    (∃ d0 d1, cp.header ≠ none ∧ cp.footer ≠ none ∧ cp.col0 = some d0 ∧ cp.col1 = some d1 ∧
      ((cp.stage = .column d0 ∧ cp.slice0 = none) ∨
       (cp.stage = .column d1 ∧ cp.slice0 ≠ none ∧ cp.slice1 = none) ∨
       (∃ b0 b1, cp.stage = .done d0.count d1.count b0 b1 ∧ cp.slice0 = some b0 ∧ cp.slice1 = some b1))) := by
  unfold Container.stage
  rcases h : cp.header with _ | _
  · simp
  rcases f : cp.footer with _ | _
  · simp
  rcases c0 : cp.col0 with _ | d0
  · simp
  rcases c1 : cp.col1 with _ | d1
  · simp
  rcases s0 : cp.slice0 with _ | b0
  · simp
  rcases s1 : cp.slice1 with _ | b1 <;> simp

/-- A step of a parse: a check raises, a record is kept, or the parse is complete. -/
theorem step_parsing_cases {s t : State} {c : Caller} (hc : s.phase = .parsing c) (h : step s = .next t) :
    (∃ e, t = s.raise e) ∨
    (∃ hd, s.cp.stage = .header ∧ hd.magic = Config.magic ∧ t = { s with cp := { s.cp with header := some hd } }) ∨
    (∃ f, s.cp.stage = .footer ∧ ¬(footerStart s.file.len f.footerSize < Config.headerBytes) ∧
      f.columnCount = Config.columnCount ∧
      t = { s with
        cp := { s.cp with footer := some f, footerStart := some (footerStart s.file.len f.footerSize) }
        ptr := footerStart s.file.len f.footerSize + 8 }) ∨
    (∃ d, s.cp.stage = .descriptor ∧ t = { s with
        cp := if s.cp.col0 = none then { s.cp with col0 := some d } else { s.cp with col1 := some d }
        ptr := s.ptr + 32 + d.nameLen.toNat }) ∨
    (∃ d data, s.cp.stage = .column d ∧ decodeColumn s.file d.offset d.size = .ok data ∧
      t = { s with
        cp := if s.cp.slice0 = none then { s.cp with slice0 := some data } else { s.cp with slice1 := some data } }) ∨
    (∃ c0 c1 b0 b1, s.cp.stage = .done c0 c1 b0 b1 ∧ t = s.finishParse c0 c1 b0 b1) := by
  rw [step_parsing_eq hc] at h
  simp only [fetchRecord] at h
  split at h
  · cases hd : decodeHeader s.file with
    | error e =>
      rw [hd] at h
      cases h
      exact .inl ⟨_, rfl⟩
    | ok v =>
      rw [hd] at h
      simp only [fetchedRecord, Fetched.run, exec, execHeader] at h
      split at h <;> cases h
      · exact .inr (.inl ⟨v, by assumption, by assumption, rfl⟩)
      · exact .inl ⟨_, rfl⟩
  · cases hd : decodeTrailerFooter s.file with
    | error e =>
      rw [hd] at h
      cases h
      exact .inl ⟨_, rfl⟩
    | ok v =>
      rw [hd] at h
      simp only [fetchedRecord, Fetched.run, exec, execTrailerFooter] at h
      split at h
      · cases h
        exact .inl ⟨_, rfl⟩
      split at h <;> cases h
      · exact .inr (.inr (.inl ⟨v, by assumption, by assumption, by assumption, rfl⟩))
      · exact .inl ⟨_, rfl⟩
  · cases hd : decodeDescriptor s.file s.ptr with
    | error e =>
      rw [hd] at h
      cases h
      exact .inl ⟨_, rfl⟩
    | ok v =>
      rw [hd] at h
      cases h
      exact .inr (.inr (.inr (.inl ⟨v, by assumption, rfl⟩)))
  · rename_i d hst
    cases hd : decodeColumn s.file d.offset d.size with
    | error e =>
      rw [hd] at h
      cases h
      exact .inl ⟨_, rfl⟩
    | ok v =>
      rw [hd] at h
      cases h
      exact .inr (.inr (.inr (.inr (.inl ⟨d, v, hst, hd, rfl⟩))))
  · rename_i c0 c1 b0 b1 hst
    cases h
    exact .inr (.inr (.inr (.inr (.inr ⟨c0, c1, b0, b1, hst, rfl⟩))))

end Sys2Proof
end

