-- ==== Sys2Proof/Tests/Slice0.lean ====
section
/-! SUPPORT. Small tests on worked values of the spec (`95_test_vectors.md`, cited by the names it gives them), and for every
statement with hypotheses a concrete state and operands that meet all of them together. -/

set_option Elab.async false

namespace Sys2Proof.Tests

open Machine Safety

/-! ### The states the tests stand on -/

/-- A reader over the bytes with its cursor at bit `pc`. -/
def readerAt (buffer : List Byte) (pc : Nat) : Reader := (Reader.new buffer).advance pc

/-- A host's float decode in progress. -/
def floats (rd : Reader) (count : Word) (out : List Word) (window : Option Window) (policy : ReservedPolicy := .refuse) : State :=
  { State.reset with
    params := { reservedPolicy := policy }
    phase := .decodingFloats .host
    fd :=
      { rd := some rd, count := count, prevValue := out.getLast?
        window := window, windowValid := window.isSome, out := out } }

/-- A host's int decode in progress. -/
def ints (rd : Reader) (count : Word) (out : List Word) : State :=
  { State.reset with
    phase := .decodingInts .host
    id := { rd := some rd, count := count, prevValue := out.getLast?, prevDelta := lastDelta out, out := out } }

/-- A host's parse in progress. -/
def parse (file : FileBuf) (cp : Container) (ptr : Int) : State :=
  { State.reset with file := file, cp := cp, ptr := ptr, phase := .parsing .host }

/-- A machine asked for one operation. -/
def asked (r : Request) : State := { State.reset with requests := [r] }

/-- The state an outcome goes on in. -/
def goesOn : Host.Outcome State Fault Refusal → Option State
  | .next s => some s
  | .fault _ => none
  | .refused _ => none

/-- The refusal an outcome stops with. -/
def stops : Host.Outcome State Fault Refusal → Option Refusal
  | .next _ => none
  | .fault _ => none
  | .refused r => some r

/-- What a list of reads gives: each value, none for `ok = false`, and the cursor after it. -/
def reads : Reader → List Nat → List (Option Nat × Nat)
  | _, [] => []
  | rd, n :: ns =>
    match readBits .stickyFail rd n with
    | .value v rd => (some v.toNat, rd.pc) :: reads rd ns
    | .short rd => (none, rd.pc) :: reads rd ns
    | .refused _ => []

/-- The 8 bytes of a word, most significant first: how a stream holds it (rule R53). -/
def word (v : Word) : List Byte := (leBytes 8 v.toNat).reverse

/-- The pattern of 1.0. -/
def one : Word := 0x3FF0000000000000

/-- File F1 of program P5. -/
def f1 : List Byte :=
  [0x51, 0x52, 0x41, 0x50, 0x01, 0x00, 0x00, 0x00, 0x03, 0x00, 0x00, 0x00, 0x00, 0x00, 0x00, 0x00] ++
  [0x02, 0x00, 0x00, 0x00, 0x54, 0x53, 0x44, 0x42, 0x00, 0x00, 0x00, 0x00, 0x00, 0x00, 0x00, 0x00] ++
  [0x00, 0x00, 0x00, 0x00, 0x00, 0x00, 0x00, 0x00, 0x00, 0x00, 0x00, 0x00, 0x00, 0x00, 0x03, 0xE8] ++
  [0x00, 0x00, 0x00, 0x00, 0x00, 0x00, 0x00, 0x01, 0x00, 0x00, 0x00, 0x00, 0x00, 0x00, 0x00, 0x00] ++
  [0x00, 0x3F, 0xF0, 0x00, 0x00, 0x00, 0x00, 0x00, 0x00, 0x60, 0x9B, 0xFF, 0xD0, 0x01, 0x00, 0x00] ++
  [0x00, 0x02, 0x00, 0x00, 0x00, 0x02, 0x00, 0x00, 0x00, 0x74, 0x73, 0x00, 0x00, 0x00, 0x00, 0x20] ++
  [0x00, 0x00, 0x00, 0x00, 0x00, 0x00, 0x00, 0x19, 0x00, 0x00, 0x00, 0x00, 0x00, 0x00, 0x00, 0x03] ++
  [0x00, 0x00, 0x00, 0x00, 0x00, 0x00, 0x00, 0x03, 0x00, 0x00, 0x00, 0x76, 0x61, 0x6C, 0x01, 0x00] ++
  [0x00, 0x00, 0x39, 0x00, 0x00, 0x00, 0x00, 0x00, 0x00, 0x00, 0x14, 0x00, 0x00, 0x00, 0x00, 0x00] ++
  [0x00, 0x00, 0x03, 0x00, 0x00, 0x00, 0x00, 0x00, 0x00, 0x00, 0x4D, 0x00, 0x00, 0x00]

/-- The records of F1, by its field table. -/
def f1Header : HeaderFields := ⟨0x50415251, 1, 3, 2, [0x54, 0x53, 0x44, 0x42]⟩
def f1Footer : FooterFields := ⟨77, 1, 2⟩
def f1Col0 : DescriptorFields := ⟨2, [0x74, 0x73], 0, 32, 25, 3⟩
def f1Col1 : DescriptorFields := ⟨3, [0x76, 0x61, 0x6C], 1, 57, 20, 3⟩

/-- The parser's registers after the header, the footer and both descriptors of F1. -/
def f1Cp : Container :=
  { fileLen := some 158, header := some f1Header, footer := some f1Footer, footerStart := some 77,
    col0 := some f1Col0, col1 := some f1Col1 }

/-- A file with `footer_size` in its trailer, `column_count` in the footer that starts there, and zeros elsewhere. -/
def footed (len size : Nat) (columns : Nat) : FileBuf :=
  FileBuf.ofBytes
    (List.replicate (len - 4 - size) 0 ++ (leBytes 4 1 ++ leBytes 4 columns ++ List.replicate size 0).take size ++ leBytes 4 size)

/-! ### WellFormed: an ill-formed term for each check -/

theorem test_wf_xor_new_zero : (Instr.f64XorNew 3 0 0).wellFormed = false := by decide
theorem test_wf_xor_new_sum : (Instr.f64XorNew 2 63 0).wellFormed = false := by decide
theorem test_wf_xor_new_payload : (Instr.f64XorNew 1 13 0x2000).wellFormed = false := by decide
theorem test_wf_xor_new : (Instr.f64XorNew 1 13 0x1FFD).wellFormed = true := by decide
theorem test_wf_header_magic : (Instr.header ⟨0x51524150, 1, 3, 2, [0, 0, 0, 0]⟩).wellFormed = false := by decide
theorem test_wf_header_identifier : (Instr.header ⟨0x50415251, 1, 3, 2, [0, 0, 0]⟩).wellFormed = false := by decide
theorem test_wf_footer : (Instr.trailerFooter ⟨77, 1, 3⟩).wellFormed = false := by decide
theorem test_wf_descriptor : (Instr.descriptor ⟨3, [0x74, 0x73], 0, 32, 25, 3⟩).wellFormed = false := by decide
theorem test_fits_stream : (Instr.i64Dod0).fits .refuse (.floatLater none) = false := by decide
theorem test_fits_position : (Instr.i64FirstDelta 1).fits .refuse .intLater = false := by decide
theorem test_fits_no_window : (Instr.f64XorReuse 0).fits .refuse (.floatLater none) = false := by decide
theorem test_fits_reuse_payload : (Instr.f64XorReuse 0x2000).fits .refuse (.floatLater (some ⟨1, 50⟩)) = false := by decide
theorem test_fits_new_reserved : (Instr.f64XorNew 0 0 1).fits .refuse (.floatLater none) = false := by decide
theorem test_fits_mb0_is_64 : (Instr.f64XorNew 0 0 1).fits .mb0Is64 (.floatLater none) = true := by decide

/-! ### Decoding: words written out from the encodings -/

/-- Rule R163, program P1: the 64 bits of 1000. -/
theorem test_decode_i64_first :
    decodeSymbol {} .intFirst (Reader.new [0, 0, 0, 0, 0, 0, 0x03, 0xE8]) =
      .symbol (.i64First 1000) (readerAt [0, 0, 0, 0, 0, 0, 0x03, 0xE8] 64) := by decide +kernel

/-- Rule R164, vector V-I16: the 64 bits of -3. -/
theorem test_decode_i64_first_delta :
    decodeSymbol {} .intSecond (Reader.new [0xFF, 0xFF, 0xFF, 0xFF, 0xFF, 0xFF, 0xFF, 0xFD]) =
      .symbol (.i64FirstDelta (-3)) (readerAt [0xFF, 0xFF, 0xFF, 0xFF, 0xFF, 0xFF, 0xFF, 0xFD] 64) := by decide +kernel

/-- Rule R166: `0`. -/
theorem test_decode_dod0 :
    decodeSymbol {} .intLater (Reader.new [0b01111111]) = .symbol .i64Dod0 (readerAt [0b01111111] 1) := by decide +kernel

/-- Rule R167, vector V-I10: `10 1000000`. -/
theorem test_decode_dod7 :
    decodeSymbol {} .intLater (Reader.new [0xA0, 0x00]) = .symbol (.i64Dod7 0x40) (readerAt [0xA0, 0x00] 9) := by
  decide +kernel

/-- Rule R168, vector V-I12: `110 011111111`. -/
theorem test_decode_dod9 :
    decodeSymbol {} .intLater (Reader.new [0xCF, 0xF0]) = .symbol (.i64Dod9 0x0FF) (readerAt [0xCF, 0xF0] 12) := by
  decide +kernel

/-- Rule R169, vector V-I15: `1110 100000000000`. -/
theorem test_decode_dod12 :
    decodeSymbol {} .intLater (Reader.new [0xE8, 0x00]) = .symbol (.i64Dod12 0x800) (readerAt [0xE8, 0x00] 16) := by
  decide +kernel

/-- Rule R170, vector V-I18: `1111` and the 64 bits of 5. -/
theorem test_decode_dod64 :
    decodeSymbol {} .intLater (Reader.new [0xF0, 0, 0, 0, 0, 0, 0, 0, 0x5E]) =
      .symbol (.i64Dod64 5) (readerAt [0xF0, 0, 0, 0, 0, 0, 0, 0, 0x5E] 68) := by decide +kernel

/-- Vector V-I7: the prefix `1111` is read, then four bits are too few for the payload. -/
theorem test_decode_dod64_short :
    decodeSymbol {} .intLater (Reader.new [0xFF]) = .exhausted { readerAt [0xFF] 4 with failed := true } := by decide +kernel

/-- Rule R133: the 64 bits of the pattern of 1.0. -/
theorem test_decode_f64_first :
    decodeSymbol {} .floatFirst (Reader.new [0x3F, 0xF0, 0, 0, 0, 0, 0, 0]) =
      .symbol (.f64First 0x3FF0000000000000) (readerAt [0x3F, 0xF0, 0, 0, 0, 0, 0, 0] 64) := by decide +kernel

/-- Program P2: `0`, then `11 000001 001101 1111111111101`. -/
theorem test_decode_f64_repeat :
    decodeSymbol {} (.floatLater none) (Reader.new [0x60, 0x9B, 0xFF, 0xD0]) =
      .symbol .f64Repeat (readerAt [0x60, 0x9B, 0xFF, 0xD0] 1) := by decide +kernel

theorem test_decode_f64_xor_new :
    decodeSymbol {} (.floatLater none) (readerAt [0x60, 0x9B, 0xFF, 0xD0] 1) =
      .symbol (.f64XorNew 1 13 0x1FFD) (readerAt [0x60, 0x9B, 0xFF, 0xD0] 28) := by decide +kernel

/-- Program P4: `10 0000000000010` under the window `(1, 50)`. -/
theorem test_decode_f64_xor_reuse :
    decodeSymbol {} (.floatLater (some ⟨1, 50⟩)) (Reader.new [0x80, 0x04]) =
      .symbol (.f64XorReuse 2) (readerAt [0x80, 0x04] 15) := by decide +kernel

/-- Vector V-F11: `11 000001`, and nothing for `M`. -/
theorem test_decode_f64_short :
    decodeSymbol {} (.floatLater none) (Reader.new [0xC1]) = .exhausted { readerAt [0xC1] 8 with failed := true } := by
  decide +kernel

/-- The records of F1, by its field table. -/
theorem test_decode_header : decodedOk (decodeHeader (FileBuf.ofBytes f1)) = some f1Header := by decide +kernel

theorem test_decode_trailer_footer : decodedOk (decodeTrailerFooter (FileBuf.ofBytes f1)) = some f1Footer := by decide +kernel

theorem test_decode_descriptor :
    decodedOk (decodeDescriptor (FileBuf.ofBytes f1) 85) = some f1Col0 ∧
    decodedOk (decodeDescriptor (FileBuf.ofBytes f1) 119) = some f1Col1 := by decide +kernel

theorem test_decode_column :
    decodedOk (decodeColumn (FileBuf.ofBytes f1) 57 20) =
      some [0x3F, 0xF0, 0, 0, 0, 0, 0, 0, 0x60, 0x9B, 0xFF, 0xD0] := by decide +kernel

/-! ### READ_BITS -/

/-- Vector V-B1. -/
theorem test_read_bits_b1 :
    reads (Reader.new [0xB4, 0x6D, 0x1E]) [1, 3, 4, 8, 4, 5, 1] =
      [(some 1, 1), (some 3, 4), (some 4, 8), (some 109, 16), (some 1, 20), (none, 20), (none, 20)] := by decide +kernel

/-- Vector V-B4: a 64-bit read that touches nine bytes. -/
theorem test_read_bits_b4 :
    reads (Reader.new [0x80, 0, 0, 0, 0, 0, 0, 0, 0x7F]) [1, 64, 7, 1] =
      [(some 1, 1), (some 0, 65), (some 127, 72), (none, 72)] := by decide +kernel

/-- Vector V-B7: the concatenation law. -/
theorem test_read_bits_b7 :
    reads (Reader.new [0xD2, 0xC7, 0x5A]) [5, 9] = [(some 26, 5), (some 177, 14)] ∧
    reads (Reader.new [0xD2, 0xC7, 0x5A]) [14] = [(some 13489, 14)] ∧
    reads (Reader.new [0xD2, 0xC7]) [13, 4] = [(some 6744, 13), (none, 13)] ∧
    reads (Reader.new [0xD2, 0xC7]) [17] = [(none, 0)] := by decide +kernel

/-- Vector V-B8: widths 0 and 65. -/
theorem test_read_bits_b8 :
    readBits .stickyFail (Reader.new [0xB4]) 0 = .refused .width ∧
    readBits .stickyFail (Reader.new [0xB4]) 65 = .refused .width := by decide +kernel

/-! ### The instructions, one step each -/

/-- Rule R133, vector V-F2. -/
theorem test_f64_first :
    (goesOn (step (floats (Reader.new (word one)) 1 [] none))).map (fun t => (t.fd.out, t.fd.prevValue, t.windowValid)) =
      some ([one], some one, false) := by decide +kernel

/-- Rule R135, vector V-F5. -/
theorem test_f64_repeat :
    (goesOn (step (floats (Reader.new [0x00]) 9 [one] none))).map (fun t => (t.fd.out, t.fd.prevValue)) =
      some ([one, one], some one) := by decide +kernel

/-- Rule R136, program P4: 2.5 to 3.5 in the window `(1, 50)`. -/
theorem test_f64_xor_reuse :
    (goesOn (step (floats (Reader.new [0x80, 0x04]) 6 [0x4004000000000000] (some ⟨1, 50⟩)))).map
      (fun t => (t.fd.prevValue, t.fd.window)) = some (some 0x400C000000000000, some ⟨1, 50⟩) := by decide +kernel

/-- Rule R137, program P2: 1.0 to 2.5. -/
theorem test_f64_xor_new :
    (goesOn (step (floats (readerAt [0x60, 0x9B, 0xFF, 0xD0] 1) 3 [one, one] none))).map
      (fun t => (t.fd.prevValue, t.fd.window)) = some (some 0x4004000000000000, some ⟨1, 50⟩) := by decide +kernel

/-- Vector V-F9: `L = 63`, `T = 0`. -/
theorem test_f64_xor_new_top :
    (goesOn (step (floats (Reader.new [0xFF, 0x06]) 2 [0] none))).map (fun t => (t.fd.out, t.fd.window)) =
      some ([0, 1], some ⟨63, 0⟩) := by decide +kernel

/-- Vectors V-F12, V-F12b: `M = 0`. -/
theorem test_f64_xor_new_reserved :
    stops (step (floats (Reader.new [0xC0, 0x00]) 2 [one] none)) = some (.reservedSymbol .badWindow) ∧
    (goesOn (step (floats (Reader.new [0xC0, 0x00]) 2 [one] none .softStop))).map (fun t => t.result) =
      some (some (.floats [one])) := by decide +kernel

/-- Vector V-F14: `10` with no window. -/
theorem test_f64_xor_reuse_reserved :
    stops (step (floats (Reader.new [0xBF, 0xFF, 0xC0]) 2 [one] none)) = some (.reservedSymbol .reuseBeforeWindow) := by
  decide +kernel

/-- Rule R163, vector V-I2. -/
theorem test_i64_first :
    (goesOn (step (ints (Reader.new [0, 0, 0, 0, 0, 0, 0x03, 0xE8, 0xFF]) 1 []))).map
      (fun t => (t.id.out, t.id.prevValue, t.id.prevDelta)) = some ([1000], some 1000, none) := by decide +kernel

/-- Rule R164, vector V-I4, and vector V-I17: the sum wraps. -/
theorem test_i64_first_delta :
    (goesOn (exec (.i64FirstDelta 1) (ints (Reader.new []) 2 [1000]))).map (fun t => (t.id.out, t.id.prevDelta)) =
      some ([1000, 1001], some 1) := by decide +kernel

theorem test_i64_first_delta_wraps :
    (goesOn (exec (.i64FirstDelta 1) (ints (Reader.new []) 3 [0x7FFFFFFFFFFFFFFF]))).map (fun t => t.id.prevValue) =
      some (some 0x8000000000000000) := by decide +kernel

/-- Rule R166, program P1. -/
theorem test_i64_dod0 :
    (goesOn (step (ints (Reader.new [0x00]) 3 [1000, 1001]))).map (fun t => (t.id.prevValue, t.id.prevDelta)) =
      some (some 1002, some 1) := by decide +kernel

/-- Rule R167, program P3: value #4, then value #5. -/
theorem test_i64_dod7 :
    (goesOn (exec (.i64Dod7 0x05) (ints (Reader.new []) 11 [1000, 1010, 1020]))).map (fun t => (t.id.prevValue, t.id.prevDelta)) =
      some (some 1035, some 15) := by decide +kernel

theorem test_i64_dod7_negative :
    (goesOn (exec (.i64Dod7 0x40) (ints (Reader.new []) 11 [1020, 1035]))).map (fun t => (t.id.prevValue, t.id.prevDelta)) =
      some (some 986, some (-49)) := by decide +kernel

/-- Rule R168, program P3: value #6, then value #7. -/
theorem test_i64_dod9 :
    (goesOn (exec (.i64Dod9 0xC8) (ints (Reader.new []) 11 [1035, 986]))).map (fun t => (t.id.prevValue, t.id.prevDelta)) =
      some (some 1137, some 151) := by decide +kernel

theorem test_i64_dod9_negative :
    (goesOn (exec (.i64Dod9 0x100) (ints (Reader.new []) 11 [986, 1137]))).map (fun t => (t.id.prevValue, t.id.prevDelta)) =
      some (some 1032, some (-105)) := by decide +kernel

/-- Rule R169, program P3: value #8, then value #9. -/
theorem test_i64_dod12 :
    (goesOn (exec (.i64Dod12 0x7FF) (ints (Reader.new []) 11 [1137, 1032]))).map (fun t => (t.id.prevValue, t.id.prevDelta)) =
      some (some 2974, some 1942) := by decide +kernel

theorem test_i64_dod12_negative :
    (goesOn (exec (.i64Dod12 0x800) (ints (Reader.new []) 11 [1032, 2974]))).map (fun t => (t.id.prevValue, t.id.prevDelta)) =
      some (some 2868, some (-106)) := by decide +kernel

/-- Rule R170, program P3: value #10, then value #11. -/
theorem test_i64_dod64 :
    (goesOn (exec (.i64Dod64 100000) (ints (Reader.new []) 11 [2974, 2868]))).map (fun t => (t.id.prevValue, t.id.prevDelta)) =
      some (some 102762, some 99894) := by decide +kernel

theorem test_i64_dod64_negative :
    (goesOn (exec (.i64Dod64 0xFFFFFFFFFFFE7960) (ints (Reader.new []) 11 [2868, 102762]))).map
      (fun t => (t.id.prevValue, t.id.prevDelta)) = some (some 102656, some (-106)) := by decide +kernel

/-- Rules R193, R194, vectors V-C1, V-C4. -/
theorem test_header :
    (goesOn (step (parse (FileBuf.ofBytes f1) { fileLen := some 158 } 0))).map (fun t => t.cp.header) =
      some (some f1Header) := by decide +kernel

theorem test_header_magic :
    (goesOn (exec (.header { f1Header with magic := 0x51524150 }) (parse (FileBuf.ofBytes f1) {} 0))).map (fun t => t.result) =
      some (some (.formatError .badMagic)) := by decide +kernel

/-- Rules R195 to R198, vectors V-C1, V-C5. -/
theorem test_trailer_footer :
    (goesOn (step (parse (FileBuf.ofBytes f1) { header := some f1Header } 0))).map
      (fun t => (t.cp.footer, t.cp.footerStart, t.ptr)) = some (some f1Footer, some 77, 85) := by decide +kernel

theorem test_trailer_footer_before_header :
    (goesOn (exec (.trailerFooter ⟨123, 1, 2⟩) (parse (FileBuf.ofBytes f1) {} 0))).map (fun t => t.result) =
      some (some (.formatError .footerBeforeHeader)) := by decide +kernel

/-- Rule R199, program P5: the first descriptor stands at 85 and the second at 119. -/
theorem test_descriptor :
    (goesOn (step (parse (FileBuf.ofBytes f1) { header := some f1Header, footer := some f1Footer } 85))).map
      (fun t => (t.cp.col0, t.ptr)) = some (some f1Col0, 119) := by decide +kernel

theorem test_descriptor_second :
    (goesOn (step (parse (FileBuf.ofBytes f1) { f1Cp with col1 := none } 119))).map (fun t => (t.cp.col0, t.cp.col1)) =
      some (some f1Col0, some f1Col1) := by decide +kernel

/-- Rule R202, program P5: slice 0 is P1's 17 bytes, `FILE[40..57)`. -/
theorem test_column :
    (goesOn (step (parse (FileBuf.ofBytes f1) f1Cp 154))).map (fun t => (t.cp.slice0, t.cp.slice1)) =
      some (some [0, 0, 0, 0, 0, 0, 0x03, 0xE8, 0, 0, 0, 0, 0, 0, 0, 0x01, 0x00], none) := by decide +kernel

/-- Vector V-C14: `offset + size` is not wrapped. -/
theorem test_column_no_wrap :
    (goesOn (step (parse (FileBuf.ofBytes f1) { f1Cp with col0 := some { f1Col0 with offset := 0xFFFFFFFFFFFFFFF0 } } 154))).map
      (fun t => t.result) = some (some (.formatError .outOfRange)) := by decide +kernel

/-- Rules R28, R40, R140: under a pair the window registers start as the pair and `fd.window_valid` as 0; a reuse-window block reads
64 bits under `(0, 0)` and leaves the flag, and a new-window block sets it. -/
theorem test_window_parameter :
    (goesOn (step { asked (.decodeF64 [0x00] 2) with params := { windowReset := some ⟨0, 0⟩ } })).map
      (fun t => (t.windowValid, t.fd.window)) = some (false, some ⟨0, 0⟩) ∧
    (goesOn (exec (.f64XorReuse 1) { State.reset with fd := { prevValue := some one, window := some ⟨0, 0⟩ } })).map
      (fun t => (t.windowValid, t.fd.prevValue)) = some (false, some 0x3FF0000000000001) ∧
    (goesOn (exec (.f64XorNew 1 13 0x1FFD) { State.reset with fd := { prevValue := some one, window := some ⟨0, 0⟩ } })).map
      (fun t => (t.windowValid, t.fd.window)) = some (true, some ⟨1, 50⟩) := by decide +kernel

/-! ### The ends of an operation -/

/-- Rules R174, R278: a soft stop delivers the values so far, and the decoder's state is discarded. -/
theorem test_decode_discards :
    (goesOn (step (ints (Reader.new []) 3 [1000, 1001]))).map (fun t => (t.phase, t.result, t.id)) =
      some (.idle, some (.ints [1000, 1001]), {}) := by decide +kernel

/-- Rules R232, R234: within READ_FILE, the pairing of a column cut short, and the return of the rows. -/
theorem test_pairing :
    (goesOn (step { State.reset with phase := .pairing, orch := { ts := [1000, 1001, 1002], val := [one, one] } })).map
      (fun t => (t.phase, t.orch.result)) = some (.returning, some (.rows [(1000, one), (1001, one)])) := by decide +kernel

theorem test_returning :
    (goesOn (step { State.reset with phase := .returning, orch := { rows := [(1000, one)], result := some (.rows [(1000, one)]) } })).map
      (fun t => (t.phase, t.result, t.orch)) = some (.idle, some (.rows [(1000, one)]), {}) := by decide +kernel

/-- Rules R234, R247, vector V-C2: a FormatError within READ_FILE is its result, and nothing of the parse is left. -/
theorem test_format_error_in_read_file :
    (goesOn (step { parse (FileBuf.ofBytes (f1.take 35)) { fileLen := some 35 } 0 with phase := .parsing .readFile })).map
      (fun t => (t.phase, t.orch, t.cp)) = some (.returning, { result := some (.formatError .fileTooSmall) }, {}) := by
  decide +kernel

/-! ### Whole operations, as their algorithms compute them -/

/-- Program P3. -/
theorem test_program_p3 :
    Transaction.decodeI64
      ([0x00, 0x00, 0x00, 0x00, 0x00, 0x00, 0x03, 0xE8, 0x00, 0x00, 0x00, 0x00, 0x00, 0x00, 0x00, 0x0A] ++
       [0x41, 0x68, 0x19, 0x91, 0xA0, 0x1C, 0xFF, 0xFD, 0x00, 0x1E, 0x00, 0x00, 0x00, 0x00, 0x00, 0x03] ++
       [0x0D, 0x41, 0xFF, 0xFF, 0xFF, 0xFF, 0xFF, 0xFF, 0xCF, 0x2C, 0x00]) 11 =
      [1000, 1010, 1020, 1035, 986, 1137, 1032, 2974, 2868, 102762, 102656] := by decide +kernel

/-- Program P4. -/
theorem test_program_p4 :
    (Transaction.decodeF64 {}
      [0x3F, 0xF0, 0x00, 0x00, 0x00, 0x00, 0x00, 0x00, 0x60, 0x9B, 0xFF, 0xD8, 0x00, 0x4C, 0x03, 0xB0, 0x03] 6).toOption =
      some [0x3FF0000000000000, 0x3FF0000000000000, 0x4004000000000000, 0x400C000000000000, 0x400C000000000000,
        0x8000000000000000] := by decide +kernel

/-- Program P5. -/
theorem test_program_p5 :
    (Transaction.readFile {} f1).toOption =
      some (.rows [(1000, 0x3FF0000000000000), (1001, 0x3FF0000000000000), (1002, 0x4004000000000000)]) := by decide +kernel

/-! ### The table's words, as the host asks about them -/

theorem test_table_word_runs :
    (goesOn (step (State.reset.withFetchWord 16 0b1110100000000000))).map (fun t => t.id.out) = some [0, 0, -2048] ∧
    (goesOn (step (State.reset.withFetchWord 64 0x3FF0000000000000))).map (fun t => t.fd.out) = some [one] ∧
    (goesOn (step (State.reset.withFetchWord 8 0))).map (fun t => t.fd.out) = some [0, 0] ∧
    (goesOn (step (State.reset.withFetchWord 32 0x50415251))).map (fun t => t.cp.header.isSome) = some true ∧
    (goesOn (step (State.reset.withFetchWord 32 2))).map (fun t => t.cp.footerStart) = some (some 32) := by decide +kernel

/-! ### Witnesses: for each statement with hypotheses, a state and operands that meet them, clause by clause -/

/-- `SymbolDecodesFromItsEncoding`: the widest default payload, with bits after it; the fullest window sum. -/
theorem witness_symbol_encoding :
    (Instr.f64XorNew 63 1 1).fits .refuse (.floatLater none) = true ∧ (Reader.new [0xFF, 0x06]).failed = false ∧
    (Reader.new [0xFF, 0x06]).unread = encodeSymbol .refuse (.floatLater none) (.f64XorNew 63 1 1) ++ [false] := by decide +kernel

theorem witness_symbol_encoding_reuse :
    (Instr.f64XorReuse 1).fits .refuse (.floatLater (some ⟨63, 0⟩)) = true ∧
    (readerAt [0x05] 5).unread = encodeSymbol .refuse (.floatLater (some ⟨63, 0⟩)) (.f64XorReuse 1) ++ [] := by decide +kernel

/-- `DecodedSymbolHasItsEncoding`. -/
theorem witness_decoded_symbol :
    decodeSymbol {} .intLater (Reader.new [0xA0, 0x00]) = .symbol (.i64Dod7 0x40) (readerAt [0xA0, 0x00] 9) := by
  decide +kernel

/-- `EveryBitStringIsAnIntStream`: a reader with one bit less than the longest symbol, and one of 68 bits. -/
theorem witness_int_stream :
    (Reader.new [0xFF]).failed = false ∧
    decodeSymbol {} .intLater (readerAt (List.replicate 9 0xFF) 5) =
      .exhausted { readerAt (List.replicate 9 0xFF) 9 with failed := true } ∧
    decodeSymbol {} .intLater (readerAt (List.replicate 9 0xFF) 4) =
      .symbol (.i64Dod64 (-1)) (readerAt (List.replicate 9 0xFF) 72) := by decide +kernel

/-- `ReservedFloatSymbols`: `M = 0`; `L + M = 65`; `M = 0` with `L = 1` under `MB0_IS_64`; no window. -/
theorem witness_reserved_zero :
    FloatAt (floats (Reader.new [0xC0, 0x00]) 2 [one] none) (Reader.new [0xC0, 0x00]) ∧
    (floats (Reader.new [0xC0, 0x00]) 2 [one] none).fd.out ≠ [] ∧
    (floats (Reader.new [0xC0, 0x00]) 2 [one] none).params.reservedPolicy ≠ .softStop ∧
    (floats (Reader.new [0xC0, 0x00]) 2 [one] none).params.reservedPolicy ≠ .mb0Is64 ∧
    (Reader.new [0xC0, 0x00]).unread = [true, true] ++ msbBits 6 0 ++ msbBits 6 0 ++ [false, false] :=
  ⟨⟨⟨.host, rfl⟩, rfl, rfl, by decide⟩, by decide, by decide, by decide, by decide +kernel⟩

theorem witness_reserved_sum :
    FloatAt (floats (Reader.new [0xC2, 0xFF]) 2 [one] none .softStop) (Reader.new [0xC2, 0xFF]) ∧
    (floats (Reader.new [0xC2, 0xFF]) 2 [one] none .softStop).fd.out ≠ [] ∧
    (floats (Reader.new [0xC2, 0xFF]) 2 [one] none .softStop).params.reservedPolicy = .softStop ∧
    (Reader.new [0xC2, 0xFF]).unread = [true, true] ++ msbBits 6 2 ++ msbBits 6 63 ++ [true, true] ∧
    64 < (2 : BitVec 6).toNat + (63 : BitVec 6).toNat :=
  ⟨⟨⟨.host, rfl⟩, rfl, rfl, by decide⟩, by decide, rfl, by decide +kernel, by decide⟩

theorem witness_reserved_mb0 :
    FloatAt (floats (Reader.new [0xC1, 0x00]) 2 [one] none .mb0Is64) (Reader.new [0xC1, 0x00]) ∧
    (Reader.new [0xC1, 0x00]).unread = [true, true] ++ msbBits 6 1 ++ msbBits 6 0 ++ [false, false] ∧
    ¬((floats (Reader.new [0xC1, 0x00]) 2 [one] none .mb0Is64).params.reservedPolicy = .mb0Is64 ∧
      (1 : BitVec 6) = 0 ∧ (0 : BitVec 6) = 0) :=
  ⟨⟨⟨.host, rfl⟩, rfl, rfl, by decide⟩, by decide +kernel, by decide⟩

theorem witness_reserved_reuse :
    FloatAt (floats (Reader.new [0x80]) 2 [one] none .mb0Is64) (Reader.new [0x80]) ∧
    (floats (Reader.new [0x80]) 2 [one] none .mb0Is64).fd.out ≠ [] ∧
    (floats (Reader.new [0x80]) 2 [one] none .mb0Is64).windowUsable = false ∧
    (Reader.new [0x80]).unread = [true, false] ++ List.replicate 6 false :=
  ⟨⟨⟨.host, rfl⟩, rfl, rfl, by decide⟩, by decide, by decide, by decide +kernel⟩

theorem witness_reserved_reuse_by_the_flag :
    WindowLegal (floats (Reader.new [0x80]) 2 [one] none) ∧ (floats (Reader.new [0x80]) 2 [one] none).windowValid = false ∧
    (floats (Reader.new [0x80]) 2 [one] none).params.windowReset = none :=
  ⟨⟨rfl, nofun, nofun, nofun⟩, rfl, rfl⟩

/-- `RecordsDecodeFromTheirEncoding`: the shortest lengths each clause allows. -/
theorem witness_records :
    f1Header.identifier.length = 4 ∧ (List.replicate 8 (0xAA : Byte)).length = 8 ∧ 4 ≤ (List.replicate 4 (0 : Byte)).length ∧
    32 ≤ (List.replicate 32 (0 : Byte)).length ∧ (⟨8, 1, 2⟩ : FooterFields).footerSize.toNat = 8 + ([] : List Byte).length ∧
    (⟨0, [], 0, 0, 8, 0⟩ : DescriptorFields).wellFormed = true ∧ f1Col0.wellFormed = true ∧
    (8 : Word).toNat = 8 + ([] : List Byte).length ∧ (1 : Word).toNat = [(0 : Byte)].length := by decide

/-- `ReadBitsTakesTheNextBits`: the least width; the greatest, with not a bit to spare. -/
theorem witness_read_bits :
    (Reader.new [0xB4]).failed = false ∧ 1 ≤ (Reader.new [0xB4]).avail ∧
    64 ≤ (Reader.new (word one)).avail ∧ (Reader.new (word one)).avail = 64 := by decide +kernel

/-- `ReadBitsWithoutAValue`: one bit too few; a reader that has failed. -/
theorem witness_read_bits_short :
    (readerAt [0xB4] 5).failed = false ∧ (readerAt [0xB4] 5).avail < 4 ∧
    ({ readerAt [0xB4] 5 with failed := true } : Reader).failed = true := by decide +kernel

/-- `ReadBitsConcatenates`: 32 and 32 of 64 bits; 63 and 1 of 63. -/
theorem witness_read_bits_concatenates :
    32 + 32 ≤ (Reader.new (word one)).avail ∧ 63 ≤ (readerAt (word one) 1).avail ∧ (readerAt (word one) 1).avail < 63 + 1 ∧
    (readerAt (word one) 1).failed = false := by decide +kernel

/-- `NewReaderStartsAtBitZero`. -/
theorem witness_new_reader :
    (asked (.newReader [0xB4])).phase = .idle ∧ (asked (.newReader [0xB4])).requests = .newReader [0xB4] :: [] := by decide

/-- A machine asked to read `n` bits of its one reader. -/
def reading (rd : Reader) (n : Int) (policy : ReadAfterFail := .stickyFail) : State :=
  { State.reset with params := { readAfterFail := policy }, readers := [rd], requests := [.readBits 0 n] }

/-- `HostReadBitsDelivers`: widths 0 and 65; a failed reader under each policy; one bit too few; just enough. -/
theorem witness_host_read_bits :
    (reading (Reader.new [0xB4]) 8).phase = .idle ∧ (reading (Reader.new [0xB4]) 8).requests = .readBits 0 8 :: [] ∧
    (reading (Reader.new [0xB4]) 8).readers[0]? = some (Reader.new [0xB4]) ∧ (Reader.new [0xB4]).failed = false ∧
    (8 : Int) ≤ ((Reader.new [0xB4]).avail : Int) := by decide +kernel

theorem witness_host_read_bits_short :
    (reading (Reader.new [0xB4]) 9).phase = .idle ∧ (reading (Reader.new [0xB4]) 9).requests = .readBits 0 9 :: [] ∧
    (reading (Reader.new [0xB4]) 9).readers[0]? = some (Reader.new [0xB4]) ∧ ((Reader.new [0xB4]).avail : Int) < 9 := by
  decide +kernel

theorem witness_host_read_bits_width :
    (reading (Reader.new [0xB4]) 0).requests = .readBits 0 0 :: [] ∧ (reading (Reader.new [0xB4]) 65).requests = .readBits 0 65 :: [] ∧
    (reading (Reader.new [0xB4]) 0).phase = .idle ∧ (reading (Reader.new [0xB4]) 65).phase = .idle ∧
    (reading (Reader.new [0xB4]) 0).readers[0]? = some (Reader.new [0xB4]) ∧
    (reading (Reader.new [0xB4]) 65).readers[0]? = some (Reader.new [0xB4]) := by decide +kernel

/-- A reader that has failed with bits left. -/
def failedReader : Reader := { readerAt [0xB4] 5 with failed := true }

theorem witness_host_read_bits_failed :
    (reading failedReader 1).phase = .idle ∧ (reading failedReader 1).requests = .readBits 0 1 :: [] ∧
    (reading failedReader 1).readers[0]? = some failedReader ∧ failedReader.failed = true ∧
    (reading failedReader 1).params.readAfterFail = .stickyFail ∧
    (reading failedReader 1 .refuse).params.readAfterFail = .refuse := by decide +kernel

/-- `SignExtension`: widths 1 and 64 are in range, and both branches are met. -/
theorem witness_sign_extension :
    1 ≤ 1 ∧ (0 : BitVec 1).toNat < 2 ^ (1 - 1) ∧ ¬(1 : BitVec 1).toNat < 2 ^ (1 - 1) ∧
    ¬(0x8000000000000000 : BitVec 64).toNat < 2 ^ (64 - 1) := by decide

/-- `NewWindowPayloadStaysInItsWindow`: `T = 0`, the widest payload, and the width of 64. -/
theorem witness_new_window :
    newWindow .refuse 63 1 = some (1, ⟨63, 0⟩) ∧ (1 : Word).toNat < 2 ^ 1 ∧
    newWindow .refuse 0 63 = some (63, ⟨0, 1⟩) ∧ (0x7FFFFFFFFFFFFFFF : Word).toNat < 2 ^ 63 ∧
    newWindow .mb0Is64 0 0 = some (64, ⟨0, 0⟩) ∧ (0xFFFFFFFFFFFFFFFF : Word).toNat < 2 ^ 64 := by decide

/-- `F64FirstSymbol`: with 64 bits, and with 63. -/
theorem witness_f64_first :
    FloatAt (floats (Reader.new (word one)) 1 [] none) (Reader.new (word one)) ∧
    (floats (Reader.new (word one)) 1 [] none).fd.out = [] ∧ (Reader.new (word one)).unread = msbBits 64 one.toNat ++ [] :=
  ⟨⟨⟨.host, rfl⟩, rfl, rfl, by decide⟩, rfl, by decide +kernel⟩

theorem witness_f64_first_short :
    FloatAt (floats (readerAt (word one) 1) 1 [] none) (readerAt (word one) 1) ∧
    (floats (readerAt (word one) 1) 1 [] none).fd.out = [] ∧ (readerAt (word one) 1).avail < 64 :=
  ⟨⟨⟨.host, rfl⟩, rfl, rfl, by decide⟩, rfl, by decide +kernel⟩

/-- `F64RepeatSymbol`. -/
theorem witness_f64_repeat :
    FloatAt (floats (readerAt [0x00] 7) 2 [one] none) (readerAt [0x00] 7) ∧
    (floats (readerAt [0x00] 7) 2 [one] none).fd.out ≠ [] ∧
    (floats (readerAt [0x00] 7) 2 [one] none).fd.prevValue = some one ∧ (readerAt [0x00] 7).unread = false :: [] :=
  ⟨⟨⟨.host, rfl⟩, rfl, rfl, by decide⟩, by decide, rfl, by decide +kernel⟩

/-- `F64XorReuseSymbol`: the narrowest window. -/
theorem witness_f64_xor_reuse :
    FloatAt (floats (readerAt [0x05] 5) 2 [one] (some ⟨63, 0⟩)) (readerAt [0x05] 5) ∧
    (floats (readerAt [0x05] 5) 2 [one] (some ⟨63, 0⟩)).fd.out ≠ [] ∧
    (floats (readerAt [0x05] 5) 2 [one] (some ⟨63, 0⟩)).fd.prevValue = some one ∧
    (floats (readerAt [0x05] 5) 2 [one] (some ⟨63, 0⟩)).fd.window = some ⟨63, 0⟩ ∧ 63 + 0 ≤ 63 ∧
    (1 : Word).toNat < 2 ^ (64 - 63 - 0) ∧
    (readerAt [0x05] 5).unread = [true, false] ++ msbBits (64 - 63 - 0) (1 : Word).toNat ++ [] :=
  ⟨⟨⟨.host, rfl⟩, rfl, rfl, by decide⟩, by decide, rfl, rfl, by decide, by decide, by decide +kernel⟩

/-- `F64XorNewSymbol`: `L + M = 64`. -/
theorem witness_f64_xor_new :
    FloatAt (floats (Reader.new [0xFF, 0x06]) 2 [0] none) (Reader.new [0xFF, 0x06]) ∧
    (floats (Reader.new [0xFF, 0x06]) 2 [0] none).fd.out ≠ [] ∧
    (floats (Reader.new [0xFF, 0x06]) 2 [0] none).fd.prevValue = some 0 ∧ (1 : BitVec 6) ≠ 0 ∧
    (63 : BitVec 6).toNat + (1 : BitVec 6).toNat ≤ 64 ∧ (1 : Word).toNat < 2 ^ (1 : BitVec 6).toNat ∧
    (Reader.new [0xFF, 0x06]).unread = [true, true] ++ msbBits 6 63 ++ msbBits 6 1 ++ msbBits 1 1 ++ [false] :=
  ⟨⟨⟨.host, rfl⟩, rfl, rfl, by decide⟩, by decide, rfl, by decide, by decide, by decide, by decide +kernel⟩

/-- The block of vector V-F12d. -/
def wideBlock : Reader := Reader.new [0xC0, 0x02, 0, 0, 0, 0, 0, 0, 0, 0x04]

/-- `F64XorNewSixtyFourBits`. -/
theorem witness_f64_xor_new_64 :
    FloatAt (floats wideBlock 2 [one] none .mb0Is64) wideBlock ∧ (floats wideBlock 2 [one] none .mb0Is64).fd.out ≠ [] ∧
    (floats wideBlock 2 [one] none .mb0Is64).fd.prevValue = some one ∧
    (floats wideBlock 2 [one] none .mb0Is64).params.reservedPolicy = .mb0Is64 ∧
    wideBlock.unread =
      [true, true] ++ List.replicate 12 false ++ msbBits 64 (0x8000000000000001 : Word).toNat ++ [false, false] :=
  ⟨⟨⟨.host, rfl⟩, rfl, rfl, by decide⟩, by decide, rfl, rfl, by decide +kernel⟩

/-- `I64FirstSymbol`: with 64 bits, and with 63. -/
theorem witness_i64_first :
    IntAt (ints (Reader.new (word 1000)) 1 []) (Reader.new (word 1000)) ∧ (ints (Reader.new (word 1000)) 1 []).id.out = [] ∧
    (Reader.new (word 1000)).unread = msbBits 64 (1000 : Word).toNat ++ [] :=
  ⟨⟨⟨.host, rfl⟩, rfl, rfl, by decide⟩, rfl, by decide +kernel⟩

theorem witness_i64_first_short :
    IntAt (ints (readerAt (word 1000) 1) 1 []) (readerAt (word 1000) 1) ∧
    (ints (readerAt (word 1000) 1) 1 []).id.out = [] ∧ (readerAt (word 1000) 1).avail < 64 :=
  ⟨⟨⟨.host, rfl⟩, rfl, rfl, by decide⟩, rfl, by decide +kernel⟩

/-- `I64FirstDeltaSymbol`: with 64 bits, and with 63. -/
theorem witness_i64_first_delta :
    IntAt (ints (Reader.new (word 1)) 2 [1000]) (Reader.new (word 1)) ∧
    (ints (Reader.new (word 1)) 2 [1000]).id.out = [1000] ∧
    (ints (Reader.new (word 1)) 2 [1000]).id.prevValue = some 1000 ∧
    (Reader.new (word 1)).unread = msbBits 64 (1 : Word).toNat ++ [] :=
  ⟨⟨⟨.host, rfl⟩, rfl, rfl, by decide⟩, rfl, rfl, by decide +kernel⟩

theorem witness_i64_first_delta_short :
    IntAt (ints (readerAt (word 1) 1) 2 [1000]) (readerAt (word 1) 1) ∧
    (ints (readerAt (word 1) 1) 2 [1000]).id.out = [1000] ∧ (readerAt (word 1) 1).avail < 64 :=
  ⟨⟨⟨.host, rfl⟩, rfl, rfl, by decide⟩, rfl, by decide +kernel⟩

/-- `DodSymbolsStep`: the state and the bits of each clause. -/
theorem witness_dod0 :
    IntAt (ints (readerAt [0x00] 7) 3 [1000, 1001]) (readerAt [0x00] 7) ∧
    2 ≤ (ints (readerAt [0x00] 7) 3 [1000, 1001]).id.out.length ∧ (readerAt [0x00] 7).unread = false :: [] :=
  ⟨⟨⟨.host, rfl⟩, rfl, rfl, by decide⟩, by decide, by decide +kernel⟩

theorem witness_dod7 :
    IntAt (ints (Reader.new [0xA0, 0x00]) 3 [0, 0]) (Reader.new [0xA0, 0x00]) ∧
    2 ≤ (ints (Reader.new [0xA0, 0x00]) 3 [0, 0]).id.out.length ∧
    (Reader.new [0xA0, 0x00]).unread = [true, false] ++ msbBits 7 (0x40 : BitVec 7).toNat ++ List.replicate 7 false :=
  ⟨⟨⟨.host, rfl⟩, rfl, rfl, by decide⟩, by decide, by decide +kernel⟩

theorem witness_dod9 :
    IntAt (ints (Reader.new [0xD0, 0x00]) 3 [0, 0]) (Reader.new [0xD0, 0x00]) ∧
    2 ≤ (ints (Reader.new [0xD0, 0x00]) 3 [0, 0]).id.out.length ∧
    (Reader.new [0xD0, 0x00]).unread = [true, true, false] ++ msbBits 9 (0x100 : BitVec 9).toNat ++ List.replicate 4 false :=
  ⟨⟨⟨.host, rfl⟩, rfl, rfl, by decide⟩, by decide, by decide +kernel⟩

theorem witness_dod12 :
    IntAt (ints (Reader.new [0xE8, 0x00]) 3 [0, 0]) (Reader.new [0xE8, 0x00]) ∧
    2 ≤ (ints (Reader.new [0xE8, 0x00]) 3 [0, 0]).id.out.length ∧
    (Reader.new [0xE8, 0x00]).unread = [true, true, true, false] ++ msbBits 12 (0x800 : BitVec 12).toNat ++ [] :=
  ⟨⟨⟨.host, rfl⟩, rfl, rfl, by decide⟩, by decide, by decide +kernel⟩

/-- Nine bytes whose last 68 bits are `1111` and the least `i64`. -/
def leastDod64 : Reader := readerAt [0x0F, 0x80, 0, 0, 0, 0, 0, 0, 0] 4

theorem witness_dod64 :
    IntAt (ints leastDod64 3 [0, 0]) leastDod64 ∧ 2 ≤ (ints leastDod64 3 [0, 0]).id.out.length ∧
    leastDod64.unread = [true, true, true, true] ++ msbBits 64 (0x8000000000000000 : Word).toNat ++ [] :=
  ⟨⟨⟨.host, rfl⟩, rfl, rfl, by decide⟩, by decide, by decide +kernel⟩

/-- `RecordsExecute`: both sides of each condition; `footer_start` 31 and 32 in a file of 158 bytes. -/
theorem witness_records_execute :
    f1Header.magic = 0x50415251 ∧ ({ f1Header with magic := 0 } : HeaderFields).magic ≠ 0x50415251 ∧
    (((parse (FileBuf.ofBytes f1) f1Cp 0).file.len : Int) - 4 - (123 : U32).toNat < 32) ∧
    (32 ≤ ((parse (FileBuf.ofBytes f1) f1Cp 0).file.len : Int) - 4 - (122 : U32).toNat) ∧ (3 : U32) ≠ 2 ∧
    ({} : Container).col0 = none ∧ f1Cp.col0 ≠ none ∧ f1Cp.slice0 = none ∧ ({ f1Cp with slice0 := some [] }).slice0 ≠ none := by
  decide +kernel

/-- `FloatSymbolsFrame`, `IntSymbolsFrame`, `RecordsFrame`: an instruction of each that answers a next state. -/
theorem witness_frames :
    (∃ t, exec (.f64First one) State.reset = .next t) ∧ (∃ t, exec .f64Repeat (floats (Reader.new []) 2 [one] none) = .next t) ∧
    (∃ t, exec (.f64XorReuse 1) (floats (Reader.new []) 2 [one] (some ⟨63, 0⟩)) = .next t) ∧
    (∃ t, exec (.f64XorNew 63 1 1) (floats (Reader.new []) 2 [one] none) = .next t) ∧
    (∃ t, exec (.f64XorNew 0 0 1) (floats (Reader.new []) 2 [one] none .softStop) = .next t) ∧
    (∃ t, exec (.i64First 1000) State.reset = .next t) ∧ (∃ t, exec (.i64Dod7 5) (ints (Reader.new []) 3 [1000, 1001]) = .next t) ∧
    (∃ t, exec (.header f1Header) State.reset = .next t) ∧ (∃ t, exec (.trailerFooter f1Footer) State.reset = .next t) ∧
    (∃ t, exec (.descriptor f1Col0) State.reset = .next t) ∧ (∃ t, exec (.column [0]) State.reset = .next t) :=
  ⟨⟨_, rfl⟩, ⟨_, rfl⟩, ⟨_, rfl⟩, ⟨_, rfl⟩, ⟨_, rfl⟩, ⟨_, rfl⟩, ⟨_, rfl⟩, ⟨_, rfl⟩, ⟨_, rfl⟩, ⟨_, rfl⟩, ⟨_, rfl⟩⟩

/-- `StepRunsTheDecodedInstruction`: the two decodes; the four places of a parse of F1. -/
theorem witness_step_symbol :
    IntAt (ints (Reader.new [0xA0, 0x00]) 3 [0, 0]) (Reader.new [0xA0, 0x00]) ∧
    decodeSymbol {} (ints (Reader.new [0xA0, 0x00]) 3 [0, 0]).id.slot (Reader.new [0xA0, 0x00]) =
      .symbol (.i64Dod7 0x40) (readerAt [0xA0, 0x00] 9) ∧
    FloatAt (floats (Reader.new [0x00]) 2 [one] none) (Reader.new [0x00]) ∧
    decodeSymbol {} (floats (Reader.new [0x00]) 2 [one] none).fd.slot (Reader.new [0x00]) =
      .symbol .f64Repeat (readerAt [0x00] 1) :=
  ⟨⟨⟨.host, rfl⟩, rfl, rfl, by decide⟩, by decide +kernel, ⟨⟨.host, rfl⟩, rfl, rfl, by decide⟩, by decide +kernel⟩

theorem ok_of_decodedOk {α : Type} {x : Except Cause α} {a : α} (h : decodedOk x = some a) : x = .ok a := by
  cases x with
  | ok b => exact congrArg Except.ok (Option.some.inj h)
  | error c => cases h

theorem witness_step_record :
    AtHeader (parse (FileBuf.ofBytes f1) {} 0) ∧ decodeHeader (FileBuf.ofBytes f1) = .ok f1Header ∧
    AtFooter (parse (FileBuf.ofBytes f1) { header := some f1Header } 0) ∧
    decodeTrailerFooter (FileBuf.ofBytes f1) = .ok f1Footer ∧
    AtDescriptor (parse (FileBuf.ofBytes f1) { header := some f1Header, footer := some f1Footer } 85) ∧
    decodeDescriptor (FileBuf.ofBytes f1) 85 = .ok f1Col0 ∧
    AtColumn (parse (FileBuf.ofBytes f1) f1Cp 154) f1Col0 ∧
    AtColumn (parse (FileBuf.ofBytes f1) { f1Cp with slice0 := some [] } 154) f1Col1 ∧
    ∃ data, decodeColumn (FileBuf.ofBytes f1) f1Col0.offset f1Col0.size = .ok data :=
  ⟨⟨⟨.host, rfl⟩, rfl⟩, ok_of_decodedOk test_decode_header, ⟨⟨.host, rfl⟩, by decide, rfl⟩,
    ok_of_decodedOk test_decode_trailer_footer, ⟨⟨.host, rfl⟩, by decide, by decide, .inl rfl⟩,
    ok_of_decodedOk test_decode_descriptor.1,
    ⟨⟨.host, rfl⟩, by decide, by decide, f1Col0, f1Col1, rfl, rfl, .inl ⟨rfl, rfl⟩⟩,
    ⟨⟨.host, rfl⟩, by decide, by decide, f1Col0, f1Col1, rfl, rfl, .inr ⟨by decide, rfl, rfl⟩⟩,
    ⟨_, ok_of_decodedOk (x := decodeColumn (FileBuf.ofBytes f1) 32 25)
      (a := [0, 0, 0, 0, 0, 0, 0x03, 0xE8, 0, 0, 0, 0, 0, 0, 0, 0x01, 0x00]) (by decide +kernel)⟩⟩

/-- `IncompleteSymbolStopsTheDecode`: one bit is missing of `10 1000000`, and all of a float control bit. -/
theorem witness_incomplete_int :
    IntAt (ints (Reader.new [0xA0]) 3 [0, 0]) (Reader.new [0xA0]) ∧
    (Instr.i64Dod7 0x40).fits .refuse (ints (Reader.new [0xA0]) 3 [0, 0]).id.slot = true ∧ [false] ≠ [] ∧
    encodeSymbol .refuse (ints (Reader.new [0xA0]) 3 [0, 0]).id.slot (.i64Dod7 0x40) = (Reader.new [0xA0]).unread ++ [false] :=
  ⟨⟨⟨.host, rfl⟩, rfl, rfl, by decide⟩, by decide, by decide, by decide +kernel⟩

theorem witness_incomplete_float :
    FloatAt (floats (Reader.new []) 2 [one] none) (Reader.new []) ∧
    (Instr.f64Repeat).fits .refuse (floats (Reader.new []) 2 [one] none).fd.slot = true ∧
    encodeSymbol .refuse (floats (Reader.new []) 2 [one] none).fd.slot .f64Repeat = (Reader.new []).unread ++ [false] :=
  ⟨⟨⟨.host, rfl⟩, rfl, rfl, by decide⟩, by decide, by decide +kernel⟩

/-- `HowADecodeEnds`: no reader, and `count` values out, for each decoder; the four ends. -/
theorem witness_decode_ends :
    ({ State.reset with phase := .decodingInts .readFile } : State).id.rd = none ∧
    (ints (Reader.new []) 1 [1000]).id.count.toNat ≤ (ints (Reader.new []) 1 [1000]).id.out.length ∧
    ({ State.reset with phase := .decodingFloats .readFile } : State).fd.rd = none ∧
    (floats (Reader.new []) 1 [one] none).fd.count.toNat ≤ (floats (Reader.new []) 1 [one] none).fd.out.length := by decide

theorem witness_decode_ends_phases :
    (ints (Reader.new []) 1 [1000]).phase = .decodingInts .host ∧ (floats (Reader.new []) 1 [one] none).phase = .decodingFloats .host ∧
    ({ State.reset with phase := .decodingInts .readFile } : State).phase = .decodingInts .readFile ∧
    ({ State.reset with phase := .decodingFloats .readFile } : State).phase = .decodingFloats .readFile := by decide

theorem witness_decode_ends_read_file :
    ({ State.reset with phase := .pairing } : State).phase = .pairing ∧
    ({ State.reset with phase := .returning, orch := { result := some (.rows []) } } : State).phase = .returning ∧
    ({ State.reset with phase := .returning, orch := { result := some (.rows []) } } : State).orch.result = some (.rows []) := by
  decide

/-- `FormatErrorEntry`: a parse of READ_FILE, one of the host's, and READ_FILE's return. -/
theorem witness_format_error :
    ({ parse (FileBuf.ofBytes f1) {} 0 with phase := .parsing .readFile } : State).phase = .parsing .readFile ∧
    (parse (FileBuf.ofBytes f1) {} 0).phase ≠ .parsing .readFile ∧
    ({ State.reset with phase := .returning, orch := { result := some (.formatError .badMagic) } } : State).phase = .returning ∧
    ({ State.reset with phase := .returning, orch := { result := some (.formatError .badMagic) } } : State).orch.result =
      some (.formatError .badMagic) := by decide

/-- `HeaderChecks`: 35 bytes; 36 bytes with a wrong magic; 36 bytes with the magic. -/
theorem witness_header_too_small :
    AtHeader (parse (FileBuf.ofBytes (f1.take 35)) {} 0) ∧ (parse (FileBuf.ofBytes (f1.take 35)) {} 0).file.len < 36 :=
  ⟨⟨⟨.host, rfl⟩, rfl⟩, by decide +kernel⟩

theorem witness_header_wrong_magic :
    AtHeader (parse (FileBuf.ofBytes (List.replicate 36 0)) {} 0) ∧
    36 ≤ (parse (FileBuf.ofBytes (List.replicate 36 0)) {} 0).file.len ∧
    leNat ((parse (FileBuf.ofBytes (List.replicate 36 0)) {} 0).file.bytes 0 4) ≠ 0x50415251 :=
  ⟨⟨⟨.host, rfl⟩, rfl⟩, by decide +kernel⟩

theorem witness_header_magic :
    AtHeader (parse (FileBuf.ofBytes (f1.take 36)) {} 0) ∧ 36 ≤ (parse (FileBuf.ofBytes (f1.take 36)) {} 0).file.len ∧
    leNat ((parse (FileBuf.ofBytes (f1.take 36)) {} 0).file.bytes 0 4) = 0x50415251 :=
  ⟨⟨⟨.host, rfl⟩, rfl⟩, by decide +kernel⟩

/-- A parse that stands at the footer of `footed len size columns`. -/
def atFooted (len size columns : Nat) : State := parse (footed len size columns) { header := some f1Header } 0

theorem atFooted_atFooter (len size columns : Nat) : AtFooter (atFooted len size columns) :=
  ⟨⟨.host, rfl⟩, nofun, rfl⟩

/-- `FooterChecks`: `footer_start` 31; `footer_size` 3; `footer_size` 4; two columns with `footer_start` 32. -/
theorem witness_footer_before_header :
    AtFooter (atFooted 44 9 2) ∧ 36 ≤ (atFooted 44 9 2).file.len ∧
    9 = leNat ((atFooted 44 9 2).file.bytes ((atFooted 44 9 2).file.len - 4) 4) ∧ (atFooted 44 9 2).file.len < 36 + 9 :=
  ⟨atFooted_atFooter _ _ _, by decide +kernel⟩

theorem witness_footer_out_of_range :
    AtFooter (atFooted 39 3 2) ∧ 36 + 3 ≤ (atFooted 39 3 2).file.len ∧
    3 = leNat ((atFooted 39 3 2).file.bytes ((atFooted 39 3 2).file.len - 4) 4) ∧ 3 < 4 :=
  ⟨atFooted_atFooter _ _ _, by decide +kernel⟩

theorem witness_footer_bad_columns :
    AtFooter (atFooted 40 4 2) ∧ 36 + 4 ≤ (atFooted 40 4 2).file.len ∧
    4 = leNat ((atFooted 40 4 2).file.bytes ((atFooted 40 4 2).file.len - 4) 4) ∧
    leNat ((atFooted 40 4 2).file.bytes ((atFooted 40 4 2).file.len - 4 - 4 + 4) 4) ≠ 2 :=
  ⟨atFooted_atFooter _ _ _, by decide +kernel⟩

theorem witness_footer_two_columns :
    AtFooter (atFooted 44 8 2) ∧ 36 + 8 ≤ (atFooted 44 8 2).file.len ∧
    8 = leNat ((atFooted 44 8 2).file.bytes ((atFooted 44 8 2).file.len - 4) 4) ∧
    leNat ((atFooted 44 8 2).file.bytes ((atFooted 44 8 2).file.len - 4 - 8 + 4) 4) = 2 :=
  ⟨atFooted_atFooter _ _ _, by decide +kernel⟩

/-- `DescriptorChecks`: the descriptor ends with the file, and one byte past it. -/
theorem witness_descriptor_in_file :
    AtDescriptor (parse (FileBuf.ofBytes (f1.take 119)) { header := some f1Header, footer := some f1Footer } 85) ∧
    2 = leNat ((FileBuf.ofBytes (f1.take 119)).bytes 85 4) ∧ 85 + 32 + 2 ≤ (FileBuf.ofBytes (f1.take 119)).len :=
  ⟨⟨⟨.host, rfl⟩, nofun, nofun, .inl rfl⟩, by decide +kernel⟩

theorem witness_descriptor_out_of_range :
    AtDescriptor (parse (FileBuf.ofBytes (f1.take 118)) { header := some f1Header, footer := some f1Footer } 85) ∧
    2 = leNat ((FileBuf.ofBytes (f1.take 118)).bytes 85 4) ∧ (FileBuf.ofBytes (f1.take 118)).len < 85 + 32 + 2 :=
  ⟨⟨⟨.host, rfl⟩, nofun, nofun, .inl rfl⟩, by decide +kernel⟩

/-- A parse of F1 that stands at column 0, with another `size` in its descriptor. -/
def atColumnOf (size : Word) : State := parse (FileBuf.ofBytes f1) { f1Cp with col0 := some { f1Col0 with size := size } } 154

theorem atColumnOf_atColumn (size : Word) : AtColumn (atColumnOf size) { f1Col0 with size := size } :=
  ⟨⟨.host, rfl⟩, nofun, nofun, { f1Col0 with size := size }, f1Col1, rfl, rfl, .inl ⟨rfl, rfl⟩⟩

/-- `ColumnChecks`: `size` 7 and 8; the column ends with the file, and one byte past it. -/
theorem witness_column_too_small :
    AtColumn (atColumnOf 7) { f1Col0 with size := 7 } ∧ (7 : Word).toNat < 8 := ⟨atColumnOf_atColumn 7, by decide⟩

theorem witness_column_out_of_range :
    AtColumn (atColumnOf 127) { f1Col0 with size := 127 } ∧ (atColumnOf 127).file.len < (32 : Word).toNat + (127 : Word).toNat :=
  ⟨atColumnOf_atColumn 127, by decide +kernel⟩

theorem witness_column_in_file :
    AtColumn (atColumnOf 126) { f1Col0 with size := 126 } ∧ 8 ≤ (126 : Word).toNat ∧
    (32 : Word).toNat + (126 : Word).toNat ≤ (atColumnOf 126).file.len :=
  ⟨atColumnOf_atColumn 126, by decide, by decide +kernel⟩

theorem witness_column_empty :
    AtColumn (atColumnOf 8) { f1Col0 with size := 8 } ∧ 8 ≤ (8 : Word).toNat ∧
    (32 : Word).toNat + (8 : Word).toNat ≤ (atColumnOf 8).file.len :=
  ⟨atColumnOf_atColumn 8, by decide, by decide +kernel⟩

theorem next_of_goesOn {o : Host.Outcome State Fault Refusal} (h : (goesOn o).isSome = true) : ∃ t, o = .next t := by
  cases o with
  | next t => exact ⟨t, rfl⟩
  | fault e => cases h
  | refused r => cases h

/-- `ParametersNeverChange`, `RunningOperationWritesNoInputAndShowsNothing`: a step of each phase that goes on. -/
theorem witness_running_step :
    (ints (Reader.new [0x00]) 3 [0, 0]).phase ≠ .idle ∧ (∃ t, step (ints (Reader.new [0x00]) 3 [0, 0]) = .next t) ∧
    (floats (Reader.new [0x00]) 2 [one] none).phase ≠ .idle ∧ (∃ t, step (floats (Reader.new [0x00]) 2 [one] none) = .next t) ∧
    (parse (FileBuf.ofBytes f1) {} 0).phase ≠ .idle ∧ (∃ t, step (parse (FileBuf.ofBytes f1) {} 0) = .next t) ∧
    (∃ t, step (asked (.decodeI64 [0x00] 1)) = .next t) :=
  ⟨by decide, next_of_goesOn (by decide +kernel), by decide, next_of_goesOn (by decide +kernel), by decide,
    next_of_goesOn (by decide +kernel), next_of_goesOn (by decide +kernel)⟩

/-- `RunningOperationWritesNoInputAndShowsNothing`: decodes that run on, for the host and within READ_FILE. -/
theorem witness_running_on :
    (goesOn (step (ints (Reader.new [0x00]) 3 [0, 0]))).map (fun t => t.phase) = some (.decodingInts .host) ∧
    (goesOn (step (floats (Reader.new [0x00]) 2 [one] none))).map (fun t => t.phase) = some (.decodingFloats .host) ∧
    (goesOn (step { ints (Reader.new [0x00]) 3 [0, 0] with phase := .decodingInts .readFile })).isSome = true ∧
    (goesOn (step { floats (Reader.new [0x00]) 2 [one] none with phase := .decodingFloats .readFile })).isSome = true := by
  decide +kernel

/-- `DecodesRaiseNothing`: a parse; an int decode; a decode whose step ends it; one that runs on after an earlier FormatError, with
one in `or.result` (no run leads there). -/
theorem witness_decodes_raise_nothing :
    (parse (FileBuf.ofBytes f1) {} 0).phase = .parsing .host ∧ IntAt (ints (Reader.new [0x00]) 3 [0, 0]) (Reader.new [0x00]) ∧
    (floats (Reader.new []) 1 [one] none).phase = .decodingFloats .host ∧
    (goesOn (step (floats (Reader.new []) 1 [one] none))).map (fun t => t.phase) = some .idle ∧
    (ints (Reader.new []) 1 [1000]).phase = .decodingInts .host ∧
    (goesOn (step (ints (Reader.new []) 1 [1000]))).map (fun t => t.phase) = some .idle :=
  ⟨rfl, ⟨⟨.host, rfl⟩, rfl, rfl, by decide⟩, rfl, by decide +kernel, rfl, by decide +kernel⟩

theorem witness_decodes_after_an_error :
    (goesOn (step { ints (Reader.new [0x00]) 3 [0, 0] with
      result := some (.formatError .badMagic), orch := { result := some (.formatError .badMagic) } })).map
        (fun t => (t.result, t.orch.result)) =
      some (some (.formatError .badMagic), some (.formatError .badMagic)) := by decide +kernel

/-- An int decode that runs beside a host's reader at its end and a float decoder's reader inside its buffer. -/
def threeReaders : State :=
  { ints (Reader.new [0x00]) 3 [0, 0] with readers := [readerAt [0x00] 8], fd := { rd := some (readerAt [0x00] 3) } }

/-- `ReadersStayInBounds`, and `CursorOnlyMovesForward` of an int decode. -/
theorem witness_readers_in_bounds :
    threeReaders.phase = .decodingInts .host ∧ threeReaders.id.rd = some (Reader.new [0x00]) ∧ ReadersInBounds threeReaders ∧
    ∃ t, step threeReaders = .next t := by
  refine ⟨rfl, rfl, ⟨fun rd h => ?_, fun rd h => ?_, fun rd h => ?_⟩, next_of_goesOn (by decide +kernel)⟩
  · rw [List.mem_singleton.1 h]; decide
  · rw [← Option.some.inj h]; decide
  · rw [← Option.some.inj h]; decide

/-- `CursorOnlyMovesForward` of a float decode. -/
theorem witness_cursor_float :
    (floats (readerAt [0x00] 7) 2 [one] none).phase = .decodingFloats .host ∧
    (floats (readerAt [0x00] 7) 2 [one] none).fd.rd = some (readerAt [0x00] 7) ∧
    ReadersInBounds (floats (readerAt [0x00] 7) 2 [one] none) ∧ ∃ t, step (floats (readerAt [0x00] 7) 2 [one] none) = .next t := by
  refine ⟨rfl, rfl, ⟨nofun, nofun, fun rd h => ?_⟩, next_of_goesOn (by decide +kernel)⟩
  rw [← Option.some.inj h]; decide

/-- `FileStaysCanonical`. -/
theorem witness_file_canonical :
    FileCanonical (parse (FileBuf.ofBytes f1) {} 0) ∧ ∃ t, step (parse (FileBuf.ofBytes f1) {} 0) = .next t :=
  ⟨show (FileBuf.ofBytes f1).wf = true by decide +kernel, next_of_goesOn (by decide +kernel)⟩

/-- An int decode of P1 before its third value, with a float decoder that is complete. -/
def soundDecoders : State :=
  { ints (Reader.new [0x00]) 3 [1000, 1001] with fd := { count := 2, prevValue := some one, out := [one, one] } }

/-- `DecoderRegistersFollowTheOutput`. -/
theorem witness_decoders_sound : DecodersSound soundDecoders ∧ ∃ t, step soundDecoders = .next t :=
  ⟨⟨⟨rfl, by decide⟩, rfl, rfl, by decide⟩, next_of_goesOn (by decide +kernel)⟩

/-- `WindowStaysLegal`: the narrowest window, of a new-window block; the parameter's widest, and no block yet. -/
theorem witness_window_legal :
    WindowLegal (floats (Reader.new [0x80]) 2 [one] (some ⟨63, 0⟩)) ∧
    ∃ t, step (floats (Reader.new [0x80]) 2 [one] (some ⟨63, 0⟩)) = .next t :=
  ⟨⟨rfl, fun w h => by rw [← Option.some.inj h]; decide, fun _ => ⟨⟨63, 0⟩, rfl, by decide⟩, nofun⟩,
    next_of_goesOn (by decide +kernel)⟩

/-- A float decode at value #2 under `F64_WINDOW_RESET = (0, 0)`. -/
def underThePair (rd : Reader) : State :=
  { floats rd 2 [one] none with
    params := { windowReset := some ⟨0, 0⟩ }
    fd := { rd := some rd, count := 2, prevValue := some one, window := some ⟨0, 0⟩, out := [one] } }

theorem witness_window_legal_pair :
    WindowLegal (underThePair (Reader.new [0x00])) ∧ (underThePair (Reader.new [0x00])).windowValid = false ∧
    ∃ t, step (underThePair (Reader.new [0x00])) = .next t :=
  ⟨⟨rfl, fun w h => by rw [← Option.some.inj h]; decide, nofun, fun _ _ h => h⟩, rfl, next_of_goesOn (by decide +kernel)⟩

/-- F1 with all of its columns cut. -/
def cutF1 : State :=
  parse (FileBuf.ofBytes f1)
    { f1Cp with
      slice0 := some [0, 0, 0, 0, 0, 0, 0x03, 0xE8, 0, 0, 0, 0, 0, 0, 0, 0x01, 0x00]
      slice1 := some [0x3F, 0xF0, 0, 0, 0, 0, 0, 0, 0x60, 0x9B, 0xFF, 0xD0] } 154

/-- Rules R33, R270: when the parse is done the host may read the registers, and the block holds nothing. -/
theorem test_registers_for_the_host :
    (goesOn (step cutF1)).map (fun t => (t.hostRegisters.header, t.hostRegisters.footerStart, t.cp)) =
      some (some f1Header, some 77, {}) := by decide +kernel

/-- Rules R33, R66: within READ_FILE the end of the parse shows the host nothing; the delivery of the rows does. -/
theorem test_read_file_shows_nothing_before_its_result :
    (goesOn (step { cutF1 with phase := .parsing .readFile })).map (fun t => (t.phase, t.result, t.hostRegisters)) =
      some (.decodingInts .readFile, none, {}) ∧
    (goesOn (step { cutF1 with phase := .returning, orch := { result := some (.rows []) } })).map
      (fun t => (t.result, t.hostRegisters.header, t.cp)) = some (some (.rows []), some f1Header, {}) := by decide +kernel

/-- `ContainerStaysLegal`. -/
theorem witness_container_legal : ContainerLegal cutF1 ∧ usesContainer cutF1 = true ∧ ∃ t, step cutF1 = .next t := by
  refine ⟨fun _ => ⟨by decide +kernel, fun h e => ?_, fun f e => ?_, fun b e => ?_, fun b e => ?_⟩, by decide,
    next_of_goesOn (by decide +kernel)⟩
  · rw [← Option.some.inj e]; decide
  · rw [← Option.some.inj e]; decide +kernel
  · rw [← Option.some.inj e]
    exact ⟨by decide, f1Col0, rfl, ok_of_decodedOk (by decide +kernel)⟩
  · rw [← Option.some.inj e]
    exact ⟨by decide, f1Col1, rfl, ok_of_decodedOk (by decide +kernel)⟩

/-- `RegistersAreHeldOnlyInUse`: a decode for the host, and READ_FILE in its float decode and at its pairing. -/
theorem witness_held_only_in_use :
    HeldOnlyInUse (ints (Reader.new [0x00]) 3 [0, 0]) ∧ (∃ t, step (ints (Reader.new [0x00]) 3 [0, 0]) = .next t) ∧
    HeldOnlyInUse { floats (Reader.new [0x00]) 2 [one] none with
      phase := .decodingFloats .readFile, cp := f1Cp, orch := { ts := [1000] } } ∧
    (∃ t, step { floats (Reader.new [0x00]) 2 [one] none with
      phase := .decodingFloats .readFile, cp := f1Cp, orch := { ts := [1000] } } = .next t) ∧
    HeldOnlyInUse { State.reset with phase := .pairing, cp := f1Cp, orch := { ts := [1000], val := [one] } } ∧
    (∃ t, step { State.reset with phase := .pairing, cp := f1Cp, orch := { ts := [1000], val := [one] } } = .next t) :=
  ⟨⟨rfl, rfl, rfl, rfl⟩, next_of_goesOn (by decide +kernel), ⟨rfl, rfl⟩, next_of_goesOn (by decide +kernel), ⟨rfl, rfl, rfl⟩,
    next_of_goesOn (by decide +kernel)⟩

/-- `DecodeI64RunsTheAlgorithm`, `DecodeF64RunsTheAlgorithm`, `OperationsStartFromTheStartValues`: the machine asked for a decode. -/
theorem witness_asked_for_a_decode :
    (asked (.decodeI64 [0x00] 1)).phase = .idle ∧ (asked (.decodeI64 [0x00] 1)).requests = .decodeI64 [0x00] 1 :: [] ∧
    (asked (.decodeF64 [0x00] 1)).phase = .idle ∧ (asked (.decodeF64 [0x00] 1)).requests = .decodeF64 [0x00] 1 :: [] := by
  decide

/-- A machine whose `FILE_LEN_MAX` is the length of F1. -/
def askedAtTheBound (r : Request) : State := { asked r with params := { fileLenMax := some 158 } }

/-- `ParseContainerRunsTheAlgorithm`, `ReadFileRunsTheAlgorithm`, `OperationsStartFromTheStartValues`: under the default, and at the
bound. -/
theorem witness_asked_for_a_file :
    (asked (.parseContainer f1)).phase = .idle ∧ (asked (.parseContainer f1)).requests = .parseContainer f1 :: [] ∧
    (∀ bound, (asked (.parseContainer f1)).params.fileLenMax = some bound → f1.length ≤ bound) ∧
    (askedAtTheBound (.readFile f1)).phase = .idle ∧ (askedAtTheBound (.readFile f1)).requests = .readFile f1 :: [] ∧
    (∀ bound, (askedAtTheBound (.readFile f1)).params.fileLenMax = some bound → f1.length ≤ bound) :=
  ⟨rfl, rfl, nofun, rfl, rfl, fun _ h => by rw [← Option.some.inj h]; decide +kernel⟩

theorem ok_of_toOption {ε α : Type} {x : Except ε α} {a : α} (h : x.toOption = some a) : x = .ok a := by
  cases x with
  | ok b => exact congrArg Except.ok (Option.some.inj h)
  | error c => cases h

/-- The refusal of an algorithm. -/
def refusalOf {α : Type} : Except Refusal α → Option Refusal
  | .ok _ => none
  | .error r => some r

theorem error_of_refusalOf {α : Type} {x : Except Refusal α} {r : Refusal} (h : refusalOf x = some r) : x = .error r := by
  cases x with
  | ok b => cases h
  | error c => exact congrArg Except.error (Option.some.inj h)

theorem witness_decode_f64_runs :
    Transaction.decodeF64 {} (word one ++ [0x00]) 9 = .ok (List.replicate 9 one) ∧
    Transaction.decodeF64 {} (word one ++ [0xC0, 0x00]) 2 = .error (.reservedSymbol .badWindow) :=
  ⟨ok_of_toOption (by decide +kernel), error_of_refusalOf (by decide +kernel)⟩

theorem witness_read_file_runs :
    Transaction.readFile {} f1 = .ok (.rows [(1000, one), (1001, one), (1002, 0x4004000000000000)]) ∧
    Transaction.readFile {} (f1.take 35) = .ok (.formatError .fileTooSmall) ∧
    Transaction.readFile {} (f1.take 73 ++ [0x40] ++ f1.drop 74) = .error (.reservedSymbol .reuseBeforeWindow) :=
  ⟨ok_of_toOption (by decide +kernel), ok_of_toOption (by decide +kernel), error_of_refusalOf (by decide +kernel)⟩

/-- `IntRoundTrip`: vector V-I18, in tiers that are not the shortest. -/
theorem witness_int_round_trip :
    [(100 : Word), 101, 107, 118, 129].length < 2 ^ 64 ∧
    Assembler.codesInts [100, 101, 107, 118, 129] [.i64First 100, .i64FirstDelta 1, .i64Dod64 5, .i64Dod12 5, .i64Dod7 0] = true := by
  decide +kernel

/-- `FloatRoundTrip`: program P2's values. -/
theorem witness_float_round_trip :
    ∃ bits, Assembler.floatBits [one, one, 0x4004000000000000] = some bits ∧ bits.length = 92 ∧
      pack bits = [0x3F, 0xF0, 0x00, 0x00, 0x00, 0x00, 0x00, 0x00, 0x60, 0x9B, 0xFF, 0xD0] :=
  ⟨((Assembler.floatBits [one, one, 0x4004000000000000]).getD []), by decide +kernel⟩

/-- `TruncationGivesAPrefix`, `DecodedLengthIsBounded`: a decode that succeeds; data of 7, 8, 15 and 16 bytes. -/
theorem witness_decodes_succeed :
    Transaction.decodeF64 {} (word one ++ [0x00]) 10 = .ok (List.replicate 9 one) ∧
    (f1.take 7).length < 8 ∧ 8 ≤ (f1.take 8).length ∧ (f1.take 15).length < 16 ∧ 16 ≤ (f1.take 16).length :=
  ⟨ok_of_toOption (by decide +kernel), by decide +kernel⟩

/-- `FilesThatDoNotParse`: the big-endian magic (vector V-C4), 36 bytes; 103 bytes. -/
theorem witness_files_that_do_not_parse :
    ([0x50, 0x41, 0x52, 0x51] : List Byte).length = 4 ∧ 32 ≤ (List.replicate 32 (0 : Byte)).length ∧
    ([0x50, 0x41, 0x52, 0x51] : List Byte) ≠ [0x51, 0x52, 0x41, 0x50] ∧ (List.replicate 103 (0 : Byte)).length < 104 := by decide

/-- `SlicesAreViewsOfTheFile`, `ParseContainerRunsTheAlgorithm`: F1 parses. -/
theorem witness_f1_parses : ∃ cp, Transaction.parseContainer f1 = .ok cp ∧ cp.footerStart = some 77 := by
  have h : (Transaction.parseContainer f1).toOption.map (fun cp => cp.footerStart) = some (some 77) := by decide +kernel
  cases e : Transaction.parseContainer f1 with
  | ok cp => rw [e] at h; exact ⟨cp, rfl, Option.some.inj h⟩
  | error c => rw [e] at h; cases h

end Sys2Proof.Tests
end

section
/-! PROOFS. The parameters and the window registers across a step: what any step can do to them, and that a legal window stays
legal (rules R6, R28, R36, R40, R137). -/

namespace Sys2Proof

open Machine Safety

/-! ### The parameters -/

/-- Serving a request leaves the parameters as they are (rule R274). -/
theorem serve_params {r : Request} {s t : State} (h : serve r s = .next t) : t.params = s.params := by
  obtain ⟨_, rfl⟩ | ⟨_, _, _, _, _, _, _, rfl⟩ | ⟨_, _, _, _, _, _, rfl⟩ | ⟨_, _, rfl⟩ | ⟨_, _, rfl⟩ | ⟨_, _, rfl⟩ :=
    serve_cases h <;> rfl

/-- No step writes the parameters (rule R274). -/
theorem step_params {s t : State} (h : step s = .next t) : t.params = s.params := by
  cases hc : s.phase with
  | idle =>
    obtain rfl | ⟨_, _, _, hserve⟩ := step_idle_cases hc h
    · rfl
    · exact (serve_params hserve).trans s.discard_params
  | parsing c =>
    obtain ⟨_, rfl⟩ | ⟨_, _, _, rfl⟩ | ⟨_, _, _, _, rfl⟩ | ⟨_, _, rfl⟩ | ⟨_, _, _, _, rfl⟩ | ⟨_, _, _, _, _, rfl⟩ :=
      step_parsing_cases hc h <;> simp
  | decodingInts c =>
    obtain rfl | ⟨_, _, _, _, _, ⟨_, _, rfl⟩ | ⟨_, _, rfl⟩ | ⟨_, _, rfl⟩⟩ := step_ints_cases hc h
    · exact s.finishInts_params
    all_goals rfl
  | decodingFloats c =>
    obtain rfl | ⟨_, _, _, _, _, ⟨_, _, rfl⟩ | ⟨_, rfl⟩ | ⟨_, _, rfl⟩ | ⟨_, _, _, _, _, _, _, rfl⟩⟩ :=
      step_floats_cases hc h
    · exact s.finishFloats_params
    all_goals rfl
  | pairing => cases (step_pairing_eq hc).symm.trans h; rfl
  | returning => cases (step_returning_eq hc).symm.trans h; exact s.returnFile_params

/-! ### The window registers -/

/-- What a step can do to the window registers and `fd.window_valid`. -/
inductive WindowMove (s t : State) : Prop where
  | kept (hw : t.fd.window = s.fd.window) (hv : t.fd.windowValid = s.fd.windowValid)
  /-- The float decoder is discarded (rules R39, R270, R278). -/
  | cleared (h : t.fd = {})
  /-- A float decode starts (rules R40, R132, R140). -/
  | started (data : List Byte) (count : Word) (h : t.fd = FloatDecoder.start s.params data count)
  /-- A new-window block is decoded (rule R137). -/
  | opened (l m : BitVec 6) (n : Nat) (w : Window) (h : newWindow s.params.reservedPolicy l m = some (n, w))
      (hw : t.fd.window = some w) (hv : t.fd.windowValid = true)

/-- A step that leaves the float decoder alone. -/
theorem WindowMove.of_fd_eq {s t : State} (h : t.fd = s.fd) : WindowMove s t :=
  .kept (congrArg FloatDecoder.window h) (congrArg FloatDecoder.windowValid h)

/-- A request, served by a block that holds nothing, leaves the float decoder empty or starts it. -/
theorem serve_fd {r : Request} {s t : State} (hs : s.fd = {}) (h : serve r s = .next t) :
    t.fd = {} ∨ ∃ data count, t.fd = FloatDecoder.start s.params data count := by
  obtain ⟨_, rfl⟩ | ⟨_, _, _, _, _, _, _, rfl⟩ | ⟨_, _, _, _, _, _, rfl⟩ | ⟨_, _, rfl⟩ | ⟨data, count, rfl⟩ | ⟨_, _, rfl⟩ :=
    serve_cases h
  · exact .inl rfl
  · exact .inl rfl
  · exact .inl rfl
  · exact .inl hs
  · exact .inr ⟨data, count, rfl⟩
  · exact .inl hs

/-- The int decode's end leaves the float decoder READ_FILE has set up, or discards it. -/
theorem windowMove_finishInts (s : State) : WindowMove s s.finishInts := by
  obtain ⟨_, e⟩ | ⟨_, e⟩ := finishInts_cases s <;> rw [e]
  · exact .of_fd_eq rfl
  · exact .cleared rfl

/-- The parse's end starts READ_FILE's float decoder, or discards it. -/
theorem windowMove_finishParse (s : State) (count0 count1 : Word) (slice0 slice1 : List Byte) :
    WindowMove s (s.finishParse count0 count1 slice0 slice1) := by
  obtain ⟨_, e⟩ | ⟨_, e⟩ := finishParse_cases s count0 count1 slice0 slice1 <;> rw [e]
  · exact .started slice1 count1 rfl
  · exact .cleared rfl

/-- Every step is one of the four moves; only a float symbol opens a window. -/
theorem step_windowMove {s t : State} (h : step s = .next t) : WindowMove s t := by
  cases hc : s.phase with
  | idle =>
    obtain rfl | ⟨_, _, _, hserve⟩ := step_idle_cases hc h
    · exact .of_fd_eq rfl
    · obtain hfd | ⟨data, count, hfd⟩ := serve_fd rfl hserve
      · exact .cleared hfd
      · exact .started data count hfd
  | parsing c =>
    obtain ⟨e, rfl⟩ | ⟨_, _, _, rfl⟩ | ⟨_, _, _, _, rfl⟩ | ⟨_, _, rfl⟩ | ⟨_, _, _, _, rfl⟩ | ⟨c0, c1, b0, b1, _, rfl⟩ :=
      step_parsing_cases hc h
    · exact .cleared (s.raise_fd e)
    · exact .of_fd_eq rfl
    · exact .of_fd_eq rfl
    · exact .of_fd_eq rfl
    · exact .of_fd_eq rfl
    · exact windowMove_finishParse s c0 c1 b0 b1
  | decodingInts c =>
    obtain rfl | ⟨_, _, _, _, _, ⟨_, _, rfl⟩ | ⟨_, _, rfl⟩ | ⟨_, _, rfl⟩⟩ := step_ints_cases hc h
    · exact windowMove_finishInts s
    all_goals exact .of_fd_eq rfl
  | decodingFloats c =>
    obtain rfl | ⟨_, _, _, _, _, ⟨_, _, rfl⟩ | ⟨_, rfl⟩ | ⟨_, _, rfl⟩ | ⟨_, l, m, n, w, _, hw, rfl⟩⟩ :=
      step_floats_cases hc h
    · exact .cleared s.finishFloats_fd
    · exact .kept rfl rfl
    · exact .kept rfl rfl
    · exact .kept rfl rfl
    · exact .opened l m n w hw rfl rfl
  | pairing => cases (step_pairing_eq hc).symm.trans h; exact .of_fd_eq rfl
  | returning => cases (step_returning_eq hc).symm.trans h; exact .cleared s.returnFile_fd

/-! ### The legal window -/

/-- The payload of a new-window block has 64 bits under `MB0_IS_64` alone (rules R92 to R94). -/
theorem newWindow_width_le_63 {policy : ReservedPolicy} {l m : BitVec 6} {n : Nat} {w : Window}
    (h : newWindow policy l m = some (n, w)) (hp : policy ≠ .mb0Is64) : n ≤ 63 := by
  unfold newWindow at h
  split at h
  · rw [if_neg fun e => hp e.1] at h
    cases h
  · split at h <;> cases h
    have := m.isLt
    omega

/-- A window parameter within the bound of rule R6. -/
theorem Params.wf_window {p : Params} {w : Window} (h : p.wf = true) (hw : p.windowReset = some w) :
    w.leading + w.trailing ≤ 63 := by
  simpa [Params.wf, hw] using h

/-- Before the first new-window block: no window but the parameter's. -/
theorem windowLegal_of_not_valid {s : State} (hp : s.params.wf = true) (hv : s.fd.windowValid = false)
    (hw : ∀ w, s.fd.window = some w → s.params.windowReset = some w) : WindowLegal s :=
  ⟨hp, fun w h => Params.wf_window hp (hw w h), fun h => Bool.noConfusion (hv.symm.trans h), fun _ => hw⟩

/-- After a new-window block: the window it opened. -/
theorem windowLegal_of_newWindow {s : State} {l m : BitVec 6} {n : Nat} {w : Window} (hp : s.params.wf = true)
    (h : newWindow s.params.reservedPolicy l m = some (n, w)) (hw : s.fd.window = some w)
    (hv : s.fd.windowValid = true) : WindowLegal s := by
  obtain ⟨hpos, -, hfill⟩ := newWindow_width h
  refine ⟨hp, fun w' hw' => ?_, fun _ => ⟨w, hw, fun hne => ?_⟩, fun hv' => Bool.noConfusion (hv.symm.trans hv')⟩
  · obtain rfl := Option.some.inj (hw.symm.trans hw')
    omega
  · have := newWindow_width_le_63 h hne
    omega

/-- Legality speaks of the parameters, the window registers and `fd.window_valid` alone. -/
theorem windowLegal_congr {s t : State} (h : WindowLegal s) (hp : t.params = s.params)
    (hw : t.fd.window = s.fd.window) (hv : t.fd.windowValid = s.fd.windowValid) : WindowLegal t := by
  unfold WindowLegal State.windowValid at h ⊢
  rwa [hp, hw, hv]

/-- Settles O45: of the four things a step can do to the window registers, the first keeps what legality speaks of, the next two
leave no window but the parameter's, and the last opens a window that `newWindow` made. -/
theorem windowStaysLegal : Obligations.WindowStaysLegal := by
  unfold Obligations.WindowStaysLegal
  intro s t hs h
  have hp := step_params h
  have hwf : t.params.wf = true := hp ▸ hs.1
  cases step_windowMove h with
  | kept hw hv => exact windowLegal_congr hs hp hw hv
  | cleared hfd =>
    exact windowLegal_of_not_valid hwf (by rw [hfd]) (by rw [hfd]; nofun)
  | started data count hfd =>
    exact windowLegal_of_not_valid hwf (by rw [hfd]; rfl) (by rw [hfd, hp]; exact fun _ e => e)
  | opened l m n w hnew hw hv => exact windowLegal_of_newWindow hwf (hp ▸ hnew) hw hv

end Sys2Proof
end

section
/-! PROOFS. The decoders and the readers across a step: everything a step can do to each, and from that the cursors' bounds and
the registers that follow the output (rules R21 to R31, R144, R176). -/

namespace Sys2Proof

open Machine Safety

/-! ### Readers -/

/-- A reader further on in the same bytes is inside them if it was. -/
theorem Leads.inBounds {rd rd' : Reader} (h : Leads rd rd') (hb : rd.pc ≤ 8 * rd.buffer.length) :
    rd'.pc ≤ 8 * rd'.buffer.length := by
  obtain ⟨hbuf, -, hpc⟩ := h
  rw [hbuf]
  exact hpc hb

/-- READ_BITS that answers a value leaves its reader further on (rule R114). -/
theorem leads_of_value {policy : ReadAfterFail} {rd rd' : Reader} {n : Nat} {v : Word}
    (h : readBits policy rd n = .value v rd') : Leads rd rd' := by
  have hl : LeadsTo rd (afterRead (readBits policy rd n) fun v rd => .symbol (.f64First v) rd) :=
    leadsTo_afterRead fun _ rd => Leads.refl rd
  rwa [h] at hl

/-- READ_BITS that fails softly leaves its reader where it was (rules R115, R117). -/
theorem leads_of_short {policy : ReadAfterFail} {rd rd' : Reader} {n : Nat}
    (h : readBits policy rd n = .short rd') : Leads rd rd' := by
  have hl : LeadsTo rd (afterRead (readBits policy rd n) fun v rd => .symbol (.f64First v) rd) :=
    leadsTo_afterRead fun _ rd => Leads.refl rd
  rwa [h] at hl

/-- A decode's reader starts at bit 0 (rules R131, R161). -/
theorem startReader_pc {data : List Byte} {count : Word} {rd : Reader} (h : startReader data count = some rd) :
    rd.pc = 0 := by
  unfold startReader at h
  split at h <;> cases h
  rfl

/-- What a step can do to the host's readers. -/
inductive HostReadersMove (s t : State) : Prop where
  | kept (h : t.readers = s.readers)
  /-- NEW_READER (rule R111). -/
  | made (buffer : List Byte) (h : t.readers = s.readers ++ [Reader.new buffer])
  /-- READ_BITS on reader number `k` (rules R112 to R117). -/
  | read (k : Nat) (rd rd' : Reader) (hk : s.readers[k]? = some rd) (hl : Leads rd rd') (h : t.readers = s.readers.set k rd')

/-- Serving a request makes a reader, reads from one, or leaves them all. -/
theorem serve_hostReadersMove {r : Request} {s t : State} (h : serve r s = .next t) : HostReadersMove s t := by
  obtain ⟨buffer, rfl⟩ | ⟨k, _, rd, rd', _, hk, hv, rfl⟩ | ⟨k, _, rd, rd', hk, hv, rfl⟩ | ⟨_, _, rfl⟩ | ⟨_, _, rfl⟩ |
    ⟨_, _, rfl⟩ := serve_cases h
  · exact .made buffer rfl
  · exact .read k rd rd' hk (leads_of_value hv) rfl
  · exact .read k rd rd' hk (leads_of_short hv) rfl
  all_goals exact .kept rfl

/-- Every step is one of the three moves of the host's readers; only a request makes one or reads from one. -/
theorem step_hostReadersMove {s t : State} (h : step s = .next t) : HostReadersMove s t := by
  cases hc : s.phase with
  | idle =>
    obtain rfl | ⟨_, _, _, hserve⟩ := step_idle_cases hc h
    · exact .kept rfl
    · cases serve_hostReadersMove hserve with
      | kept h => exact .kept h
      | made buffer h => exact .made buffer h
      | read k rd rd' hk hl h => exact .read k rd rd' hk hl h
  | parsing c =>
    obtain ⟨e, rfl⟩ | ⟨_, _, _, rfl⟩ | ⟨_, _, _, _, rfl⟩ | ⟨_, _, rfl⟩ | ⟨_, _, _, _, rfl⟩ | ⟨c0, c1, b0, b1, _, rfl⟩ :=
      step_parsing_cases hc h
    · exact .kept (s.raise_readers e)
    · exact .kept rfl
    · exact .kept rfl
    · exact .kept rfl
    · exact .kept rfl
    · exact .kept (s.finishParse_readers c0 c1 b0 b1)
  | decodingInts c =>
    obtain rfl | ⟨_, _, _, _, _, ⟨_, _, rfl⟩ | ⟨_, _, rfl⟩ | ⟨_, _, rfl⟩⟩ := step_ints_cases hc h
    · exact .kept s.finishInts_readers
    all_goals exact .kept rfl
  | decodingFloats c =>
    obtain rfl | ⟨_, _, _, _, _, ⟨_, _, rfl⟩ | ⟨_, rfl⟩ | ⟨_, _, rfl⟩ | ⟨_, _, _, _, _, _, _, rfl⟩⟩ :=
      step_floats_cases hc h
    · exact .kept s.finishFloats_readers
    all_goals exact .kept rfl
  | pairing => cases (step_pairing_eq hc).symm.trans h; exact .kept rfl
  | returning => cases (step_returning_eq hc).symm.trans h; exact .kept s.returnFile_readers

/-- Each move keeps the host's cursors inside their buffers. -/
theorem HostReadersMove.inBounds {s t : State} (hs : ∀ rd ∈ s.readers, rd.pc ≤ 8 * rd.buffer.length)
    (h : HostReadersMove s t) : ∀ rd ∈ t.readers, rd.pc ≤ 8 * rd.buffer.length := by
  intro rd hrd
  cases h with
  | kept h => exact hs rd (h ▸ hrd)
  | made buffer h =>
    rw [h, List.mem_append, List.mem_singleton] at hrd
    obtain hrd | rfl := hrd
    · exact hs rd hrd
    · exact Nat.zero_le _
  | read k old new hk hl h =>
    rw [h] at hrd
    obtain hrd | rfl := List.mem_or_eq_of_mem_set hrd
    · exact hs rd hrd
    · exact hl.inBounds (hs old (List.mem_of_getElem? hk))

/-! ### The int decoder -/

@[simp] theorem withIntReader_id (s : State) (rd : Reader) : (withIntReader s rd).id = { s.id with rd := some rd } := rfl
@[simp] theorem withIntReader_intPrev (s : State) (rd : Reader) : (withIntReader s rd).intPrev = s.intPrev := rfl

/-- What a step can do to the int decoder. -/
inductive IntMove (s t : State) : Prop where
  | kept (h : t.id = s.id)
  /-- The int decoder is discarded (rules R39, R270, R278). -/
  | cleared (h : t.id = {})
  /-- An int decode starts (rules R40, R162). -/
  | started (data : List Byte) (count : Word) (h : t.id = IntDecoder.start data count)
  /-- Value #1 (rule R163). -/
  | first (rd rd' : Reader) (v : Word) (hrd : s.id.rd = some rd) (hl : Leads rd rd')
      (hlt : s.id.out.length < s.id.count.toNat) (ho : s.id.out = []) (h : t.id = ((withIntReader s rd').writeInt v).id)
  /-- Value #2 or later, from its delta `d` (rules R164, R171). -/
  | later (rd rd' : Reader) (d : Word) (hrd : s.id.rd = some rd) (hl : Leads rd rd')
      (hlt : s.id.out.length < s.id.count.toNat) (ho : s.id.out ≠ []) (h : t.id = ((withIntReader s rd').stepInt d).id)

/-- A request, served by a block that holds nothing, leaves the int decoder empty or starts it. -/
theorem serve_id {r : Request} {s t : State} (hs : s.id = {}) (h : serve r s = .next t) :
    t.id = {} ∨ ∃ data count, t.id = IntDecoder.start data count := by
  obtain ⟨_, rfl⟩ | ⟨_, _, _, _, _, _, _, rfl⟩ | ⟨_, _, _, _, _, _, rfl⟩ | ⟨data, count, rfl⟩ | ⟨_, _, rfl⟩ | ⟨_, _, rfl⟩ :=
    serve_cases h
  · exact .inl rfl
  · exact .inl rfl
  · exact .inl rfl
  · exact .inr ⟨data, count, rfl⟩
  · exact .inl hs
  · exact .inl hs

/-- The parse's end starts READ_FILE's int decoder, or discards it. -/
theorem intMove_finishParse (s : State) (count0 count1 : Word) (slice0 slice1 : List Byte) :
    IntMove s (s.finishParse count0 count1 slice0 slice1) := by
  obtain ⟨_, e⟩ | ⟨_, e⟩ := finishParse_cases s count0 count1 slice0 slice1 <;> rw [e]
  · exact .started slice0 count0 rfl
  · exact .cleared rfl

/-- The float decode's end leaves the int decoder alone, or discards it. -/
theorem intMove_finishFloats (s : State) : IntMove s s.finishFloats := by
  obtain ⟨_, e⟩ | ⟨_, e⟩ := finishFloats_cases s <;> rw [e]
  · exact .kept rfl
  · exact .cleared rfl

/-- Every step is one of the five moves of the int decoder. -/
theorem step_intMove {s t : State} (h : step s = .next t) : IntMove s t := by
  cases hc : s.phase with
  | idle =>
    obtain rfl | ⟨_, _, _, hserve⟩ := step_idle_cases hc h
    · exact .kept rfl
    · obtain hid | ⟨data, count, hid⟩ := serve_id rfl hserve
      · exact .cleared hid
      · exact .started data count hid
  | parsing c =>
    obtain ⟨e, rfl⟩ | ⟨_, _, _, rfl⟩ | ⟨_, _, _, _, rfl⟩ | ⟨_, _, rfl⟩ | ⟨_, _, _, _, rfl⟩ | ⟨c0, c1, b0, b1, _, rfl⟩ :=
      step_parsing_cases hc h
    · exact .cleared (s.raise_id e)
    · exact .kept rfl
    · exact .kept rfl
    · exact .kept rfl
    · exact .kept rfl
    · exact intMove_finishParse s c0 c1 b0 b1
  | decodingInts c =>
    obtain rfl | ⟨rd, rd', hrd, hl, hlt, ⟨ho, v, rfl⟩ | ⟨⟨a, ho⟩, d, rfl⟩ | ⟨ho, dod, rfl⟩⟩ := step_ints_cases hc h
    · exact .cleared s.finishInts_id
    · exact .first rd rd' v hrd hl hlt ho rfl
    · exact .later rd rd' d hrd hl hlt (ho ▸ List.cons_ne_nil a []) rfl
    · exact .later rd rd' _ hrd hl hlt (List.ne_nil_of_length_pos (by omega)) rfl
  | decodingFloats c =>
    obtain rfl | ⟨_, _, _, _, _, ⟨_, _, rfl⟩ | ⟨_, rfl⟩ | ⟨_, _, rfl⟩ | ⟨_, _, _, _, _, _, _, rfl⟩⟩ :=
      step_floats_cases hc h
    · exact intMove_finishFloats s
    all_goals exact .kept rfl
  | pairing => cases (step_pairing_eq hc).symm.trans h; exact .kept rfl
  | returning => cases (step_returning_eq hc).symm.trans h; exact .cleared s.returnFile_id

/-- Each move keeps the int decode's cursor inside its buffer. -/
theorem IntMove.inBounds {s t : State} (hs : ∀ rd, s.id.rd = some rd → rd.pc ≤ 8 * rd.buffer.length)
    (h : IntMove s t) : ∀ rd, t.id.rd = some rd → rd.pc ≤ 8 * rd.buffer.length := by
  intro rd hrd
  cases h with
  | kept h => exact hs rd (h ▸ hrd)
  | cleared h => rw [h] at hrd; cases hrd
  | started data count h =>
    rw [h] at hrd
    rw [startReader_pc hrd]
    exact Nat.zero_le _
  | first old new _ hold hl _ _ h =>
    rw [h] at hrd
    cases hrd
    exact hl.inBounds (hs old hold)
  | later old new _ hold hl _ _ h =>
    rw [h] at hrd
    cases hrd
    exact hl.inBounds (hs old hold)

/-- The last delta once a value follows another. -/
theorem lastDelta_concat (vs : List Word) (a b : Word) (h : vs.getLast? = some a) :
    lastDelta (vs ++ [b]) = some (b - a) := by
  induction vs with
  | nil => cases h
  | cons v vs ih =>
    cases vs with
    | nil => cases h; rfl
    | cons w ws =>
      have hlast : (w :: ws).getLast? = some a := by rwa [List.getLast?_cons_cons] at h
      rw [← ih hlast]
      cases ws <;> rfl

/-- Each move keeps the int decoder's registers what its output says (rules R30, R31, R176). -/
theorem IntMove.sound {s t : State} (hs : IntDecoderSound s.id) (h : IntMove s t) : IntDecoderSound t.id := by
  have ⟨hprev, hdelta, _⟩ := hs
  cases h with
  | kept h => rwa [h]
  | cleared h => rw [h]; exact ⟨rfl, rfl, Nat.zero_le _⟩
  | started data count h => rw [h]; exact ⟨rfl, rfl, Nat.zero_le _⟩
  | first rd rd' v hrd hl hlt ho h =>
    rw [ho] at hdelta
    rw [h]
    exact ⟨by simp, by simpa [ho, lastDelta] using hdelta, by simpa using hlt⟩
  | later rd rd' d hrd hl hlt ho h =>
    have hlast := List.getLast?_eq_some_getLast ho
    have hval : s.intPrev = s.id.out.getLast ho := by rw [State.intPrev, hprev, hlast, Option.getD_some]
    rw [h]
    exact ⟨by simp, by simp [lastDelta_concat _ _ _ hlast, hval, addWrap], by simpa using hlt⟩

/-! ### The float decoder -/

/-- What a step can do to the float decoder's reader, `count`, `prev_value` and `out`. -/
inductive FloatMove (s t : State) : Prop where
  | kept (h : t.fd = s.fd)
  /-- The float decoder is discarded (rules R39, R270, R278). -/
  | cleared (h : t.fd = {})
  /-- A float decode starts (rules R40, R132, R140). -/
  | started (data : List Byte) (count : Word) (h : t.fd = FloatDecoder.start s.params data count)
  /-- A value is written and emitted (rules R133, R136, R137). -/
  | wrote (rd rd' : Reader) (v : Word) (hrd : s.fd.rd = some rd) (hl : Leads rd rd')
      (hlt : s.fd.out.length < s.fd.count.toNat) (hrd' : t.fd.rd = some rd') (hcount : t.fd.count = s.fd.count)
      (hprev : t.fd.prevValue = some v) (hout : t.fd.out = s.fd.out ++ [v])
  /-- `prev_value` is emitted again (rule R135). -/
  | repeated (rd rd' : Reader) (hrd : s.fd.rd = some rd) (hl : Leads rd rd')
      (hlt : s.fd.out.length < s.fd.count.toNat) (ho : s.fd.out ≠ []) (hrd' : t.fd.rd = some rd')
      (hcount : t.fd.count = s.fd.count) (hprev : t.fd.prevValue = s.fd.prevValue)
      (hout : t.fd.out = s.fd.out ++ [s.floatPrev])

/-- The parse's end starts READ_FILE's float decoder, or discards it. -/
theorem floatMove_finishParse (s : State) (count0 count1 : Word) (slice0 slice1 : List Byte) :
    FloatMove s (s.finishParse count0 count1 slice0 slice1) := by
  obtain ⟨_, e⟩ | ⟨_, e⟩ := finishParse_cases s count0 count1 slice0 slice1 <;> rw [e]
  · exact .started slice1 count1 rfl
  · exact .cleared rfl

/-- The int decode's end leaves the float decoder READ_FILE has set up, or discards it. -/
theorem floatMove_finishInts (s : State) : FloatMove s s.finishInts := by
  obtain ⟨_, e⟩ | ⟨_, e⟩ := finishInts_cases s <;> rw [e]
  · exact .kept rfl
  · exact .cleared rfl

/-- Every step is one of the five moves of the float decoder. -/
theorem step_floatMove {s t : State} (h : step s = .next t) : FloatMove s t := by
  cases hc : s.phase with
  | idle =>
    obtain rfl | ⟨_, _, _, hserve⟩ := step_idle_cases hc h
    · exact .kept rfl
    · obtain hfd | ⟨data, count, hfd⟩ := serve_fd rfl hserve
      · exact .cleared hfd
      · exact .started data count hfd
  | parsing c =>
    obtain ⟨e, rfl⟩ | ⟨_, _, _, rfl⟩ | ⟨_, _, _, _, rfl⟩ | ⟨_, _, rfl⟩ | ⟨_, _, _, _, rfl⟩ | ⟨c0, c1, b0, b1, _, rfl⟩ :=
      step_parsing_cases hc h
    · exact .cleared (s.raise_fd e)
    · exact .kept rfl
    · exact .kept rfl
    · exact .kept rfl
    · exact .kept rfl
    · exact floatMove_finishParse s c0 c1 b0 b1
  | decodingInts c =>
    obtain rfl | ⟨_, _, _, _, _, ⟨_, _, rfl⟩ | ⟨_, _, rfl⟩ | ⟨_, _, rfl⟩⟩ := step_ints_cases hc h
    · exact floatMove_finishInts s
    all_goals exact .kept rfl
  | decodingFloats c =>
    obtain rfl | ⟨rd, rd', hrd, hl, hlt, ⟨_, v, rfl⟩ | ⟨ho, rfl⟩ | ⟨_, v, rfl⟩ | ⟨_, _, _, _, _, v, _, rfl⟩⟩ :=
      step_floats_cases hc h
    · exact .cleared s.finishFloats_fd
    · exact .wrote rd rd' v hrd hl hlt rfl rfl rfl rfl
    · exact .repeated rd rd' hrd hl hlt ho rfl rfl rfl rfl
    · exact .wrote rd rd' v hrd hl hlt rfl rfl rfl rfl
    · exact .wrote rd rd' v hrd hl hlt rfl rfl rfl rfl
  | pairing => cases (step_pairing_eq hc).symm.trans h; exact .kept rfl
  | returning => cases (step_returning_eq hc).symm.trans h; exact .cleared s.returnFile_fd

/-- Each move keeps the float decode's cursor inside its buffer. -/
theorem FloatMove.inBounds {s t : State} (hs : ∀ rd, s.fd.rd = some rd → rd.pc ≤ 8 * rd.buffer.length)
    (h : FloatMove s t) : ∀ rd, t.fd.rd = some rd → rd.pc ≤ 8 * rd.buffer.length := by
  intro rd hrd
  cases h with
  | kept h => exact hs rd (h ▸ hrd)
  | cleared h => rw [h] at hrd; cases hrd
  | started data count h =>
    rw [h] at hrd
    rw [startReader_pc hrd]
    exact Nat.zero_le _
  | wrote old new _ hold hl _ hnew =>
    cases hnew.symm.trans hrd
    exact hl.inBounds (hs old hold)
  | repeated old new hold hl _ _ hnew =>
    cases hnew.symm.trans hrd
    exact hl.inBounds (hs old hold)

/-- Each move keeps the float decoder's registers what its output says (rules R27, R30, R144). -/
theorem FloatMove.sound {s t : State} (hs : FloatDecoderSound s.fd) (h : FloatMove s t) : FloatDecoderSound t.fd := by
  have ⟨hlast, _⟩ := hs
  cases h with
  | kept h => rwa [h]
  | cleared h => rw [h]; exact ⟨rfl, Nat.zero_le _⟩
  | started data count h => rw [h]; exact ⟨rfl, Nat.zero_le _⟩
  | wrote _ _ v _ _ hlt _ hcount hprev hout =>
    exact ⟨by rw [hprev, hout, List.getLast?_concat], by rw [hcount, hout]; simpa using hlt⟩
  | repeated _ _ _ _ hlt ho _ hcount hprev hout =>
    have hval : some s.floatPrev = s.fd.out.getLast? := by
      rw [State.floatPrev, hlast, List.getLast?_eq_some_getLast ho, Option.getD_some]
    exact ⟨by rw [hprev, hout, List.getLast?_concat, hlast, hval], by rw [hcount, hout]; simpa using hlt⟩

/-! ### The statements -/

/-- Settles O42: a reader of the host, of the int decode or of the float decode is new, as it was, or further on in its own
bytes. -/
theorem readersStayInBounds : Obligations.ReadersStayInBounds := by
  unfold Obligations.ReadersStayInBounds
  intro s t ⟨hhost, hints, hfloats⟩ h
  exact ⟨(step_hostReadersMove h).inBounds hhost, (step_intMove h).inBounds hints, (step_floatMove h).inBounds hfloats⟩

/-- Settles O44: each move of a decoder discards it, starts it, or emits one value with the registers that go with it. -/
theorem decoderRegistersFollowTheOutput : Obligations.DecoderRegistersFollowTheOutput := by
  unfold Obligations.DecoderRegistersFollowTheOutput
  intro s t ⟨hfloats, hints⟩ h
  exact ⟨(step_floatMove h).sound hfloats, (step_intMove h).sound hints⟩

/-- The int decode's end is in another phase. -/
theorem finishInts_phase_ne {s : State} {c : Caller} (hc : s.phase = .decodingInts c) : s.finishInts.phase ≠ s.phase := by
  rw [hc]
  obtain ⟨_, e⟩ | ⟨_, e⟩ := finishInts_cases s <;> rw [e] <;> exact nofun

/-- The float decode's end is in another phase. -/
theorem finishFloats_phase_ne {s : State} {c : Caller} (hc : s.phase = .decodingFloats c) :
    s.finishFloats.phase ≠ s.phase := by
  rw [hc]
  obtain ⟨_, e⟩ | ⟨_, e⟩ := finishFloats_cases s <;> rw [e] <;> exact nofun

/-- A step of an int decode ends it and leaves no reader, or goes on with its reader further on. -/
theorem step_ints_reader {s t : State} {c : Caller} {rd : Reader} (hc : s.phase = .decodingInts c)
    (hrd : s.id.rd = some rd) (h : step s = .next t) :
    (t.phase = s.phase ∧ ∃ rd', t.id.rd = some rd' ∧ Leads rd rd') ∨ (t.phase ≠ s.phase ∧ t.id.rd = none) := by
  obtain rfl | ⟨old, rd', hold, hl, _, hsym⟩ := step_ints_cases hc h
  · exact .inr ⟨finishInts_phase_ne hc, congrArg IntDecoder.rd s.finishInts_id⟩
  · cases hrd.symm.trans hold
    obtain ⟨_, _, rfl⟩ | ⟨_, _, rfl⟩ | ⟨_, _, rfl⟩ := hsym <;> exact .inl ⟨rfl, rd', rfl, hl⟩

/-- A step of a float decode ends it and leaves no reader, or goes on with its reader further on. -/
theorem step_floats_reader {s t : State} {c : Caller} {rd : Reader} (hc : s.phase = .decodingFloats c)
    (hrd : s.fd.rd = some rd) (h : step s = .next t) :
    (t.phase = s.phase ∧ ∃ rd', t.fd.rd = some rd' ∧ Leads rd rd') ∨ (t.phase ≠ s.phase ∧ t.fd.rd = none) := by
  obtain rfl | ⟨old, rd', hold, hl, _, hsym⟩ := step_floats_cases hc h
  · exact .inr ⟨finishFloats_phase_ne hc, congrArg FloatDecoder.rd s.finishFloats_fd⟩
  · cases hrd.symm.trans hold
    obtain ⟨_, _, rfl⟩ | ⟨_, rfl⟩ | ⟨_, _, rfl⟩ | ⟨_, _, _, _, _, _, _, rfl⟩ := hsym <;> exact .inl ⟨rfl, rd', rfl, hl⟩

/-- Settles O40: a decode's step leads its reader on in its own bytes or ends the decode, which discards the reader. -/
theorem cursorOnlyMovesForward : Obligations.CursorOnlyMovesForward := by
  unfold Obligations.CursorOnlyMovesForward
  intro s t _ ⟨_, hints, hfloats⟩ h
  constructor
  · intro rd c hrd hc
    refine (step_ints_reader hc hrd h).imp_left ?_
    rintro ⟨hp, rd', hrd', hl⟩
    have ⟨hbuffer, hpc, _⟩ := hl
    exact ⟨hp, rd', hrd', hbuffer, hpc, hl.inBounds (hints rd hrd)⟩
  · intro rd c hrd hc
    refine (step_floats_reader hc hrd h).imp_left ?_
    rintro ⟨hp, rd', hrd', hl⟩
    have ⟨hbuffer, hpc, _⟩ := hl
    exact ⟨hp, rd', hrd', hbuffer, hpc, hl.inBounds (hfloats rd hrd)⟩

end Sys2Proof
end

section
/-! PROOFS. Which register group each phase may hold, and that every step keeps to it (rules R26, R39, R40, R41, R270, R278). -/

namespace Sys2Proof

open Machine Safety

/-! ### What each phase may hold -/

section

variable {s : State}

theorem heldOnlyInUse_parsing_iff {c : Caller} (h : s.phase = .parsing c) :
    HeldOnlyInUse s ↔ s.id = {} ∧ s.fd = {} ∧ s.orch = {} := by
  simp only [HeldOnlyInUse, h]

theorem heldOnlyInUse_hostInts_iff (h : s.phase = .decodingInts .host) :
    HeldOnlyInUse s ↔ s.fd = {} ∧ s.cp = {} ∧ s.orch = {} ∧ s.ptr = 0 := by
  simp only [HeldOnlyInUse, h]

theorem heldOnlyInUse_fileInts_iff (h : s.phase = .decodingInts .readFile) : HeldOnlyInUse s ↔ s.orch = {} := by
  simp only [HeldOnlyInUse, h]

theorem heldOnlyInUse_hostFloats_iff (h : s.phase = .decodingFloats .host) :
    HeldOnlyInUse s ↔ s.id = {} ∧ s.cp = {} ∧ s.orch = {} ∧ s.ptr = 0 := by
  simp only [HeldOnlyInUse, h]

theorem heldOnlyInUse_fileFloats_iff (h : s.phase = .decodingFloats .readFile) :
    HeldOnlyInUse s ↔ s.id = {} ∧ s.orch = { ts := s.orch.ts } := by
  simp only [HeldOnlyInUse, h]

theorem heldOnlyInUse_pairing_iff (h : s.phase = .pairing) :
    HeldOnlyInUse s ↔ s.id = {} ∧ s.fd = {} ∧ s.orch = { ts := s.orch.ts, val := s.orch.val } := by
  simp only [HeldOnlyInUse, h]

end

/-! ### The ends and the starts -/

section

variable (s : State)

/-- Between operations nothing is held (rules R39, R270). -/
theorem heldOnlyInUse_discard : HeldOnlyInUse s.discard := ⟨rfl, rfl, rfl, rfl, rfl⟩
theorem heldOnlyInUse_deliver (r : Result) : HeldOnlyInUse (s.deliver r) := ⟨rfl, rfl, rfl, rfl, rfl⟩
theorem heldOnlyInUse_deliverParsed (r : Result) : HeldOnlyInUse (s.deliverParsed r) := ⟨rfl, rfl, rfl, rfl, rfl⟩
theorem heldOnlyInUse_deliverError (c : Cause) : HeldOnlyInUse (s.deliverError c) := ⟨rfl, rfl, rfl, rfl, rfl⟩

/-- A FormatError leaves nothing, or READ_FILE's result alone (rules R234, R247). -/
theorem heldOnlyInUse_raise (c : Cause) : HeldOnlyInUse (s.raise c) := by
  obtain ⟨_, e⟩ | ⟨_, e⟩ := raise_cases s c <;> rw [e]
  · exact ⟨rfl, rfl⟩
  · exact heldOnlyInUse_deliverError s c

theorem heldOnlyInUse_returnFile : HeldOnlyInUse s.returnFile := by
  obtain ⟨rows, _, e⟩ | ⟨c, _, e⟩ | ⟨_, e⟩ := returnFile_cases s <;> rw [e]
  · exact heldOnlyInUse_deliverParsed s _
  · exact heldOnlyInUse_deliverError s c
  · exact heldOnlyInUse_discard s

variable {s}

/-- A request, served by a block that holds nothing, completes or starts an operation with that operation's registers alone. -/
theorem heldOnlyInUse_serve {r : Request} {t : State} (hid : s.id = {}) (hfd : s.fd = {}) (hcp : s.cp = {})
    (horch : s.orch = {}) (hptr : s.ptr = 0) (h : serve r s = .next t) : HeldOnlyInUse t := by
  obtain ⟨_, rfl⟩ | ⟨_, _, _, _, _, _, _, rfl⟩ | ⟨_, _, _, _, _, _, rfl⟩ | ⟨_, _, rfl⟩ | ⟨_, _, rfl⟩ | ⟨_, _, rfl⟩ :=
    serve_cases h
  · exact heldOnlyInUse_deliver _ _
  · exact heldOnlyInUse_deliver _ _
  · exact heldOnlyInUse_deliver _ _
  · exact ⟨hfd, hcp, horch, hptr⟩
  · exact ⟨hid, hcp, horch, hptr⟩
  · exact ⟨hid, hfd, horch⟩

/-- A parse's end passes two decodes on to READ_FILE, whose own registers are still empty, or leaves nothing. -/
theorem heldOnlyInUse_finishParse {c : Caller} (hc : s.phase = .parsing c) (hs : HeldOnlyInUse s)
    (count0 count1 : Word) (slice0 slice1 : List Byte) :
    HeldOnlyInUse (s.finishParse count0 count1 slice0 slice1) := by
  obtain ⟨-, -, horch⟩ := (heldOnlyInUse_parsing_iff hc).mp hs
  obtain ⟨_, e⟩ | ⟨_, e⟩ := finishParse_cases s count0 count1 slice0 slice1 <;> rw [e]
  · exact horch
  · exact heldOnlyInUse_deliverParsed s _

/-- The int decode's end leaves READ_FILE the float decode and column 0, or nothing (rules R233, R278). -/
theorem heldOnlyInUse_finishInts (hs : HeldOnlyInUse s) : HeldOnlyInUse s.finishInts := by
  obtain ⟨hc, e⟩ | ⟨_, e⟩ := finishInts_cases s <;> rw [e]
  · have horch : s.orch = {} := (heldOnlyInUse_fileInts_iff hc).mp hs
    exact ⟨rfl, by rw [horch]⟩
  · exact heldOnlyInUse_deliver s _

/-- The float decode's end leaves READ_FILE both columns, or nothing (rules R232, R278). -/
theorem heldOnlyInUse_finishFloats (hs : HeldOnlyInUse s) : HeldOnlyInUse s.finishFloats := by
  obtain ⟨hc, e⟩ | ⟨_, e⟩ := finishFloats_cases s <;> rw [e]
  · obtain ⟨hid, horch⟩ := (heldOnlyInUse_fileFloats_iff hc).mp hs
    exact ⟨hid, rfl, by rw [horch]⟩
  · exact heldOnlyInUse_deliver s _

/-- Keeping a record writes the parser's registers and pointer alone, which a parse may hold. -/
theorem heldOnlyInUse_with_cp {c : Caller} (hc : s.phase = .parsing c) (hs : HeldOnlyInUse s) (cp : Container) (ptr : Int) :
    HeldOnlyInUse { s with cp := cp, ptr := ptr } :=
  (heldOnlyInUse_parsing_iff (s := { s with cp := cp, ptr := ptr }) hc).mpr ((heldOnlyInUse_parsing_iff hc).mp hs)

/-- Emitting a value writes the int decoder alone, which an int decode may hold. -/
theorem heldOnlyInUse_with_id {c : Caller} (hc : s.phase = .decodingInts c) (hs : HeldOnlyInUse s) (id : IntDecoder) :
    HeldOnlyInUse { s with id := id } := by
  cases c with
  | host => exact (heldOnlyInUse_hostInts_iff (s := { s with id := id }) hc).mpr ((heldOnlyInUse_hostInts_iff hc).mp hs)
  | readFile => exact (heldOnlyInUse_fileInts_iff (s := { s with id := id }) hc).mpr ((heldOnlyInUse_fileInts_iff hc).mp hs)

/-- Emitting a value writes the float decoder alone, which a float decode may hold. -/
theorem heldOnlyInUse_with_fd {c : Caller} (hc : s.phase = .decodingFloats c) (hs : HeldOnlyInUse s)
    (fd : FloatDecoder) : HeldOnlyInUse { s with fd := fd } := by
  cases c with
  | host => exact (heldOnlyInUse_hostFloats_iff (s := { s with fd := fd }) hc).mpr ((heldOnlyInUse_hostFloats_iff hc).mp hs)
  | readFile => exact (heldOnlyInUse_fileFloats_iff (s := { s with fd := fd }) hc).mpr ((heldOnlyInUse_fileFloats_iff hc).mp hs)

end

/-- Settles O47: within a phase a step writes the groups the phase may hold, and each end empties what the next phase may not. -/
theorem registersAreHeldOnlyInUse : Obligations.RegistersAreHeldOnlyInUse := by
  unfold Obligations.RegistersAreHeldOnlyInUse
  intro s t hs h
  cases hc : s.phase with
  | idle =>
    obtain rfl | ⟨_, _, _, hserve⟩ := step_idle_cases hc h
    · exact hs
    · exact heldOnlyInUse_serve rfl rfl rfl rfl rfl hserve
  | parsing c =>
    obtain ⟨e, rfl⟩ | ⟨_, _, _, rfl⟩ | ⟨_, _, _, _, rfl⟩ | ⟨_, _, rfl⟩ | ⟨_, _, _, _, rfl⟩ | ⟨c0, c1, b0, b1, _, rfl⟩ :=
      step_parsing_cases hc h
    · exact heldOnlyInUse_raise s e
    · exact heldOnlyInUse_with_cp hc hs _ _
    · exact heldOnlyInUse_with_cp hc hs _ _
    · exact heldOnlyInUse_with_cp hc hs _ _
    · exact heldOnlyInUse_with_cp hc hs _ _
    · exact heldOnlyInUse_finishParse hc hs c0 c1 b0 b1
  | decodingInts c =>
    obtain rfl | ⟨_, _, _, _, _, ⟨_, _, rfl⟩ | ⟨_, _, rfl⟩ | ⟨_, _, rfl⟩⟩ := step_ints_cases hc h
    · exact heldOnlyInUse_finishInts hs
    all_goals exact heldOnlyInUse_with_id hc hs _
  | decodingFloats c =>
    obtain rfl | ⟨_, _, _, _, _, ⟨_, _, rfl⟩ | ⟨_, rfl⟩ | ⟨_, _, rfl⟩ | ⟨_, _, _, _, _, _, _, rfl⟩⟩ :=
      step_floats_cases hc h
    · exact heldOnlyInUse_finishFloats hs
    all_goals exact heldOnlyInUse_with_fd hc hs _
  | pairing =>
    obtain ⟨hid, hfd, -⟩ := (heldOnlyInUse_pairing_iff hc).mp hs
    cases (step_pairing_eq hc).symm.trans h
    exact ⟨hid, hfd⟩
  | returning => cases (step_returning_eq hc).symm.trans h; exact heldOnlyInUse_returnFile s

end Sys2Proof
end

section
/-! PROOFS. The file and the parser's registers across a step: the file's canonical form, what the parser's checks established,
and the slices of a file that parses (rules R32 to R34, R42, R63, R193, R196, R197, R202). -/

namespace Sys2Proof

open Machine Safety

/-! ### The file -/

/-- A step leaves the file as it is, or the host presents another (rules R58, R273). -/
theorem step_file {s t : State} (h : step s = .next t) : t.file = s.file ∨ ∃ bytes, t.file = FileBuf.ofBytes bytes := by
  cases hc : s.phase with
  | idle =>
    obtain rfl | ⟨_, _, _, hserve⟩ := step_idle_cases hc h
    · exact .inl rfl
    obtain ⟨_, rfl⟩ | ⟨_, _, _, _, _, _, _, rfl⟩ | ⟨_, _, _, _, _, _, rfl⟩ | ⟨_, _, rfl⟩ | ⟨_, _, rfl⟩ | ⟨_, file, rfl⟩ :=
      serve_cases hserve
    · exact .inl rfl
    · exact .inl rfl
    · exact .inl rfl
    · exact .inl rfl
    · exact .inl rfl
    · exact .inr ⟨file, rfl⟩
  | parsing c =>
    left
    obtain ⟨_, rfl⟩ | ⟨_, _, _, rfl⟩ | ⟨_, _, _, _, rfl⟩ | ⟨_, _, rfl⟩ | ⟨_, _, _, _, rfl⟩ | ⟨_, _, _, _, _, rfl⟩ :=
      step_parsing_cases hc h <;> simp
  | decodingInts c =>
    left
    obtain rfl | ⟨_, _, _, _, _, ⟨_, _, rfl⟩ | ⟨_, _, rfl⟩ | ⟨_, _, rfl⟩⟩ := step_ints_cases hc h
    · exact s.finishInts_file
    all_goals rfl
  | decodingFloats c =>
    left
    obtain rfl | ⟨_, _, _, _, _, ⟨_, _, rfl⟩ | ⟨_, rfl⟩ | ⟨_, _, rfl⟩ | ⟨_, _, _, _, _, _, _, rfl⟩⟩ :=
      step_floats_cases hc h
    · exact s.finishFloats_file
    all_goals rfl
  | pairing => cases (step_pairing_eq hc).symm.trans h; exact .inl rfl
  | returning => cases (step_returning_eq hc).symm.trans h; exact .inl s.returnFile_file

/-- Settles O43: the file changes only where the host presents one, and what the host presents is laid out canonically. -/
theorem fileStaysCanonical : Obligations.FileStaysCanonical := by
  unfold Obligations.FileStaysCanonical
  intro s t hs h
  obtain e | ⟨bytes, e⟩ := step_file h
  · exact (congrArg FileBuf.wf e).trans hs
  · exact (congrArg FileBuf.wf e).trans (ofBytes_wf bytes)

/-! ### What the parser's checks establish -/

/-- The body of `ContainerLegal`, of any file and registers. -/
structure ContainerChecked (file : FileBuf) (cp : Container) : Prop where
  fileLen : cp.fileLen = some file.len
  header : ∀ h, cp.header = some h → h.magic = Config.magic
  footer : ∀ f, cp.footer = some f →
    f.columnCount = Config.columnCount ∧ cp.footerStart = some (footerStart file.len f.footerSize) ∧
    32 ≤ footerStart file.len f.footerSize
  slice0 : ∀ b, cp.slice0 = some b →
    cp.col1 ≠ none ∧ ∃ d, cp.col0 = some d ∧ decodeColumn file d.offset d.size = .ok b
  slice1 : ∀ b, cp.slice1 = some b →
    cp.slice0 ≠ none ∧ ∃ d, cp.col1 = some d ∧ decodeColumn file d.offset d.size = .ok b

theorem containerLegal_iff (s : State) : ContainerLegal s ↔ (usesContainer s = true → ContainerChecked s.file s.cp) :=
  ⟨fun h hu => let ⟨h1, h2, h3, h4, h5⟩ := h hu; ⟨h1, h2, h3, h4, h5⟩,
    fun h hu => let ⟨h1, h2, h3, h4, h5⟩ := h hu; ⟨h1, h2, h3, h4, h5⟩⟩

namespace ContainerChecked

/-- A parse starts with nothing but the file's length (rules R40, R191). -/
theorem start (bytes : List Byte) : ContainerChecked (FileBuf.ofBytes bytes) { fileLen := some bytes.length } :=
  ⟨rfl, nofun, nofun, nofun, nofun⟩

variable {file : FileBuf} {cp : Container} (hcp : ContainerChecked file cp)
include hcp

theorem setHeader {h : HeaderFields} (hmagic : h.magic = Config.magic) :
    ContainerChecked file { cp with header := some h } :=
  { hcp with header := fun _ e => Option.some.inj e ▸ hmagic }

theorem setFooter {f : FooterFields} (hstart : ¬(footerStart file.len f.footerSize < Config.headerBytes))
    (hcount : f.columnCount = Config.columnCount) :
    ContainerChecked file
      { cp with footer := some f, footerStart := some (footerStart file.len f.footerSize) } :=
  { hcp with footer := fun _ e => Option.some.inj e ▸ ⟨hcount, rfl, Int.not_lt.mp hstart⟩ }

/-- No column is cut before both descriptors are kept. -/
theorem slices_none (hcol : cp.col0 = none ∨ cp.col1 = none) : cp.slice0 = none ∧ cp.slice1 = none := by
  have h0 : cp.slice0 = none := Option.eq_none_iff_forall_ne_some.mpr fun b hb => by
    obtain ⟨hcol1, d, hcol0, -⟩ := hcp.slice0 b hb
    simp [hcol0, hcol1] at hcol
  exact ⟨h0, Option.eq_none_iff_forall_ne_some.mpr fun b hb => (hcp.slice1 b hb).1 h0⟩

theorem setDescriptor (hcol : cp.col0 = none ∨ cp.col1 = none) (d : DescriptorFields) :
    ContainerChecked file (if cp.col0 = none then { cp with col0 := some d } else { cp with col1 := some d }) := by
  obtain ⟨h0, h1⟩ := hcp.slices_none hcol
  split
  · exact { hcp with slice0 := by simp [h0], slice1 := by simp [h1] }
  · exact { hcp with slice0 := by simp [h0], slice1 := by simp [h1] }

/-- The first column is cut by the first descriptor, the second by the second. -/
theorem setColumn {d : DescriptorFields} {b : List Byte} (hstage : cp.stage = .column d)
    (hb : decodeColumn file d.offset d.size = .ok b) :
    ContainerChecked file (if cp.slice0 = none then { cp with slice0 := some b } else { cp with slice1 := some b }) := by
  obtain ⟨e, _⟩ | ⟨e, _⟩ | ⟨e, _⟩ | ⟨d0, d1, -, -, hcol0, hcol1, ⟨e, h0⟩ | ⟨e, h0, h1⟩ | ⟨_, _, e, _⟩⟩ := stage_cases cp <;>
    cases hstage.symm.trans e
  · rw [if_pos h0]
    exact { hcp with
      slice0 := fun _ e => Option.some.inj e ▸ ⟨by simp [hcol1], d, hcol0, hb⟩
      slice1 := fun b' e => absurd h0 (hcp.slice1 b' e).1 }
  · rw [if_neg h0]
    exact { hcp with slice1 := fun _ e => Option.some.inj e ▸ ⟨h0, d, hcol1, hb⟩ }

end ContainerChecked

/-! ### The statement about every step -/

theorem usesContainer_idle {s : State} (h : s.phase = .idle) : usesContainer s = false := by
  simp only [usesContainer, h]

/-- Between operations nothing is asked of the parser's registers. -/
theorem containerLegal_of_idle {s : State} (h : s.phase = .idle) : ContainerLegal s :=
  fun hu => nomatch (usesContainer_idle h).symm.trans hu

/-- A request that starts a parse starts it on the presented file; any other leaves the parser unused. -/
theorem containerLegal_serve {r : Request} {s t : State} (h : serve r s = .next t) : ContainerLegal t := by
  obtain ⟨_, rfl⟩ | ⟨_, _, _, _, _, _, _, rfl⟩ | ⟨_, _, _, _, _, _, rfl⟩ | ⟨_, _, rfl⟩ | ⟨_, _, rfl⟩ | ⟨_, file, rfl⟩ :=
    serve_cases h
  · exact containerLegal_of_idle rfl
  · exact containerLegal_of_idle rfl
  · exact containerLegal_of_idle rfl
  · exact nofun
  · exact nofun
  · exact (containerLegal_iff _).mpr fun _ => .start file

/-- A FormatError leaves the parser unused (rule R247). -/
theorem containerLegal_raise (s : State) (c : Cause) : ContainerLegal (s.raise c) := by
  obtain ⟨_, e⟩ | ⟨_, e⟩ := raise_cases s c <;> rw [e]
  · exact nofun
  · exact containerLegal_of_idle rfl

theorem containerLegal_finishParse {s : State} (hcp : ContainerChecked s.file s.cp) (count0 count1 : Word)
    (slice0 slice1 : List Byte) : ContainerLegal (s.finishParse count0 count1 slice0 slice1) := by
  obtain ⟨_, e⟩ | ⟨_, e⟩ := finishParse_cases s count0 count1 slice0 slice1 <;> rw [e]
  · exact (containerLegal_iff _).mpr fun _ => hcp
  · exact containerLegal_of_idle rfl

theorem containerLegal_finishInts {s : State} (hs : ContainerLegal s) : ContainerLegal s.finishInts := by
  obtain ⟨hc, e⟩ | ⟨_, e⟩ := finishInts_cases s <;> rw [e]
  · exact fun _ => hs (by simp [usesContainer, hc])
  · exact containerLegal_of_idle rfl

theorem containerLegal_finishFloats {s : State} (hs : ContainerLegal s) : ContainerLegal s.finishFloats := by
  obtain ⟨hc, e⟩ | ⟨_, e⟩ := finishFloats_cases s <;> rw [e]
  · exact fun _ => hs (by simp [usesContainer, hc])
  · exact containerLegal_of_idle rfl

/-- Each record of a parse is kept as its check passed it. -/
theorem containerLegal_step_parsing {s t : State} {c : Caller} (hc : s.phase = .parsing c)
    (hcp : ContainerChecked s.file s.cp) (h : step s = .next t) : ContainerLegal t := by
  obtain ⟨e, rfl⟩ | ⟨_, _, hmagic, rfl⟩ | ⟨_, _, hstart, hcount, rfl⟩ | ⟨d, hstage, rfl⟩ | ⟨d, b, hstage, hb, rfl⟩ |
    ⟨c0, c1, b0, b1, _, rfl⟩ := step_parsing_cases hc h
  · exact containerLegal_raise s e
  · exact (containerLegal_iff _).mpr fun _ => hcp.setHeader hmagic
  · exact (containerLegal_iff _).mpr fun _ => hcp.setFooter hstart hcount
  · refine (containerLegal_iff _).mpr fun _ => hcp.setDescriptor ?_ d
    obtain ⟨e, _⟩ | ⟨e, _⟩ | ⟨e, _, _, hcol⟩ | ⟨_, _, _, _, _, _, ⟨e, _⟩ | ⟨e, _⟩ | ⟨_, _, e, _⟩⟩ := stage_cases s.cp <;>
      cases hstage.symm.trans e
    exact hcol
  · exact (containerLegal_iff _).mpr fun _ => hcp.setColumn hstage hb
  · exact containerLegal_finishParse hcp c0 c1 b0 b1

/-- Settles O46: a parse keeps a record only as its check passed it, and no other step that goes on using the parser's registers
writes them or the file. -/
theorem containerStaysLegal : Obligations.ContainerStaysLegal := by
  unfold Obligations.ContainerStaysLegal
  intro s t hs h
  cases hc : s.phase with
  | idle =>
    obtain rfl | ⟨_, _, _, hserve⟩ := step_idle_cases hc h
    · exact hs
    · exact containerLegal_serve hserve
  | parsing c =>
    exact containerLegal_step_parsing hc ((containerLegal_iff s).mp hs (by simp [usesContainer, hc])) h
  | decodingInts c =>
    obtain rfl | ⟨_, _, _, _, _, ⟨_, _, rfl⟩ | ⟨_, _, rfl⟩ | ⟨_, _, rfl⟩⟩ := step_ints_cases hc h
    · exact containerLegal_finishInts hs
    all_goals exact hs
  | decodingFloats c =>
    obtain rfl | ⟨_, _, _, _, _, ⟨_, _, rfl⟩ | ⟨_, rfl⟩ | ⟨_, _, rfl⟩ | ⟨_, _, _, _, _, _, _, rfl⟩⟩ :=
      step_floats_cases hc h
    · exact containerLegal_finishFloats hs
    all_goals exact hs
  | pairing =>
    cases (step_pairing_eq hc).symm.trans h
    exact fun _ => hs (by simp [usesContainer, hc])
  | returning =>
    cases (step_returning_eq hc).symm.trans h
    exact containerLegal_of_idle s.returnFile_phase

/-! ### The slices of a file that parses -/

/-- A column that is cut lies in the file, after its sub-header (rules R63, R202). -/
theorem sliceOf_ok {file : List Byte} {d : DescriptorFields} {b : List Byte} (h : Transaction.sliceOf file d = .ok b) :
    8 ≤ d.size.toNat ∧ d.offset.toNat + d.size.toNat ≤ file.length ∧
      b = (file.drop (d.offset.toNat + 8)).take (d.size.toNat - 8) := by
  unfold Transaction.sliceOf at h
  split at h <;> cases h
  exact ⟨by omega, by omega, rfl⟩

theorem bind_ok {α β : Type} {x : Except Cause α} {k : α → Except Cause β} {b : β} (h : (x >>= k) = .ok b) :
    ∃ a, x = .ok a ∧ k a = .ok b := by
  cases x with
  | error c => cases h
  | ok a => exact ⟨a, rfl, h⟩

/-- A check that was passed. -/
theorem check_ok {β : Type} {p : Prop} [Decidable p] {c : Cause} {k : Unit → Except Cause β} {b : β}
    (h : (if p then throw c >>= k else k ()) = .ok b) : ¬p ∧ k () = .ok b := by
  split at h
  · cases h
  · exact ⟨by assumption, h⟩

/-- The last two of the parse's reads cut the columns its two descriptors describe (rules R191, R202). -/
theorem parseContainer_columns {file : List Byte} {cp : Container} (h : Transaction.parseContainer file = .ok cp) :
    ∃ d0 d1 b0 b1, cp.col0 = some d0 ∧ cp.col1 = some d1 ∧ cp.slice0 = some b0 ∧ cp.slice1 = some b1 ∧
      Transaction.sliceOf file d0 = .ok b0 ∧ Transaction.sliceOf file d1 = .ok b1 := by
  unfold Transaction.parseContainer at h
  obtain ⟨_, h⟩ := check_ok h
  obtain ⟨magic, -, h⟩ := bind_ok h
  obtain ⟨_, h⟩ := check_ok h
  obtain ⟨formatVersion, -, h⟩ := bind_ok h
  obtain ⟨recordCount, -, h⟩ := bind_ok h
  obtain ⟨hdrColumnCount, -, h⟩ := bind_ok h
  obtain ⟨identifier, -, h⟩ := bind_ok h
  obtain ⟨footerSize, -, h⟩ := bind_ok h
  obtain ⟨_, h⟩ := check_ok h
  obtain ⟨metadataVersion, -, h⟩ := bind_ok h
  obtain ⟨ftrColumnCount, -, h⟩ := bind_ok h
  obtain ⟨_, h⟩ := check_ok h
  obtain ⟨d0, -, h⟩ := bind_ok h
  obtain ⟨d1, -, h⟩ := bind_ok h
  obtain ⟨b0, h0, h⟩ := bind_ok h
  obtain ⟨b1, h1, h⟩ := bind_ok h
  cases h
  exact ⟨d0, d1, b0, b1, rfl, rfl, rfl, rfl, h0, h1⟩

/-- Settles O60: each slice was cut by `sliceOf`, which checks the column's range against the file. -/
theorem slicesAreViewsOfTheFile : Obligations.SlicesAreViewsOfTheFile := by
  unfold Obligations.SlicesAreViewsOfTheFile
  intro file cp h
  obtain ⟨d0, d1, b0, b1, hcol0, hcol1, hb0, hb1, h0, h1⟩ := parseContainer_columns h
  obtain ⟨hsize0, hend0, rfl⟩ := sliceOf_ok h0
  obtain ⟨hsize1, hend1, rfl⟩ := sliceOf_ok h1
  exact ⟨d0, d1, hcol0, hcol1, hsize0, hend0, hsize1, hend1, hb0, hb1⟩

end Sys2Proof
end

section
/-! PROOFS. What each group of instructions leaves unchanged (rules R41, R58, R92 to R95, R133 to R137, R163 to R171, R193 to
R202). -/

namespace Sys2Proof

open Machine Safety

/-! ### The float symbols -/

/-- A reserved symbol goes on under `SoftStop` alone, and then the decode has ended (rules R94, R95). -/
theorem reservedSymbol_next {s t : State} {why : Reserved} (h : s.reservedSymbol why = .next t) :
    s.params.reservedPolicy = .softStop ∧ t = s.finishFloats := by
  unfold State.reservedSymbol at h
  split at h <;> cases h
  exact ⟨by assumption, rfl⟩

/-- A pair that stands for no window (rules R92, R93). -/
theorem newWindow_none {policy : ReservedPolicy} {l m : BitVec 6} (h : newWindow policy l m = none) :
    m = 0 ∨ 64 < l.toNat + m.toNat := by
  by_contra hlegal
  obtain ⟨hm, hl⟩ := not_or.mp hlegal
  cases (newWindow_legal hm (Nat.not_lt.mp hl)).symm.trans h

/-- What a reuse-window block can do (rules R95, R136). -/
theorem execF64XorReuse_cases {x : Word} {s t : State} (h : execF64XorReuse x s = .next t) :
    (∃ v, t = s.writeFloat v) ∨
    (s.params.reservedPolicy = .softStop ∧ t = s.finishFloats ∧ s.fd.window = none) := by
  unfold execF64XorReuse at h
  split at h
  · obtain ⟨hp, ht⟩ := reservedSymbol_next h
    exact .inr ⟨hp, ht, by assumption⟩
  · cases h
    exact .inl ⟨_, rfl⟩

/-- What a new-window block can do (rules R92 to R94, R137). -/
theorem execF64XorNew_cases {l m : BitVec 6} {x : Word} {s t : State} (h : execF64XorNew l m x s = .next t) :
    (∃ v w, t = (s.writeFloat v).openWindow w) ∨
    (s.params.reservedPolicy = .softStop ∧ t = s.finishFloats ∧ (m = 0 ∨ 64 < l.toNat + m.toNat)) := by
  unfold execF64XorNew at h
  split at h
  · obtain ⟨hp, ht⟩ := reservedSymbol_next h
    exact .inr ⟨hp, ht, newWindow_none (by assumption)⟩
  · cases h
    exact .inl ⟨_, _, rfl⟩

/-- What a float symbol can do: write the float decoder, or, a reserved form, end the decode. -/
theorem exec_float_cases {i : Instr} {s t : State}
    (hi : (∃ v, i = .f64First v) ∨ i = .f64Repeat ∨ (∃ x, i = .f64XorReuse x) ∨ (∃ l m x, i = .f64XorNew l m x))
    (h : exec i s = .next t) :
    (∃ fd, t = { s with fd := fd } ∧ fd.rd = s.fd.rd ∧ fd.count = s.fd.count ∧
      (i = .f64Repeat → fd.prevValue = s.fd.prevValue) ∧
      ((∀ l m x, i ≠ .f64XorNew l m x) → fd.window = s.fd.window ∧ fd.windowValid = s.fd.windowValid)) ∨
    (s.params.reservedPolicy = .softStop ∧ t = s.finishFloats ∧
      ((∃ x, i = .f64XorReuse x ∧ s.fd.window = none) ∨
       (∃ l m x, i = .f64XorNew l m x ∧ (m = 0 ∨ 64 < l.toNat + m.toNat)))) := by
  obtain ⟨v, rfl⟩ | rfl | ⟨x, rfl⟩ | ⟨l, m, x, rfl⟩ := hi
  · cases h
    exact .inl ⟨_, rfl, rfl, rfl, nofun, fun _ => ⟨rfl, rfl⟩⟩
  · cases h
    exact .inl ⟨_, rfl, rfl, rfl, fun _ => rfl, fun _ => ⟨rfl, rfl⟩⟩
  · obtain ⟨v, rfl⟩ | ⟨hp, ht, hw⟩ := execF64XorReuse_cases h
    · exact .inl ⟨_, rfl, rfl, rfl, nofun, fun _ => ⟨rfl, rfl⟩⟩
    · exact .inr ⟨hp, ht, .inl ⟨x, rfl, hw⟩⟩
  · obtain ⟨v, w, rfl⟩ | ⟨hp, ht, hlm⟩ := execF64XorNew_cases h
    · exact .inl ⟨_, rfl, rfl, rfl, nofun, fun hne => absurd rfl (hne l m x)⟩
    · exact .inr ⟨hp, ht, .inr ⟨l, m, x, rfl, hlm⟩⟩

/-- Settles O26: a float symbol writes the float decoder alone, or is a reserved form that ends the decode. -/
theorem floatSymbolsFrame : Obligations.FloatSymbolsFrame := by
  unfold Obligations.FloatSymbolsFrame
  intro i s t hi h
  obtain ⟨fd, rfl, hrd, hcount, hprev, hwindow⟩ | ⟨hp, rfl, hreserved⟩ := exec_float_cases hi h
  · exact ⟨rfl, rfl, rfl, rfl, rfl, fun _ => rfl, rfl,
      .inl ⟨rfl, rfl, rfl, rfl, rfl, rfl, hrd, hcount, hprev, hwindow⟩⟩
  · exact ⟨s.finishFloats_readers, s.finishFloats_requests, s.finishFloats_params, s.finishFloats_draws,
      s.finishFloats_hostRegisters, by simp, by simp, .inr ⟨hp, rfl, hreserved⟩⟩

/-! ### The int symbols -/

/-- What an int symbol can do: write a value, or step by a delta (rules R163, R164, R171). -/
theorem exec_int_cases {i : Instr} {s t : State}
    (hi : (∃ v, i = .i64First v) ∨ (∃ d, i = .i64FirstDelta d) ∨ i = .i64Dod0 ∨ (∃ d, i = .i64Dod7 d) ∨
      (∃ d, i = .i64Dod9 d) ∨ (∃ d, i = .i64Dod12 d) ∨ (∃ d, i = .i64Dod64 d))
    (h : exec i s = .next t) : (∃ v, t = s.writeInt v) ∨ ((∀ v, i ≠ .i64First v) ∧ ∃ d, t = s.stepInt d) := by
  obtain ⟨v, rfl⟩ | ⟨d, rfl⟩ | rfl | ⟨d, rfl⟩ | ⟨d, rfl⟩ | ⟨d, rfl⟩ | ⟨d, rfl⟩ := hi <;> cases h
  · exact .inl ⟨v, rfl⟩
  all_goals exact .inr ⟨nofun, _, rfl⟩

/-- Settles O27: writing a value leaves the delta, and neither way touches anything but the int decoder. -/
theorem intSymbolsFrame : Obligations.IntSymbolsFrame := by
  unfold Obligations.IntSymbolsFrame
  intro i s t hi h
  obtain ⟨v, rfl⟩ | ⟨hne, d, rfl⟩ := exec_int_cases hi h
  · exact ⟨rfl, rfl, rfl, rfl, rfl, rfl, rfl, rfl, rfl, rfl, rfl, rfl, rfl, fun _ => rfl, fun _ => rfl, rfl⟩
  · exact ⟨rfl, rfl, rfl, rfl, rfl, rfl, rfl, rfl, rfl, rfl, rfl, rfl, rfl, fun ⟨v, e⟩ => absurd e (hne v),
      fun _ => rfl, rfl⟩

/-! ### The container records -/

/-- What HEADER can do (rules R193, R194). -/
theorem execHeader_cases {hd : HeaderFields} {s t : State} (h : execHeader hd s = .next t) :
    (∃ c, t = s.raise c) ∨ t = { s with cp := { s.cp with header := some hd } } := by
  unfold execHeader at h
  split at h <;> cases h
  · exact .inr rfl
  · exact .inl ⟨_, rfl⟩

/-- What TRAILER-FOOTER can do (rules R195 to R197). -/
theorem execTrailerFooter_cases {f : FooterFields} {s t : State} (h : execTrailerFooter f s = .next t) :
    (∃ c, t = s.raise c) ∨
    (∃ start ptr, t = { s with cp := { s.cp with footer := some f, footerStart := start }, ptr := ptr }) := by
  unfold execTrailerFooter at h
  split at h
  · cases h
    exact .inl ⟨_, rfl⟩
  · split at h <;> cases h
    · exact .inr ⟨_, _, rfl⟩
    · exact .inl ⟨_, rfl⟩

/-- A FormatError leaves what is the host's, the parameters and the file (rules R58, R246). -/
theorem raise_frame (s : State) (c : Cause) :
    (s.raise c).readers = s.readers ∧ (s.raise c).requests = s.requests ∧ (s.raise c).params = s.params ∧
      (∀ a, (s.raise c).file.byte a = s.file.byte a) ∧ (s.raise c).file.len = s.file.len := by
  simp

/-- Settles O28: a record raises a FormatError, or writes its own registers of the parser and, a footer or a descriptor, the
pointer. -/
theorem recordsFrame : Obligations.RecordsFrame := by
  unfold Obligations.RecordsFrame
  intro i s t hi h
  obtain ⟨hd, rfl⟩ | ⟨f, rfl⟩ | ⟨d, rfl⟩ | ⟨b, rfl⟩ := hi
  · obtain ⟨c, rfl⟩ | rfl := execHeader_cases h
    · obtain ⟨hreaders, hrequests, hparams, hbytes, hlen⟩ := raise_frame s c
      exact ⟨hreaders, hrequests, hparams, hbytes, hlen, .inl ⟨c, rfl, .inl ⟨hd, rfl⟩⟩⟩
    · exact ⟨rfl, rfl, rfl, fun _ => rfl, rfl,
        .inr ⟨rfl, rfl, rfl, rfl, rfl, rfl, rfl, fun _ _ => ⟨rfl, rfl⟩, nofun, nofun, nofun⟩⟩
  · obtain ⟨c, rfl⟩ | ⟨start, ptr, rfl⟩ := execTrailerFooter_cases h
    · obtain ⟨hreaders, hrequests, hparams, hbytes, hlen⟩ := raise_frame s c
      exact ⟨hreaders, hrequests, hparams, hbytes, hlen, .inl ⟨c, rfl, .inr ⟨f, rfl⟩⟩⟩
    · exact ⟨rfl, rfl, rfl, fun _ => rfl, rfl,
        .inr ⟨rfl, rfl, rfl, rfl, rfl, rfl, rfl, nofun, fun _ _ => rfl, nofun, nofun⟩⟩
  · cases h
    exact ⟨rfl, rfl, rfl, fun _ => rfl, rfl,
      .inr ⟨rfl, rfl, rfl, rfl, rfl, rfl, rfl, nofun, nofun, fun _ _ => by dsimp only; split <;> rfl, nofun⟩⟩
  · cases h
    exact ⟨rfl, rfl, rfl, fun _ => rfl, rfl,
      .inr ⟨rfl, rfl, rfl, rfl, rfl, rfl, rfl, nofun, nofun, nofun, fun _ _ => ⟨by dsimp only; split <;> rfl, rfl⟩⟩⟩

end Sys2Proof
end

section
/-! PROOFS. How the operations start and end, the whole state after a FormatError, and the state after reset (rules R26, R33, R40,
R131, R161, R191, R231 to R234, R246, R270, R271). -/

namespace Sys2Proof

open Machine Safety

/-! ### The ends of a decode -/

/-- With no reader, or with `count` values out, an int decode reads nothing and ends (rules R161, R176). -/
theorem step_ints_done {s : State} {c : Caller} (hc : s.phase = .decodingInts c)
    (hdone : s.id.rd = none ∨ s.id.count.toNat ≤ s.id.out.length) : step s = .next s.finishInts := by
  rw [step_ints_eq hc]
  unfold fetchInt
  split
  · rfl
  · rename_i rd hrd
    obtain hnone | hfull := hdone
    · cases hrd.symm.trans hnone
    · rw [if_neg (Nat.not_lt.mpr hfull)]
      rfl

/-- With no reader, or with `count` values out, a float decode reads nothing and ends (rules R131, R144). -/
theorem step_floats_done {s : State} {c : Caller} (hc : s.phase = .decodingFloats c)
    (hdone : s.fd.rd = none ∨ s.fd.count.toNat ≤ s.fd.out.length) : step s = .next s.finishFloats := by
  rw [step_floats_eq hc]
  unfold fetchFloat
  split
  · rfl
  · rename_i rd hrd
    obtain hnone | hfull := hdone
    · cases hrd.symm.trans hnone
    · rw [if_neg (Nat.not_lt.mpr hfull)]
      rfl

theorem finishInts_host {s : State} (hc : s.phase = .decodingInts .host) :
    s.finishInts = s.deliver (.ints s.id.out) := by
  unfold State.finishInts
  rw [hc]

theorem finishInts_readFile {s : State} (hc : s.phase = .decodingInts .readFile) :
    s.finishInts =
      { s with phase := .decodingFloats .readFile, id := {}, orch := { s.orch with ts := s.id.out } } := by
  unfold State.finishInts
  rw [hc]

theorem finishFloats_host {s : State} (hc : s.phase = .decodingFloats .host) :
    s.finishFloats = s.deliver (.floats s.fd.out) := by
  unfold State.finishFloats
  rw [hc]

theorem finishFloats_readFile {s : State} (hc : s.phase = .decodingFloats .readFile) :
    s.finishFloats = { s with phase := .pairing, fd := {}, orch := { s.orch with val := s.fd.out } } := by
  unfold State.finishFloats
  rw [hc]

theorem returnFile_rows {s : State} {rows : List (Word × Word)} (h : s.orch.result = some (.rows rows)) :
    s.returnFile = s.deliverParsed (.rows rows) := by
  unfold State.returnFile
  rw [h]

theorem returnFile_formatError {s : State} {c : Cause} (h : s.orch.result = some (.formatError c)) :
    s.returnFile = s.deliverError c := by
  unfold State.returnFile
  rw [h]

/-- A row of the pairing is made of the two columns' values at its place (rule R232). -/
theorem zip_getElem?_of_lt {ts val : List Word} {j : Nat} (h : j < (ts.zip val).length) :
    ∃ a b, ts[j]? = some a ∧ val[j]? = some b ∧ (ts.zip val)[j]? = some (a, b) :=
  ⟨_, _, (List.getElem?_zip_eq_some.mp (List.getElem?_eq_getElem h)).1,
    (List.getElem?_zip_eq_some.mp (List.getElem?_eq_getElem h)).2, List.getElem?_eq_getElem h⟩

/-- Settles O31: each end by its phase and caller, and the rows by `List.zip`. -/
theorem howADecodeEnds : Obligations.HowADecodeEnds := by
  unfold Obligations.HowADecodeEnds
  refine ⟨fun s c => step_ints_done, fun s c => step_floats_done, fun s => ⟨finishInts_host, finishFloats_host,
    finishInts_readFile, finishFloats_readFile, fun hc => ?_, fun rows hc hr => ?_⟩⟩
  · exact ⟨s.orch.ts.zip s.orch.val, step_pairing_eq hc, List.length_zip, fun _ => zip_getElem?_of_lt⟩
  · rw [step_returning_eq hc, returnFile_rows hr]
    rfl

/-! ### The start of an operation -/

/-- An idle machine serves its next request from a block that holds nothing (rules R39, R40, R270). -/
theorem step_idle_request {s : State} {r : Request} {rest : List Request} (hc : s.phase = .idle)
    (hr : s.requests = r :: rest) : step s = serve r { s.discard with requests := rest } := by
  rw [step_idle_eq hc]
  unfold idleStep
  rw [hr]

/-- A file within the bound, if there is one (rule R6). -/
theorem admits_of_bound {p : Params} {file : List Byte} (h : ∀ bound, p.fileLenMax = some bound → file.length ≤ bound) :
    admits p file = true := by
  unfold admits
  split
  · rfl
  · exact decide_eq_true (h _ (by assumption))

/-- Settles O11: the request is served from a discarded block, and the file is read back as it was presented. -/
theorem operationsStartFromTheStartValues : Obligations.OperationsStartFromTheStartValues := by
  unfold Obligations.OperationsStartFromTheStartValues
  refine ⟨fun s data count rest hc => ⟨fun hr => step_idle_request hc hr, fun hr => step_idle_request hc hr⟩,
    fun s file rest hc hmax => ⟨fun hr => ?_, fun hr => ?_⟩, fun file a => ⟨ofBytes_len file, ofBytes_byte file a⟩⟩
  · rw [step_idle_request hc hr]
    exact if_pos (admits_of_bound hmax)
  · rw [step_idle_request hc hr]
    exact if_pos (admits_of_bound hmax)

/-! ### The FormatError -/

/-- Settles O32: the two ways `State.raise` goes, by the caller of the parse, and READ_FILE's return with the cause. -/
theorem formatErrorEntry : Obligations.FormatErrorEntry := by
  unfold Obligations.FormatErrorEntry
  intro s c
  refine ⟨fun hc => ?_, fun hc => ?_, fun hc hr => ?_⟩
  · obtain ⟨hc', _⟩ | ⟨_, e⟩ := raise_cases s c
    · exact absurd hc' hc
    · exact e
  · obtain ⟨_, e⟩ | ⟨hc', _⟩ := raise_cases s c
    · exact e
    · exact absurd hc hc'
  · rw [step_returning_eq hc, returnFile_formatError hr]
    rfl

/-! ### Reset -/

/-- Settles O37: each register's start value stands in `State.reset`. -/
theorem resetLeavesNoInvocation : Obligations.ResetLeavesNoInvocation := by
  unfold Obligations.ResetLeavesNoInvocation
  and_intros <;> rfl

/-- Settles O48: after reset there is no reader, an empty file, no value out, no window and no operation. -/
theorem resetMeetsTheInvariants : Obligations.ResetMeetsTheInvariants := by
  unfold Obligations.ResetMeetsTheInvariants
  have hreaders : ReadersInBounds State.reset := ⟨nofun, nofun, nofun⟩
  have hdecoders : DecodersSound State.reset := ⟨⟨rfl, Nat.zero_le _⟩, rfl, rfl, Nat.zero_le _⟩
  have hwindow : WindowLegal State.reset := windowLegal_of_not_valid rfl rfl nofun
  have hheld : HeldOnlyInUse State.reset := ⟨rfl, rfl, rfl, rfl, rfl⟩
  exact ⟨hreaders, reset_file_wf, hdecoders, hwindow, containerLegal_of_idle rfl, hheld⟩

end Sys2Proof
end

section
/-! PROOFS. The container records and the bytes of the file: each record read back from its encoding, and the checks of a descriptor
and of a column (rules R61 to R63, R96 to R99, R199 to R202, R208). -/

namespace Sys2Proof

open Machine Safety

/-! ### A descriptor and a column at an address -/

/-- The six fields as the bytes at `p` give them (rules R98, R199). -/
def descriptorAt (f : FileBuf) (p : Nat) : DescriptorFields :=
  let k := leNat (f.bytes p 4)
  { nameLen := BitVec.ofNat 32 k
    name := f.bytes (p + 4) k
    type := BitVec.ofNat 32 (leNat (f.bytes (p + 4 + k) 4))
    offset := BitVec.ofNat 64 (leNat (f.bytes (p + 8 + k) 8))
    size := BitVec.ofNat 64 (leNat (f.bytes (p + 16 + k) 8))
    count := BitVec.ofNat 64 (leNat (f.bytes (p + 24 + k) 8)) }

/-- A descriptor is read if and only if all of it lies in the file: its last field ends where it does (rules R62, R199, R200). -/
theorem decodeDescriptor_eq (f : FileBuf) (p : Nat) :
    decodeDescriptor f p =
      if p + 32 + leNat (f.bytes p 4) ≤ f.len then .ok (descriptorAt f p) else .error .outOfRange := by
  have hnameLen := memRead32_nat f p
  have hname (k : Nat) := memBytes_nat f (p + 4) k
  have htype (k : Nat) := memRead32_nat f (p + 4 + k)
  have hoffset (k : Nat) := memRead64_nat f (p + 8 + k)
  have hsize (k : Nat) := memRead64_nat f (p + 16 + k)
  have hcount (k : Nat) := memRead64_nat f (p + 24 + k)
  push_cast at hname htype hoffset hsize hcount
  unfold decodeDescriptor
  by_cases h4 : p + 4 ≤ f.len
  · rw [hnameLen, if_pos h4]
    simp only [Option.bind_eq_bind, Option.bind_some, toNat_ofNat_bytes4, hname, htype, hoffset, hsize, hcount]
    by_cases hin : p + 32 + leNat (f.bytes p 4) ≤ f.len
    · rw [if_pos hin, if_pos (by omega), if_pos (by omega), if_pos (by omega), if_pos (by omega), if_pos (by omega)]
      rfl
    · have hend : ¬p + 24 + leNat (f.bytes p 4) + 8 ≤ f.len := by omega
      simp only [if_neg hin, if_neg hend, Option.bind_none, Option.bind_fun_none]
      rfl
  · rw [hnameLen, if_neg h4, if_neg (by omega)]
    rfl

/-- A column whose range lies in the file (rules R63, R99, R202). -/
theorem decodeColumn_inside {f : FileBuf} {offset size : Word} (hsize : 8 ≤ size.toNat)
    (hend : offset.toNat + size.toNat ≤ f.len) :
    decodeColumn f offset size = .ok (f.bytes (offset.toNat + 8) (size.toNat - 8)) :=
  if_neg (not_or.mpr ⟨Nat.not_lt.mpr hsize, Nat.not_lt.mpr hend⟩)

/-- A column too small for its sub-header, or not all in the file (rules R63, R202, R208). -/
theorem decodeColumn_outside {f : FileBuf} {offset size : Word}
    (h : size.toNat < 8 ∨ f.len < offset.toNat + size.toNat) : decodeColumn f offset size = .error .outOfRange :=
  if_pos h

/-! ### Segments of a file -/

/-- The bytes `seg` stand at address `a` of a byte sequence. -/
def SegmentAt (file : List Byte) (a : Nat) (seg : List Byte) : Prop :=
  ∃ pre post, file = pre ++ seg ++ post ∧ a = pre.length

/-- Where two runs of bytes stand one after the other, each stands at its own address. -/
theorem segmentAt_append {file xs ys : List Byte} {a : Nat} :
    SegmentAt file a (xs ++ ys) ↔ SegmentAt file a xs ∧ SegmentAt file (a + xs.length) ys := by
  constructor
  · rintro ⟨pre, post, rfl, rfl⟩
    exact ⟨⟨pre, ys ++ post, by simp, rfl⟩, ⟨pre ++ xs, post, by simp, by simp⟩⟩
  · rintro ⟨⟨pre, post, rfl, rfl⟩, pre', post', hfile, hlen⟩
    have hpost : post = ys ++ post' :=
      (List.append_inj (hfile.trans (List.append_assoc ..)) (by simpa using hlen)).2
    exact ⟨pre, post', by simp [hpost], rfl⟩

section

variable {file seg : List Byte} {a : Nat} {addr : Int}

theorem SegmentAt.bytes {n : Nat} (h : SegmentAt file a seg) (haddr : addr = a) (hn : n = seg.length) :
    memBytes (FileBuf.ofBytes file) addr n = some seg := by
  obtain ⟨pre, post, hfile, rfl⟩ := h
  exact memBytes_segment hfile haddr hn

theorem SegmentAt.read32 {v : U32} (h : SegmentAt file a (leBytes 4 v.toNat)) (haddr : addr = a) :
    memRead32 (FileBuf.ofBytes file) addr = some v := by
  obtain ⟨pre, post, hfile, rfl⟩ := h
  exact memRead32_segment hfile haddr

theorem SegmentAt.read64 {v : Word} (h : SegmentAt file a (leBytes 8 v.toNat)) (haddr : addr = a) :
    memRead64 (FileBuf.ofBytes file) addr = some v := by
  obtain ⟨pre, post, hfile, rfl⟩ := h
  exact memRead64_segment hfile haddr

end

/-! ### A record is read back from its bytes -/

/-- A header's bytes before the reserved ones, which are never read (rules R32, R96). -/
theorem encodeHeader_take {h : HeaderFields} (hid : h.identifier.length = 4) :
    (encodeHeader h).take 24 =
      leBytes 4 h.magic.toNat ++ leBytes 4 h.formatVersion.toNat ++ leBytes 8 h.recordCount.toNat ++
        leBytes 4 h.columnCount.toNat ++ h.identifier :=
  List.take_left' (by simp [hid])

/-- A header at the beginning of a file of at least `MIN_FILE_BYTES` (rules R96, R192 to R194). -/
theorem decodeHeader_of_segmentAt {h : HeaderFields} {file : List Byte} (hid : h.identifier.length = 4)
    (hlen : 36 ≤ file.length) (hseg : SegmentAt file 0 ((encodeHeader h).take 24)) :
    decodeHeader (FileBuf.ofBytes file) = .ok h := by
  simp only [encodeHeader_take hid, segmentAt_append, List.length_append, leBytes_length] at hseg
  obtain ⟨⟨⟨⟨hmagic, hversion⟩, hrecords⟩, hcolumns⟩, hidentifier⟩ := hseg
  have hsize : ¬(FileBuf.ofBytes file).len < Config.minFileBytes := Nat.not_lt.mpr hlen
  rw [decodeHeader, if_neg hsize, hmagic.read32 (by rfl), hversion.read32 (by rfl), hrecords.read64 (by rfl),
    hcolumns.read32 (by rfl), hidentifier.bytes (by rfl) hid.symm]
  rfl

/-- A footer's head at `start`, with the trailer at the end of the file (rules R97, R195 to R197). -/
theorem decodeTrailerFooter_of_segmentAt {f : FooterFields} {file : List Byte} {start : Nat} (hstart : 32 ≤ start)
    (hlen : start + f.footerSize.toNat + 4 = file.length) (hhead : SegmentAt file start (encodeFooterHead f))
    (htrailer : SegmentAt file (start + f.footerSize.toNat) (encodeTrailer f)) :
    decodeTrailerFooter (FileBuf.ofBytes file) = .ok f := by
  simp only [encodeFooterHead, segmentAt_append, leBytes_length] at hhead
  obtain ⟨hversion, hcount⟩ := hhead
  have hsize : memRead32 (FileBuf.ofBytes file) (((FileBuf.ofBytes file).len : Int) - Config.footerSizeBytes) =
      some f.footerSize := htrailer.read32 (by simp [Config.footerSizeBytes]; omega)
  have hfooterStart : footerStart (FileBuf.ofBytes file).len f.footerSize = start := by
    simp [footerStart, Config.footerSizeBytes]
    omega
  have hpast : ¬(start : Int) < Config.headerBytes := by simpa [Config.headerBytes] using hstart
  unfold decodeTrailerFooter
  rw [hsize]
  dsimp only [orOutOfRange, bind, Except.bind]
  rw [hfooterStart, if_neg hpast, hversion.read32 (by simp), hcount.read32 (by simp)]
  rfl

/-- A descriptor at any address (rules R98, R199, R200). -/
theorem decodeDescriptor_of_segmentAt {d : DescriptorFields} {file : List Byte} {p : Nat} (hd : d.wellFormed = true)
    (hseg : SegmentAt file p (encodeDescriptor d)) : decodeDescriptor (FileBuf.ofBytes file) p = .ok d := by
  have hname : d.name.length = d.nameLen.toNat := by simpa [DescriptorFields.wellFormed] using hd
  simp only [encodeDescriptor, segmentAt_append, List.length_append, leBytes_length, hname] at hseg
  obtain ⟨⟨⟨⟨⟨hnameLen, hnameBytes⟩, htype⟩, hoffset⟩, hsize⟩, hcount⟩ := hseg
  unfold decodeDescriptor
  rw [hnameLen.read32 rfl]
  simp only [Option.bind_eq_bind, Option.bind_some]
  rw [hnameBytes.bytes (by simp) hname.symm, htype.read32 (by simp; omega), hoffset.read64 (by simp; omega),
    hsize.read64 (by simp; omega), hcount.read64 (by simp; omega)]
  rfl

/-- The data of a column, after the sub-header, which is not read (rules R61, R63, R99, R202). -/
theorem decodeColumn_of_segmentAt {file data : List Byte} {offset size : Word} (hsize : size.toNat = 8 + data.length)
    (hdata : SegmentAt file (offset.toNat + 8) data) : decodeColumn (FileBuf.ofBytes file) offset size = .ok data := by
  obtain ⟨pre, post, rfl, hpre⟩ := hdata
  rw [decodeColumn_inside (by omega) (by simp; omega), ofBytes_bytes _ _ _ (by simp; omega), List.append_assoc,
    List.drop_left' hpre.symm, List.take_left' (by omega)]

/-- Settles O5: each record's fields stand one after the other at the addresses its decoder reads. -/
theorem recordsDecodeFromTheirEncoding : Obligations.RecordsDecodeFromTheirEncoding := by
  unfold Obligations.RecordsDecodeFromTheirEncoding
  refine ⟨fun h reserved rest hid hreserved hrest => ?_, fun f before body hbefore hsize => ?_,
    fun d before rest hd => ?_, fun before subHeader data rest offset size hsub hoffset hsize => ?_⟩
  · exact decodeHeader_of_segmentAt hid (by simp [encodeHeader_take hid, hid]; omega) ⟨[], reserved ++ rest, by simp, rfl⟩
  · exact decodeTrailerFooter_of_segmentAt hbefore (by simp [encodeFooterHead, encodeTrailer]; omega)
      ⟨before, body ++ encodeTrailer f, by simp, rfl⟩
      ⟨before ++ encodeFooterHead f ++ body, [], by simp, by simp [encodeFooterHead]; omega⟩
  · exact decodeDescriptor_of_segmentAt hd ⟨before, rest, rfl, rfl⟩
  · exact decodeColumn_of_segmentAt hsize ⟨before ++ subHeader, rest, rfl, by simp; omega⟩

/-! ### The step of a parse that stands at a descriptor or at a column -/

theorem stage_of_atDescriptor {s : State} (h : AtDescriptor s) : s.cp.stage = .descriptor := by
  obtain ⟨-, hheader, hfooter, hcol⟩ := h
  obtain ⟨_, e⟩ | ⟨_, _, e⟩ | ⟨e, _⟩ | ⟨d0, d1, _, _, h0, h1, _⟩ := stage_cases s.cp
  · exact absurd e hheader
  · exact absurd e hfooter
  · exact e
  · simp [h0, h1] at hcol

theorem stage_of_atColumn {s : State} {d : DescriptorFields} (h : AtColumn s d) : s.cp.stage = .column d := by
  obtain ⟨-, hheader, hfooter, d0, d1, h0, h1, hslice⟩ := h
  obtain ⟨hd, hheader⟩ := Option.ne_none_iff_exists'.mp hheader
  obtain ⟨f, hfooter⟩ := Option.ne_none_iff_exists'.mp hfooter
  obtain ⟨hs0, rfl⟩ | ⟨hs0, hs1, rfl⟩ := hslice
  · simp [Container.stage, hheader, hfooter, h0, h1, hs0]
  · obtain ⟨b, hs0⟩ := Option.ne_none_iff_exists'.mp hs0
    simp [Container.stage, hheader, hfooter, h0, h1, hs0, hs1]

/-- A parse reads the descriptor at its pointer. -/
theorem step_atDescriptor {s : State} (h : AtDescriptor s) :
    step s = (fetchedRecord s .descriptor (decodeDescriptor s.file s.ptr)).run := by
  have ⟨⟨c, hc⟩, _⟩ := h
  rw [step_parsing_eq hc, fetchRecord, stage_of_atDescriptor h]

/-- A parse cuts the column its descriptor describes. -/
theorem step_atColumn {s : State} {d : DescriptorFields} (h : AtColumn s d) :
    step s = (fetchedRecord s .column (decodeColumn s.file d.offset d.size)).run := by
  have ⟨⟨c, hc⟩, _⟩ := h
  rw [step_parsing_eq hc, fetchRecord, stage_of_atColumn h]

/-- Settles O35: the descriptor's last field lies in the file if and only if the whole of it does. -/
theorem descriptorChecks : Obligations.DescriptorChecks := by
  unfold Obligations.DescriptorChecks
  rintro s p k h hptr rfl
  rw [step_atDescriptor h, hptr, decodeDescriptor_eq]
  refine ⟨fun hout => ?_, fun hin => ⟨descriptorAt s.file p, ?_, toNat_ofNat_bytes4 _ _, rfl, toNat_ofNat_bytes4 _ _,
    toNat_ofNat_bytes8 _ _, toNat_ofNat_bytes8 _ _, toNat_ofNat_bytes8 _ _⟩⟩
  · rw [if_neg (Nat.not_le.mpr hout)]
    rfl
  · rw [if_pos hin]
    rfl

/-- Settles O36: the two sides of the range check, each executed or raised in the same step. -/
theorem columnChecks : Obligations.ColumnChecks := by
  unfold Obligations.ColumnChecks
  intro s d h
  rw [step_atColumn h]
  refine ⟨fun hout => ?_, fun hsize hend => ?_⟩
  · rw [decodeColumn_outside hout]
    rfl
  · rw [decodeColumn_inside hsize hend]
    rfl

end Sys2Proof
end

section
/-! PROOFS. What a running operation may not write or show before its end: its inputs, and the host's result and registers (rules R26,
R38, R58, R66, R69, R254). -/

namespace Sys2Proof

open Machine Safety

/-! ### The file, the host's readers, its requests and what it was shown -/

/-- A step that leaves the file and what is the host's as they are, and delivers nothing unless it ends the operation. -/
structure HostKept (s t : State) : Prop where
  file : t.file = s.file
  readers : t.readers = s.readers
  requests : t.requests = s.requests
  shown : t.phase ≠ .idle → t.result = s.result ∧ t.hostRegisters = s.hostRegisters

namespace HostKept

/-- A step that ends the operation may deliver. -/
theorem of_idle {s t : State} (hfile : t.file = s.file) (hreaders : t.readers = s.readers)
    (hrequests : t.requests = s.requests) (hidle : t.phase = .idle) : HostKept s t :=
  ⟨hfile, hreaders, hrequests, fun hne => absurd hidle hne⟩

variable (s : State)

/-- A step that writes the block's own registers alone. -/
theorem of_registers (phase : Phase) (ptr : Int) (id : IntDecoder) (fd : FloatDecoder) (cp : Container)
    (orch : Orchestrator) :
    HostKept s { s with phase := phase, ptr := ptr, id := id, fd := fd, cp := cp, orch := orch } :=
  ⟨rfl, rfl, rfl, fun _ => ⟨rfl, rfl⟩⟩

theorem raise (c : Cause) : HostKept s (s.raise c) := by
  obtain ⟨_, e⟩ | ⟨_, e⟩ := raise_cases s c <;> rw [e]
  · exact of_registers s _ _ _ _ _ _
  · exact of_idle rfl rfl rfl rfl

theorem finishParse (count0 count1 : Word) (slice0 slice1 : List Byte) :
    HostKept s (s.finishParse count0 count1 slice0 slice1) := by
  obtain ⟨_, e⟩ | ⟨_, e⟩ := finishParse_cases s count0 count1 slice0 slice1 <;> rw [e]
  · exact of_registers s _ _ _ _ _ _
  · exact of_idle rfl rfl rfl rfl

theorem finishInts : HostKept s s.finishInts := by
  obtain ⟨_, e⟩ | ⟨_, e⟩ := finishInts_cases s <;> rw [e]
  · exact of_registers s _ _ _ _ _ _
  · exact of_idle rfl rfl rfl rfl

theorem finishFloats : HostKept s s.finishFloats := by
  obtain ⟨_, e⟩ | ⟨_, e⟩ := finishFloats_cases s <;> rw [e]
  · exact of_registers s _ _ _ _ _ _
  · exact of_idle rfl rfl rfl rfl

end HostKept

/-- While an operation runs, no step writes what is the host's, and only the end of the operation delivers. -/
theorem step_hostKept {s t : State} (hrun : s.phase ≠ .idle) (h : step s = .next t) : HostKept s t := by
  cases hc : s.phase with
  | idle => exact absurd hc hrun
  | parsing c =>
    obtain ⟨e, rfl⟩ | ⟨_, _, _, rfl⟩ | ⟨_, _, _, _, rfl⟩ | ⟨_, _, rfl⟩ | ⟨_, _, _, _, rfl⟩ | ⟨c0, c1, b0, b1, _, rfl⟩ :=
      step_parsing_cases hc h
    · exact .raise s e
    · exact .of_registers s _ _ _ _ _ _
    · exact .of_registers s _ _ _ _ _ _
    · exact .of_registers s _ _ _ _ _ _
    · exact .of_registers s _ _ _ _ _ _
    · exact .finishParse s c0 c1 b0 b1
  | decodingInts c =>
    obtain rfl | ⟨_, _, _, _, _, ⟨_, _, rfl⟩ | ⟨_, _, rfl⟩ | ⟨_, _, rfl⟩⟩ := step_ints_cases hc h
    · exact .finishInts s
    all_goals exact .of_registers s _ _ _ _ _ _
  | decodingFloats c =>
    obtain rfl | ⟨_, _, _, _, _, ⟨_, _, rfl⟩ | ⟨_, rfl⟩ | ⟨_, _, rfl⟩ | ⟨_, _, _, _, _, _, _, rfl⟩⟩ :=
      step_floats_cases hc h
    · exact .finishFloats s
    all_goals exact .of_registers s _ _ _ _ _ _
  | pairing => cases (step_pairing_eq hc).symm.trans h; exact .of_registers s _ _ _ _ _ _
  | returning =>
    cases (step_returning_eq hc).symm.trans h
    exact .of_idle s.returnFile_file s.returnFile_readers s.returnFile_requests s.returnFile_phase

/-! ### The inputs of a decode -/

/-- An int decode that goes on keeps its count and the bytes its reader stands over (rules R26, R69). -/
theorem step_ints_inputs {s t : State} {c : Caller} (hc : s.phase = .decodingInts c) (h : step s = .next t)
    (hp : t.phase = s.phase) :
    t.id.count = s.id.count ∧ t.id.rd.map (fun rd => rd.buffer) = s.id.rd.map (fun rd => rd.buffer) := by
  obtain rfl | ⟨rd, rd', hrd, ⟨hbuffer, _⟩, _, hsym⟩ := step_ints_cases hc h
  · exact absurd hp (finishInts_phase_ne hc)
  · rw [hrd, Option.map_some, ← hbuffer]
    obtain ⟨_, _, rfl⟩ | ⟨_, _, rfl⟩ | ⟨_, _, rfl⟩ := hsym <;> exact ⟨rfl, rfl⟩

/-- A float decode that goes on keeps its count and the bytes its reader stands over (rules R26, R69). -/
theorem step_floats_inputs {s t : State} {c : Caller} (hc : s.phase = .decodingFloats c) (h : step s = .next t)
    (hp : t.phase = s.phase) :
    t.fd.count = s.fd.count ∧ t.fd.rd.map (fun rd => rd.buffer) = s.fd.rd.map (fun rd => rd.buffer) := by
  obtain rfl | ⟨rd, rd', hrd, ⟨hbuffer, _⟩, _, hsym⟩ := step_floats_cases hc h
  · exact absurd hp (finishFloats_phase_ne hc)
  · rw [hrd, Option.map_some, ← hbuffer]
    obtain ⟨_, _, rfl⟩ | ⟨_, rfl⟩ | ⟨_, _, rfl⟩ | ⟨_, _, _, _, _, _, _, rfl⟩ := hsym <;> exact ⟨rfl, rfl⟩

/-- READ_FILE's int decode, its end included, leaves what the parse passed on to the float decode, and the parser's registers. -/
theorem step_fileInts_keeps {s t : State} (hc : s.phase = .decodingInts .readFile) (h : step s = .next t) :
    t.fd = s.fd ∧ t.cp = s.cp := by
  obtain rfl | ⟨_, _, _, _, _, ⟨_, _, rfl⟩ | ⟨_, _, rfl⟩ | ⟨_, _, rfl⟩⟩ := step_ints_cases hc h
  · rw [finishInts_readFile hc]
    exact ⟨rfl, rfl⟩
  all_goals exact ⟨rfl, rfl⟩

/-- READ_FILE's float decode, its end included, leaves the decoded int column, and the parser's registers. -/
theorem step_fileFloats_keeps {s t : State} (hc : s.phase = .decodingFloats .readFile) (h : step s = .next t) :
    t.orch.ts = s.orch.ts ∧ t.cp = s.cp := by
  obtain rfl | ⟨_, _, _, _, _, ⟨_, _, rfl⟩ | ⟨_, rfl⟩ | ⟨_, _, rfl⟩ | ⟨_, _, _, _, _, _, _, rfl⟩⟩ :=
    step_floats_cases hc h
  · rw [finishFloats_readFile hc]
    exact ⟨rfl, rfl⟩
  all_goals exact ⟨rfl, rfl⟩

/-- Settles O39: what is the host's in any phase, then the inputs of each decode in its own. -/
theorem runningOperationWritesNoInputAndShowsNothing : Obligations.RunningOperationWritesNoInputAndShowsNothing := by
  unfold Obligations.RunningOperationWritesNoInputAndShowsNothing
  intro s t hrun h
  obtain ⟨hfile, hreaders, hrequests, hshown⟩ := step_hostKept hrun h
  exact ⟨fun _ => by rw [hfile], hfile, hreaders, hrequests, fun _ hc => step_ints_inputs hc h,
    fun _ hc => step_floats_inputs hc h, fun hc => step_fileInts_keeps hc h, fun hc => step_fileFloats_keeps hc h, hshown⟩

end Sys2Proof
end

section
/-! PROOFS. A symbol and its bits: it is decoded from its encoding, what was decoded was its encoding, and the int stream has no
reserved form (rules R81 to R95). -/

namespace Sys2Proof

open Machine

/-! ### Reading from bits that are known -/

/-- A reader that has not failed and whose unread bits are `bits`. -/
structure Offers (rd : Reader) (bits : List Bool) : Prop where
  failed : rd.failed = false
  unread : rd.unread = bits

section

variable {policy : ReadAfterFail} {rd : Reader} {rest : List Bool} {k : Word → Reader → SymbolRead}

/-- `n` bits further, a reader offers the bits that follow. -/
theorem Offers.drop {bits : List Bool} (h : Offers rd bits) (n : Nat) : Offers (rd.advance n) (bits.drop n) :=
  ⟨h.failed, by rw [Reader.unread_advance, h.unread]⟩

/-- A read of one bit goes on with that bit. -/
theorem Offers.afterRead_bit {b : Bool} (h : Offers rd (b :: rest)) :
    afterRead (readBits policy rd 1) k = k (if b then 1 else 0) (rd.advance 1) := by
  rw [(read_bit h.failed h.unread).1]
  rfl

/-- A read of the bits of `v` goes on with `v`. -/
theorem Offers.afterRead_msbBits {n v : Nat} (h : Offers rd (msbBits n v ++ rest)) (hn : 1 ≤ n ∧ n ≤ 64)
    (hv : v < 2 ^ n) : afterRead (readBits policy rd n) k = k (BitVec.ofNat 64 v) (rd.advance n) := by
  rw [(read_msbBits n v h.failed hn.1 hn.2 hv h.unread).1]
  rfl

end

/-! ### A symbol of the int stream from its bits (rules R85, R87) -/

section

variable {p : Params} {rd : Reader} {rest : List Bool}

theorem decodeIntLater_dod0 (h : Offers rd ([false] ++ rest)) :
    decodeIntLater p rd = .symbol .i64Dod0 (rd.advance 1) :=
  h.afterRead_bit

theorem decodeIntLater_dod7 {d : BitVec 7} (h : Offers rd ([true, false] ++ msbBits 7 d.toNat ++ rest)) :
    decodeIntLater p rd = .symbol (.i64Dod7 d) (rd.advance 9) := by
  have hfield : Offers (rd.advance 2) (msbBits 7 d.toNat ++ rest) := h.drop 2
  simp [decodeIntLater, h.afterRead_bit, (h.drop 1).afterRead_bit, hfield.afterRead_msbBits (by decide) d.isLt]

theorem decodeIntLater_dod9 {d : BitVec 9} (h : Offers rd ([true, true, false] ++ msbBits 9 d.toNat ++ rest)) :
    decodeIntLater p rd = .symbol (.i64Dod9 d) (rd.advance 12) := by
  have hfield : Offers (rd.advance 3) (msbBits 9 d.toNat ++ rest) := h.drop 3
  simp [decodeIntLater, h.afterRead_bit, (h.drop 1).afterRead_bit, (h.drop 2).afterRead_bit,
    hfield.afterRead_msbBits (by decide) d.isLt]

theorem decodeIntLater_dod12 {d : BitVec 12} (h : Offers rd ([true, true, true, false] ++ msbBits 12 d.toNat ++ rest)) :
    decodeIntLater p rd = .symbol (.i64Dod12 d) (rd.advance 16) := by
  have hfield : Offers (rd.advance 4) (msbBits 12 d.toNat ++ rest) := h.drop 4
  simp [decodeIntLater, h.afterRead_bit, (h.drop 1).afterRead_bit, (h.drop 2).afterRead_bit, (h.drop 3).afterRead_bit,
    hfield.afterRead_msbBits (by decide) d.isLt]

theorem decodeIntLater_dod64 {d : Word} (h : Offers rd ([true, true, true, true] ++ msbBits 64 d.toNat ++ rest)) :
    decodeIntLater p rd = .symbol (.i64Dod64 d) (rd.advance 68) := by
  have hfield : Offers (rd.advance 4) (msbBits 64 d.toNat ++ rest) := h.drop 4
  simp [decodeIntLater, h.afterRead_bit, (h.drop 1).afterRead_bit, (h.drop 2).afterRead_bit, (h.drop 3).afterRead_bit,
    hfield.afterRead_msbBits (by decide) d.isLt]

/-! ### A symbol of the float stream from its bits (rules R83, R86, R92 to R95) -/

variable {window : Option Window}

theorem decodeFloatLater_repeat (h : Offers rd ([false] ++ rest)) :
    decodeFloatLater p window rd = .symbol .f64Repeat (rd.advance 1) :=
  h.afterRead_bit

/-- A reuse-window block where no window is held is found out by its two bits (rule R95). -/
theorem decodeFloatLater_reuseBeforeWindow (h : Offers rd ([true, false] ++ rest)) :
    decodeFloatLater p none rd = .reserved .reuseBeforeWindow (rd.advance 2) := by
  simp [decodeFloatLater, h.afterRead_bit, (h.drop 1).afterRead_bit]

theorem decodeFloatLater_xorReuse {w : Window} {x : Word} (hw : 1 ≤ reuseWidth w) (hx : x.toNat < 2 ^ reuseWidth w)
    (h : Offers rd ([true, false] ++ msbBits (reuseWidth w) x.toNat ++ rest)) :
    decodeFloatLater p (some w) rd = .symbol (.f64XorReuse x) (rd.advance (2 + reuseWidth w)) := by
  have hpayload : Offers (rd.advance 2) (msbBits (reuseWidth w) x.toNat ++ rest) := h.drop 2
  have hwidth : 1 ≤ reuseWidth w ∧ reuseWidth w ≤ 64 := ⟨hw, by unfold reuseWidth; omega⟩
  simp [decodeFloatLater, h.afterRead_bit, (h.drop 1).afterRead_bit, hpayload.afterRead_msbBits hwidth hx]

/-- What follows the fields `L` and `M` of a new-window block, by the window they stand for (rules R92 to R94, R137). -/
def readNewPayload (p : Params) (l m : BitVec 6) (rd : Reader) : SymbolRead :=
  match newWindow p.reservedPolicy l m with
  | none => .reserved .badWindow rd
  | some (n, _) => afterRead (readBits p.readAfterFail rd n) fun x rd => .symbol (.f64XorNew l m x) rd

/-- The fields of a new-window block are read before anything of its payload is (rule R94). -/
theorem decodeFloatLater_newFields {l m : BitVec 6}
    (h : Offers rd ([true, true] ++ msbBits 6 l.toNat ++ msbBits 6 m.toNat ++ rest)) :
    decodeFloatLater p window rd = readNewPayload p l m (rd.advance 14) := by
  have hl : Offers (rd.advance 2) (msbBits 6 l.toNat ++ (msbBits 6 m.toNat ++ rest)) := by
    simpa using h.drop 2
  have hm : Offers (rd.advance 8) (msbBits 6 m.toNat ++ rest) := h.drop 8
  simp [decodeFloatLater, h.afterRead_bit, (h.drop 1).afterRead_bit, hl.afterRead_msbBits (by decide) l.isLt,
    hm.afterRead_msbBits (by decide) m.isLt]
  rfl

theorem decodeFloatLater_badWindow {l m : BitVec 6} (hw : newWindow p.reservedPolicy l m = none)
    (h : Offers rd ([true, true] ++ msbBits 6 l.toNat ++ msbBits 6 m.toNat ++ rest)) :
    decodeFloatLater p window rd = .reserved .badWindow (rd.advance 14) := by
  rw [decodeFloatLater_newFields h, readNewPayload, hw]

theorem decodeFloatLater_xorNew {l m : BitVec 6} {n : Nat} {w : Window} {x : Word}
    (hw : newWindow p.reservedPolicy l m = some (n, w)) (hx : x.toNat < 2 ^ n)
    (h : Offers rd ([true, true] ++ msbBits 6 l.toNat ++ msbBits 6 m.toNat ++ msbBits n x.toNat ++ rest)) :
    decodeFloatLater p window rd = .symbol (.f64XorNew l m x) (rd.advance (14 + n)) := by
  have hpayload : Offers (rd.advance 14) (msbBits n x.toNat ++ rest) := h.drop 14
  obtain ⟨h1, h64, -⟩ := newWindow_width hw
  rw [List.append_assoc] at h
  rw [decodeFloatLater_newFields h, readNewPayload, hw]
  simp [hpayload.afterRead_msbBits ⟨h1, h64⟩ hx]

end

/-- The 64 bits of the symbols at value #1, and of an int stream's value #2, are one read (rules R133, R163, R164). -/
theorem afterRead_wholeWord {policy : ReadAfterFail} {rd : Reader} {rest : List Bool} {v : Word} {i : Word → Instr}
    (h : Offers rd (msbBits 64 v.toNat ++ rest)) :
    (afterRead (readBits policy rd 64) fun v rd => .symbol (i v) rd) = .symbol (i v) (rd.advance 64) := by
  simp [h.afterRead_msbBits (by decide) v.isLt]

/-- A reuse-window block may stand where a window is held that its payload fits (rules R95, R136). -/
theorem fits_f64XorReuse {policy : ReservedPolicy} {slot : Slot} {x : Word}
    (h : (Instr.f64XorReuse x).fits policy slot = true) :
    ∃ w, slot = .floatLater (some w) ∧ 1 ≤ reuseWidth w ∧ x.toNat < 2 ^ reuseWidth w := by
  cases slot with
  | floatLater window =>
    cases window with
    | none => cases h
    | some w => exact ⟨w, rfl, by simpa [Instr.fits, reusePayloadFits] using h⟩
  | floatFirst => cases h
  | intFirst => cases h
  | intSecond => cases h
  | intLater => cases h

/-- A new-window block may stand where its fields stand for a window that its payload fits (rules R92 to R94). -/
theorem fits_f64XorNew {policy : ReservedPolicy} {slot : Slot} {l m : BitVec 6} {x : Word}
    (h : (Instr.f64XorNew l m x).fits policy slot = true) :
    ∃ window n w, slot = .floatLater window ∧ newWindow policy l m = some (n, w) ∧ x.toNat < 2 ^ n := by
  cases slot with
  | floatLater window =>
    cases hw : newWindow policy l m with
    | none => simp [Instr.fits, Slot.isFloatLater, hw, newPayloadFits] at h
    | some nw =>
      exact ⟨window, nw.1, nw.2, rfl, rfl, by simpa [Instr.fits, Slot.isFloatLater, hw, newPayloadFits] using h⟩
  | floatFirst => cases h
  | intFirst => cases h
  | intSecond => cases h
  | intLater => cases h

/-- Settles O1: one law for each symbol at the slot it may stand at. -/
theorem symbolDecodesFromItsEncoding : Obligations.SymbolDecodesFromItsEncoding := by
  unfold Obligations.SymbolDecodesFromItsEncoding
  intro p slot i rd rest hfits hfailed hunread
  have h : Offers rd (encodeSymbol p.reservedPolicy slot i ++ rest) := ⟨hfailed, hunread⟩
  cases i with
  | f64First v =>
    obtain rfl := eq_of_beq hfits
    exact afterRead_wholeWord h
  | f64Repeat =>
    cases slot <;> cases hfits
    exact decodeFloatLater_repeat h
  | f64XorReuse x =>
    obtain ⟨w, rfl, hw, hx⟩ := fits_f64XorReuse hfits
    rw [Laws.EncodedLength.f64XorReuse]
    exact decodeFloatLater_xorReuse hw hx h
  | f64XorNew l m x =>
    obtain ⟨window, n, w, rfl, hw, hx⟩ := fits_f64XorNew hfits
    have hlen : (encodeSymbol p.reservedPolicy (.floatLater window) (.f64XorNew l m x)).length = 14 + n := by
      simp [encodeSymbol, hw]
      omega
    rw [hlen]
    simp only [encodeSymbol, hw] at h
    exact decodeFloatLater_xorNew hw hx h
  | i64First v =>
    obtain rfl := eq_of_beq hfits
    exact afterRead_wholeWord h
  | i64FirstDelta d =>
    obtain rfl := eq_of_beq hfits
    exact afterRead_wholeWord h
  | i64Dod0 =>
    obtain rfl := eq_of_beq hfits
    exact decodeIntLater_dod0 h
  | i64Dod7 d =>
    obtain rfl := eq_of_beq hfits
    exact decodeIntLater_dod7 h
  | i64Dod9 d =>
    obtain rfl := eq_of_beq hfits
    exact decodeIntLater_dod9 h
  | i64Dod12 d =>
    obtain rfl := eq_of_beq hfits
    exact decodeIntLater_dod12 h
  | i64Dod64 d =>
    obtain rfl := eq_of_beq hfits
    exact decodeIntLater_dod64 h
  | header _ => cases hfits
  | trailerFooter _ => cases hfits
  | descriptor _ => cases hfits
  | column _ => cases hfits

/-! ### The bits of a symbol that was decoded -/

/-- `rd'` is `rd` with exactly `bits` taken from it. -/
structure Takes (rd : Reader) (bits : List Bool) (rd' : Reader) : Prop where
  unread : rd.unread = bits ++ rd'.unread
  moved : rd' = rd.advance bits.length

theorem Takes.append {a b c : Reader} {xs ys : List Bool} (h : Takes a xs b) (g : Takes b ys c) : Takes a (xs ++ ys) c where
  unread := by rw [h.unread, g.unread, List.append_assoc]
  moved := by rw [g.moved, h.moved, Reader.advance_advance, List.length_append]

section

variable {policy : ReadAfterFail} {rd rd' : Reader} {n : Nat} {v : Word}

/-- A read that answered took the bits of its value. -/
theorem takes_word (h : readBits policy rd n = .value v rd') : Takes rd (msbBits n v.toNat) rd' := by
  obtain ⟨-, -, -, -, hmoved, -, hunread⟩ := readBits_inv h
  exact ⟨hunread, by rw [msbBits_length, hmoved]⟩

/-- A read that answered took the bits of the field its value is. -/
theorem takes_field (h : readBits policy rd n = .value v rd') : Takes rd (msbBits n (v.setWidth n).toNat) rd' := by
  obtain ⟨-, -, -, hlt, -⟩ := readBits_inv h
  rw [toNat_setWidth_of_lt hlt]
  exact takes_word h

theorem takes_zero (h : readBits policy rd 1 = .value v rd') (hv : v = 0) : Takes rd [false] rd' := by
  subst hv
  exact takes_word h

theorem takes_one (h : readBits policy rd 1 = .value v rd') (hv : ¬v = 0) : Takes rd [true] rd' := by
  obtain ⟨-, hmoved, hunread⟩ := readBit_inv h
  rw [beq_eq_false_iff_ne.mpr hv] at hunread
  exact ⟨hunread, hmoved⟩

end

theorem decodeIntLater_takes {p : Params} {rd rd' : Reader} {i : Instr} (h : decodeIntLater p rd = .symbol i rd') :
    Takes rd (encodeSymbol p.reservedPolicy .intLater i) rd' := by
  obtain ⟨b1, rd1, e1, h⟩ := afterRead_symbol h
  split at h
  · cases h
    exact takes_zero e1 (by assumption)
  have t1 := takes_one e1 (by assumption)
  obtain ⟨b2, rd2, e2, h⟩ := afterRead_symbol h
  split at h
  · have t2 := t1.append (takes_zero e2 (by assumption))
    obtain ⟨x, rd3, e3, h⟩ := afterRead_symbol h
    cases h
    exact t2.append (takes_field e3)
  have t2 := t1.append (takes_one e2 (by assumption))
  obtain ⟨b3, rd3, e3, h⟩ := afterRead_symbol h
  split at h
  · have t3 := t2.append (takes_zero e3 (by assumption))
    obtain ⟨x, rd4, e4, h⟩ := afterRead_symbol h
    cases h
    exact t3.append (takes_field e4)
  have t3 := t2.append (takes_one e3 (by assumption))
  obtain ⟨b4, rd4, e4, h⟩ := afterRead_symbol h
  split at h
  · have t4 := t3.append (takes_zero e4 (by assumption))
    obtain ⟨x, rd5, e5, h⟩ := afterRead_symbol h
    cases h
    exact t4.append (takes_field e5)
  · have t4 := t3.append (takes_one e4 (by assumption))
    obtain ⟨x, rd5, e5, h⟩ := afterRead_symbol h
    cases h
    exact t4.append (takes_word e5)

theorem decodeFloatLater_takes {p : Params} {window : Option Window} {rd rd' : Reader} {i : Instr}
    (h : decodeFloatLater p window rd = .symbol i rd') :
    Takes rd (encodeSymbol p.reservedPolicy (.floatLater window) i) rd' := by
  obtain ⟨b1, rd1, e1, h⟩ := afterRead_symbol h
  split at h
  · cases h
    exact takes_zero e1 (by assumption)
  have t1 := takes_one e1 (by assumption)
  obtain ⟨b2, rd2, e2, h⟩ := afterRead_symbol h
  split at h
  · have t2 := t1.append (takes_zero e2 (by assumption))
    cases window with
    | none => cases h
    | some w =>
      obtain ⟨x, rd3, e3, h⟩ := afterRead_symbol h
      cases h
      exact t2.append (takes_word e3)
  have t2 := t1.append (takes_one e2 (by assumption))
  obtain ⟨l, rd3, e3, h⟩ := afterRead_symbol h
  obtain ⟨m, rd4, e4, h⟩ := afterRead_symbol h
  have t4 := (t2.append (takes_field e3)).append (takes_field e4)
  split at h
  · cases h
  · rename_i hw
    obtain ⟨x, rd5, e5, h⟩ := afterRead_symbol h
    cases h
    simp only [encodeSymbol, hw]
    exact t4.append (takes_word e5)

theorem decodeSymbol_takes {p : Params} {slot : Slot} {rd rd' : Reader} {i : Instr}
    (h : decodeSymbol p slot rd = .symbol i rd') : Takes rd (encodeSymbol p.reservedPolicy slot i) rd' := by
  cases slot with
  | floatLater window => exact decodeFloatLater_takes h
  | intLater => exact decodeIntLater_takes h
  | floatFirst =>
    obtain ⟨v, _, e, h⟩ := afterRead_symbol h
    cases h
    exact takes_word e
  | intFirst =>
    obtain ⟨v, _, e, h⟩ := afterRead_symbol h
    cases h
    exact takes_word e
  | intSecond =>
    obtain ⟨v, _, e, h⟩ := afterRead_symbol h
    cases h
    exact takes_word e

/-- Settles O2: each read of the decoder takes the bits of what it answers. -/
theorem decodedSymbolHasItsEncoding : Obligations.DecodedSymbolHasItsEncoding := by
  unfold Obligations.DecodedSymbolHasItsEncoding
  intro p slot rd rd' i h
  obtain ⟨hunread, hmoved⟩ := decodeSymbol_takes h
  exact ⟨decodeSymbol_fits h, hunread, hmoved⟩

/-! ### The int stream has no reserved encoding (rule R91) -/

/-- A read of the int stream that gives a symbol, or finds fewer than `bound` bits left in `rd`. -/
def SymbolOrShort (rd : Reader) (bound : Nat) (r : SymbolRead) : Prop :=
  (∃ i rd', r = .symbol i rd') ∨ ∃ rd', r = .exhausted rd' ∧ rd.avail < bound

section

variable {policy : ReadAfterFail} {rd : Reader} {k : Word → Reader → SymbolRead}

theorem symbolOrShort_symbol {bound : Nat} (i : Instr) (rd' : Reader) : SymbolOrShort rd bound (.symbol i rd') :=
  .inl ⟨i, rd', rfl⟩

/-- A read of `n` bits, and after it one that is short only with fewer than `m` left. -/
theorem symbolOrShort_afterRead {n bound : Nat} (m : Nat) (hfailed : rd.failed = false) (hn : 1 ≤ n ∧ n ≤ 64)
    (hbound : n + m ≤ bound) (h : ∀ v, SymbolOrShort (rd.advance n) m (k v (rd.advance n))) :
    SymbolOrShort rd bound (afterRead (readBits policy rd n) k) := by
  obtain ⟨hwidth, -⟩ | ⟨-, -, hf, -⟩ | ⟨-, -, hf, -⟩ | ⟨-, -, -, havail, e⟩ | ⟨-, -, -, havail, e⟩ :=
    readBits_cases policy rd n
  · omega
  · cases hfailed.symm.trans hf
  · cases hfailed.symm.trans hf
  · exact .inr ⟨_, by rw [e]; rfl, by omega⟩
  · rw [e]
    refine (h _).imp_right fun ⟨rd', hr, ha⟩ => ⟨rd', hr, ?_⟩
    rw [Reader.avail_advance] at ha
    omega

/-- A field of `n` bits, the last that is read of a symbol. -/
theorem symbolOrShort_field {n bound : Nat} {i : Word → Instr} (hfailed : rd.failed = false)
    (hn : 1 ≤ n ∧ n ≤ 64) (hbound : n ≤ bound) :
    SymbolOrShort rd bound (afterRead (readBits policy rd n) fun x rd => .symbol (i x) rd) :=
  symbolOrShort_afterRead 0 hfailed hn hbound fun _ => symbolOrShort_symbol _ _

end

/-- Four bits that choose the tier and the widest field are 68 bits (rules R165 to R170). -/
theorem decodeIntLater_symbolOrShort {p : Params} {rd : Reader} (hfailed : rd.failed = false) :
    SymbolOrShort rd 68 (decodeIntLater p rd) := by
  refine symbolOrShort_afterRead 67 hfailed (by decide) (by decide) fun b1 => ?_
  split
  · exact symbolOrShort_symbol _ _
  refine symbolOrShort_afterRead 66 hfailed (by decide) (by decide) fun b2 => ?_
  split
  · exact symbolOrShort_field hfailed (by decide) (by decide)
  refine symbolOrShort_afterRead 65 hfailed (by decide) (by decide) fun b3 => ?_
  split
  · exact symbolOrShort_field hfailed (by decide) (by decide)
  refine symbolOrShort_afterRead 64 hfailed (by decide) (by decide) fun b4 => ?_
  split
  · exact symbolOrShort_field hfailed (by decide) (by decide)
  · exact symbolOrShort_field hfailed (by decide) (by decide)

/-- Settles O3: a read of a legal width on a reader that has not failed is short or answers, and no answer is reserved. -/
theorem everyBitStringIsAnIntStream : Obligations.EveryBitStringIsAnIntStream := by
  unfold Obligations.EveryBitStringIsAnIntStream
  intro p slot rd hslot hfailed
  rw [Reader.unread_length]
  obtain rfl | rfl | rfl := hslot
  · exact symbolOrShort_field hfailed (by decide) (by decide)
  · exact symbolOrShort_field hfailed (by decide) (by decide)
  · exact decodeIntLater_symbolOrShort hfailed

end Sys2Proof
end

section
/-! PROOFS. The shortest tiers: each holds the delta-of-delta it is chosen for, so every int sequence has a coding (rules R102,
R172, R178). -/

namespace Sys2Proof

open Machine Machine.Assembler

/-- A word in the range of `w` bits is the sign extension of its low `w` bits (rule R172). -/
theorem ofInt_toInt_setWidth {d : Word} (w : Nat) (hw : w < 64) (hlo : -2 ^ w ≤ d.toInt) (hhi : d.toInt ≤ 2 ^ w - 1) :
    BitVec.ofInt 64 (d.setWidth (w + 1)).toInt = d := by
  have hle : w + 1 ≤ 64 := hw
  rw [← BitVec.signExtend_eq_setWidth_of_le d hle, BitVec.toInt_signExtend_eq_toInt_bmod_of_le d hle,
    Int.bmod_eq_of_le (by push_cast; omega) (by push_cast; omega), BitVec.ofInt_toInt]

/-- The shortest tier that holds a delta-of-delta carries it (rules R102, R166 to R170). -/
theorem dodOf_shortestDod (d : Word) : dodOf (shortestDod d) = some d := by
  unfold shortestDod
  split
  · next h => rw [h]; rfl
  split
  · next h => exact congrArg some (ofInt_toInt_setWidth 6 (by decide) h.1 h.2)
  split
  · next h => exact congrArg some (ofInt_toInt_setWidth 8 (by decide) h.1 h.2)
  split
  · next h => exact congrArg some (ofInt_toInt_setWidth 11 (by decide) h.1 h.2)
  · rfl

theorem codesDods_shortestDods (prev delta : Word) (vs : List Word) :
    codesDods prev delta vs (shortestDods prev delta vs) = true := by
  induction vs generalizing prev delta with
  | nil => rfl
  | cons v vs ih => simp [shortestDods, codesDods, dodOf_shortestDod, ih]

/-- Settles O54: the shortest tier of each value carries its delta-of-delta. -/
theorem everyIntSequenceHasACoding : Obligations.EveryIntSequenceHasACoding := by
  unfold Obligations.EveryIntSequenceHasACoding
  intro vs
  match vs with
  | [] => rfl
  | [v] => exact beq_self_eq_true v
  | v1 :: v2 :: vs => simp [assembleInts, codesInts, codesDods_shortestDods]

end Sys2Proof
end

section
/-! PROOFS. The step at a symbol and at a record: it runs what was decoded; a reserved float symbol; the 64-bit payload of
`MB0_IS_64`; the checks of the header; and the table's words (rules R81, R87, R92 to R96, R191 to R194). -/

namespace Sys2Proof

open Machine Safety

/-! ### The step of a decode -/

section

variable {s : State} {rd rd' : Reader} {i : Instr}

theorem step_of_intSymbol (h : IntAt s rd) (hd : decodeSymbol s.params s.id.slot rd = .symbol i rd') :
    step s = exec i (withIntReader s rd') := by
  obtain ⟨⟨c, hc⟩, hrd, -, hlt⟩ := h
  simp only [step_ints_eq hc, fetchInt, hrd, if_pos hlt, hd]
  rfl

theorem step_of_floatSymbol (h : FloatAt s rd) (hd : decodeSymbol s.params s.fd.slot rd = .symbol i rd') :
    step s = exec i (withFloatReader s rd') := by
  obtain ⟨⟨c, hc⟩, hrd, -, hlt⟩ := h
  simp only [step_floats_eq hc, fetchFloat, hrd, if_pos hlt, hd]
  rfl

theorem step_of_floatReserved {why : Reserved} (h : FloatAt s rd)
    (hd : decodeSymbol s.params s.fd.slot rd = .reserved why rd') :
    step s = (withFloatReader s rd').reservedSymbol why := by
  obtain ⟨⟨c, hc⟩, hrd, -, hlt⟩ := h
  simp only [step_floats_eq hc, fetchFloat, hrd, if_pos hlt, hd]
  rfl

end

theorem intSlot_eq (id : IntDecoder) :
    id.slot = if id.out = [] then .intFirst else if id.out.length = 1 then .intSecond else .intLater := by
  obtain ⟨hs, ho⟩ | ⟨hs, v, ho⟩ | ⟨hs, ho⟩ := intSlot_cases id
  · rw [hs, if_pos ho]
  · simp [hs, ho]
  · have hne : id.out ≠ [] := by rintro e; simp [e] at ho
    rw [hs, if_neg hne, if_neg (by omega)]

theorem floatSlot_eq (fd : FloatDecoder) :
    fd.slot = if fd.out = [] then .floatFirst else .floatLater fd.window := by
  obtain ⟨hs, ho⟩ | ⟨hs, ho⟩ := floatSlot_cases fd
  · rw [hs, if_pos ho]
  · rw [hs, if_neg ho]

/-- From value #2 on a float symbol is read by the window registers (rules R86, R134). -/
theorem decodeSymbol_floatLater {s : State} (hout : s.fd.out ≠ []) (rd : Reader) :
    decodeSymbol s.params s.fd.slot rd = decodeFloatLater s.params s.fd.window rd := by
  rw [floatSlot_eq, if_neg hout]
  rfl

theorem offers_of_floatAt {s : State} {rd : Reader} {bits : List Bool} (h : FloatAt s rd) (hunread : rd.unread = bits) :
    Offers rd bits := by
  obtain ⟨-, -, hfailed, -⟩ := h
  exact ⟨hfailed, hunread⟩

/-! ### The step of a parse at the header and at the footer -/

theorem stage_of_atHeader {s : State} (h : AtHeader s) : s.cp.stage = .header := by
  rw [Container.stage, h.2]

theorem stage_of_atFooter {s : State} (h : AtFooter s) : s.cp.stage = .footer := by
  obtain ⟨-, hheader, hfooter⟩ := h
  obtain ⟨hd, hheader⟩ := Option.ne_none_iff_exists'.mp hheader
  rw [Container.stage, hheader, hfooter]

/-- A parse begins with its header. -/
theorem step_atHeader {s : State} (h : AtHeader s) : step s = (fetchedRecord s .header (decodeHeader s.file)).run := by
  have ⟨⟨c, hc⟩, _⟩ := h
  rw [step_parsing_eq hc, fetchRecord, stage_of_atHeader h]

/-- A parse goes on with its footer. -/
theorem step_atFooter {s : State} (h : AtFooter s) :
    step s = (fetchedRecord s .trailerFooter (decodeTrailerFooter s.file)).run := by
  have ⟨⟨c, hc⟩, _⟩ := h
  rw [step_parsing_eq hc, fetchRecord, stage_of_atFooter h]

/-- Settles O29: the step of each phase by what it decodes. -/
theorem stepRunsTheDecodedInstruction : Obligations.StepRunsTheDecodedInstruction := by
  unfold Obligations.StepRunsTheDecodedInstruction
  refine ⟨fun s rd rd' i => step_of_intSymbol, fun s rd rd' i => step_of_floatSymbol, fun s h hs hd => ?_,
    fun s f hs hd => ?_, fun s d hs hd => ?_, fun s d data hs hd => ?_, intSlot_eq, floatSlot_eq⟩
  · rw [step_atHeader hs, hd]
    rfl
  · rw [step_atFooter hs, hd]
    rfl
  · rw [step_atDescriptor hs, hd]
    rfl
  · rw [step_atColumn hs, hd]
    rfl

/-! ### The reserved float symbols -/

/-- A reserved symbol is refused, or under `SoftStop` ends the decode (rule R94). -/
theorem step_of_reserved {s : State} {rd rd' : Reader} {why : Reserved} (h : FloatAt s rd)
    (hd : decodeSymbol s.params s.fd.slot rd = .reserved why rd') :
    (s.params.reservedPolicy ≠ .softStop → step s = .refused (.reservedSymbol why)) ∧
    (s.params.reservedPolicy = .softStop → step s = .next s.finishFloats) := by
  have hparams : (withFloatReader s rd').params = s.params := rfl
  rw [step_of_floatReserved h hd, State.reservedSymbol, hparams]
  cases hp : s.params.reservedPolicy with
  | softStop => exact ⟨fun hne => absurd rfl hne, fun _ => by simp⟩
  | refuse => exact ⟨fun _ => rfl, nofun⟩
  | mb0Is64 => exact ⟨fun _ => rfl, nofun⟩

/-- The fields `L`, `M` that stand for no window (rules R92 to R94). -/
theorem newWindow_reserved {policy : ReservedPolicy} {l m : BitVec 6} (h : m = 0 ∨ 64 < l.toNat + m.toNat)
    (hmb0 : ¬(policy = .mb0Is64 ∧ l = 0 ∧ m = 0)) : newWindow policy l m = none := by
  unfold newWindow
  split
  · next hm =>
    have hm : m = 0 := BitVec.eq_of_toNat_eq hm
    exact if_neg fun ⟨hp, hl⟩ => hmb0 ⟨hp, BitVec.eq_of_toNat_eq hl, hm⟩
  · next hm =>
    exact if_pos (h.resolve_left fun e => hm (by rw [e]; rfl))

/-- No window is held before a new-window block unless the parameter gave one (rules R28, R40, R95). -/
theorem window_none {s : State}
    (h : s.windowUsable = false ∨ (WindowLegal s ∧ s.windowValid = false ∧ s.params.windowReset = none)) :
    s.fd.window = none := by
  obtain h | ⟨⟨-, -, -, hparam⟩, hvalid, hreset⟩ := h
  · exact Option.isNone_iff_eq_none.mp (by simpa [State.windowUsable] using h)
  · cases hw : s.fd.window with
    | none => rfl
    | some w => cases hreset.symm.trans (hparam hvalid w hw)

/-- Settles O4: each reserved form is found out by the decoder, and what becomes of it is the policy's. -/
theorem reservedFloatSymbols : Obligations.ReservedFloatSymbols := by
  unfold Obligations.ReservedFloatSymbols
  refine ⟨fun s rd l m rest h hout hunread hlm hmb0 => ?_, fun s rd rest h hout hwindow hunread => ?_⟩
  · have hd : decodeSymbol s.params s.fd.slot rd = .reserved .badWindow (rd.advance 14) := by
      rw [decodeSymbol_floatLater hout]
      exact decodeFloatLater_badWindow (newWindow_reserved hlm hmb0) (offers_of_floatAt h hunread)
    exact ⟨hd, step_of_reserved h hd⟩
  · have hd : decodeSymbol s.params s.fd.slot rd = .reserved .reuseBeforeWindow (rd.advance 2) := by
      rw [decodeSymbol_floatLater hout, window_none hwindow]
      exact decodeFloatLater_reuseBeforeWindow (offers_of_floatAt h hunread)
    exact ⟨hd, step_of_reserved h hd⟩

/-! ### The 64-bit payload -/

theorem newWindow_sixtyFourBits : newWindow .mb0Is64 0 0 = some (64, ⟨0, 0⟩) := by decide

theorem exec_f64XorNew_sixtyFourBits {s : State} {v x : Word} (hprev : s.fd.prevValue = some v)
    (hp : s.params.reservedPolicy = .mb0Is64) :
    exec (.f64XorNew 0 0 x) s = .next { s with
      fd := { s.fd with
        prevValue := some (v ^^^ x), window := some ⟨0, 0⟩, windowValid := true, out := s.fd.out ++ [v ^^^ x] } } := by
  simp only [exec, execF64XorNew, hp, newWindow_sixtyFourBits, State.floatPrev, hprev]
  simp [xorPayload, State.writeFloat, State.openWindow]

/-- Settles O20: the block opens the window `(0, 0)`, executed and from its bits. -/
theorem f64XorNewSixtyFourBits : Obligations.F64XorNewSixtyFourBits := by
  unfold Obligations.F64XorNewSixtyFourBits
  refine ⟨fun s v x => exec_f64XorNew_sixtyFourBits, fun s rd v x rest h hout hprev hp hunread => ?_⟩
  have hd : decodeSymbol s.params s.fd.slot rd = .symbol (.f64XorNew 0 0 x) (rd.advance 78) := by
    rw [decodeSymbol_floatLater hout]
    exact decodeFloatLater_xorNew (hp ▸ newWindow_sixtyFourBits) x.isLt (offers_of_floatAt h hunread)
  rw [step_of_floatSymbol h hd]
  exact exec_f64XorNew_sixtyFourBits hprev hp

/-! ### The checks of the header -/

/-- The five kept fields as the bytes at 0 give them (rules R96, R194). -/
def headerAt (f : FileBuf) : HeaderFields where
  magic := BitVec.ofNat 32 (leNat (f.bytes 0 4))
  formatVersion := BitVec.ofNat 32 (leNat (f.bytes 4 4))
  recordCount := BitVec.ofNat 64 (leNat (f.bytes 8 8))
  columnCount := BitVec.ofNat 32 (leNat (f.bytes 16 4))
  identifier := f.bytes 20 4

/-- The header of a file of at least `MIN_FILE_BYTES` is read (rules R96, R192). -/
theorem decodeHeader_eq (f : FileBuf) :
    decodeHeader f = if f.len < 36 then .error .fileTooSmall else .ok (headerAt f) := by
  by_cases hlen : f.len < 36
  · rw [if_pos hlen]
    exact if_pos hlen
  · have hmagic : memRead32 f 0 = some _ := (memRead32_nat f 0).trans (if_pos (by omega))
    have hversion : memRead32 f 4 = some _ := (memRead32_nat f 4).trans (if_pos (by omega))
    have hrecords : memRead64 f 8 = some _ := (memRead64_nat f 8).trans (if_pos (by omega))
    have hcolumns : memRead32 f 16 = some _ := (memRead32_nat f 16).trans (if_pos (by omega))
    have hidentifier : memBytes f 20 4 = some _ := (memBytes_nat f 20 4).trans (if_pos (by omega))
    have hsize : ¬f.len < Config.minFileBytes := hlen
    rw [decodeHeader, if_neg hsize, if_neg hlen, hmagic, hversion, hrecords, hcolumns, hidentifier]
    rfl

/-- The magic is the little-endian word at 0 (rule R193). -/
theorem headerAt_magic_iff (f : FileBuf) : (headerAt f).magic = Config.magic ↔ leNat (f.bytes 0 4) = 0x50415251 := by
  rw [← BitVec.toNat_inj]
  exact iff_of_eq (congrArg (· = _) (toNat_ofNat_bytes4 f 0))

/-- Settles O33: the length is checked before the magic, and the magic before any field is kept. -/
theorem headerChecks : Obligations.HeaderChecks := by
  unfold Obligations.HeaderChecks
  intro s h
  rw [step_atHeader h, decodeHeader_eq]
  refine ⟨fun hsmall => ?_, fun hlen hmagic => ?_, fun hlen hmagic => ⟨headerAt s.file, ?_,
    (headerAt_magic_iff _).mpr hmagic, toNat_ofNat_bytes4 _ _, toNat_ofNat_bytes8 _ _, toNat_ofNat_bytes4 _ _, rfl⟩⟩
  · rw [if_pos hsmall]
    rfl
  · rw [if_neg (Nat.not_lt.mpr hlen)]
    exact if_neg (mt (headerAt_magic_iff _).mp hmagic)
  · rw [if_neg (Nat.not_lt.mpr hlen)]
    exact if_pos ((headerAt_magic_iff _).mpr hmagic)

/-! ### The table's words -/

/-- A 64-bit word is the pattern its stream begins with: its symbol is decoded as one read of 64 bits. -/
theorem decodeTableWord_floatFirst {w : Nat} {v : Word} {rest : List Bool}
    (h : Offers (Reader.new (tableStream 64 w)) (msbBits 64 v.toNat ++ rest)) :
    decodeTableWord 64 w = some (.f64First v) := by
  have hd : decodeSymbol {} .floatFirst (Reader.new (tableStream 64 w)) =
      .symbol (.f64First v) ((Reader.new (tableStream 64 w)).advance 64) :=
    afterRead_wholeWord (policy := .stickyFail) h
  simp [decodeTableWord, tableSlot, hd]

/-- Settles O6: each word is decoded at the slot it is read at (log entry 14). -/
theorem writtenWordsDecode : Obligations.WrittenWordsDecode := by
  unfold Obligations.WrittenWordsDecode
  have hfirst : Offers (Reader.new (tableStream 64 0x3FF0000000000000))
      (msbBits 64 (0x3FF0000000000000 : Word).toNat ++ List.replicate 80 false) := ⟨rfl, by decide⟩
  exact ⟨by decide, by decide, by decide, decodeTableWord_floatFirst hfirst, by decide, by decide⟩

end Sys2Proof
end

section
/-! PROOFS. READ_BITS and NEW_READER: the value of the next bits, when a read answers with it and when with none, and what the
host gets of them (rules R53, R111 to R117, R121, R270). -/

namespace Sys2Proof

open Machine

/-! ### The value of the next bits (rule R53) -/

/-- The assembly of rule R53, written out: of `n` bits the one at place `j` is worth `2 ^ (n - 1 - j)`. -/
theorem bitsNat_map_range (n : Nat) (f : Nat → Bool) :
    bitsNat ((List.range n).map f) = ((List.range n).map fun j => (f j).toNat * 2 ^ (n - 1 - j)).sum := by
  induction n generalizing f with
  | zero => rfl
  | succ n ih =>
    rw [List.range_succ_eq_map, List.map_cons, List.map_map, bitsNat_cons, ih]
    simp [Function.comp_def, Nat.sub_sub, Nat.add_comm]

/-- The next `a + b` bits are `a` bits and the `b` bits after them. -/
theorem nextBits_add (a b : Nat) (rd : Reader) : nextBits (a + b) rd = nextBits a rd ++ nextBits b (rd.advance a) := by
  simp [nextBits, List.range_add, Function.comp_def, Nat.add_assoc]

/-- The word READ_BITS assembles from the next `n` bits (rule R53). -/
def nextWord (n : Nat) (rd : Reader) : Word := BitVec.ofNat 64 (bitsNat (nextBits n rd))

theorem bitsNat_nextBits_lt (n : Nat) (rd : Reader) : bitsNat (nextBits n rd) < 2 ^ n := by
  simpa using bitsNat_lt (nextBits n rd)

/-- No bit is lost: 64 bits or fewer fit the word. -/
theorem nextWord_toNat {n : Nat} (h : n ≤ 64) (rd : Reader) : (nextWord n rd).toNat = bitsNat (nextBits n rd) :=
  Nat.mod_eq_of_lt ((bitsNat_nextBits_lt n rd).trans_le (Nat.pow_le_pow_right (by decide) h))

theorem nextWord_toNat_lt {n : Nat} (h : n ≤ 64) (rd : Reader) : (nextWord n rd).toNat < 2 ^ n :=
  (nextWord_toNat h rd).trans_lt (bitsNat_nextBits_lt n rd)

theorem nextWord_toNat_sum {n : Nat} (h : n ≤ 64) (rd : Reader) :
    (nextWord n rd).toNat =
      ((List.range n).map fun j => (streamBit rd.buffer (rd.pc + j)).toNat * 2 ^ (n - 1 - j)).sum :=
  (nextWord_toNat h rd).trans (bitsNat_map_range n _)

/-- The words of two neighbouring runs of bits, put together (rule R121). -/
theorem nextWord_add_toNat {a b : Nat} (h : a + b ≤ 64) (rd : Reader) :
    (nextWord (a + b) rd).toNat = (nextWord a rd).toNat * 2 ^ b + (nextWord b (rd.advance a)).toNat := by
  rw [nextWord_toNat h, nextWord_toNat (by omega), nextWord_toNat (by omega), nextBits_add, bitsNat_append, nextBits_length]

/-! ### READ_BITS, case by case (rules R113 to R117) -/

section

variable {policy : ReadAfterFail} {rd : Reader} {n : Nat}

/-- A width outside `1 .. 64` is refused whatever the reader's state (rule R113). -/
theorem readBits_width (h : n < 1 ∨ 64 < n) : readBits policy rd n = .refused .width := if_pos h

/-- A width of 1 to 64 passes the check of rule R113. -/
theorem not_width (hn : 1 ≤ n ∧ n ≤ 64) : ¬(n < Config.readMin ∨ Config.wordBits < n) :=
  not_or.mpr ⟨hn.1.not_gt, hn.2.not_gt⟩

/-- The next bits, where there are enough (rule R114). -/
theorem readBits_value (hn : 1 ≤ n ∧ n ≤ 64) (hf : rd.failed = false) (ha : n ≤ rd.avail) :
    readBits policy rd n = .value (nextWord n rd) (rd.advance n) :=
  readBits_of_unread hf hn.1 hn.2 (nextBits_length n rd) (nextBits_eq_take ha ▸ (List.take_append_drop n rd.unread).symm)

/-- Too few bits are left (rule R115). -/
theorem readBits_short (hn : 1 ≤ n ∧ n ≤ 64) (hf : rd.failed = false) (ha : rd.avail < n) :
    readBits policy rd n = .short { rd with failed := true } := by
  simp [readBits, not_width hn, hf, ha]

/-- A reader that has failed fails again under `StickyFail` (rule R117). -/
theorem readBits_stickyFail (hn : 1 ≤ n ∧ n ≤ 64) (hf : rd.failed = true) : readBits .stickyFail rd n = .short rd := by
  simp [readBits, not_width hn, hf]

/-- A reader that has failed has no meaning under `Refuse` (rule R117). -/
theorem readBits_refuse (hn : 1 ≤ n ∧ n ≤ 64) (hf : rd.failed = true) :
    readBits .refuse rd n = .refused .failedReader := by
  simp [readBits, not_width hn, hf]

end

/-- Settles O7: the value is the word of the next bits, the reader the one advanced past them. -/
theorem readBitsTakesTheNextBits : Obligations.ReadBitsTakesTheNextBits := by
  unfold Obligations.ReadBitsTakesTheNextBits
  intro policy rd n hf h1 h64 ha
  exact ⟨nextWord n rd, rd.advance n, readBits_value ⟨h1, h64⟩ hf ha, nextWord_toNat_sum h64 rd,
    nextWord_toNat_lt h64 rd, rfl, rfl, rd.advance_pc n, hf, rfl⟩

/-- Settles O8: the refusals and the soft failures, one lemma each. -/
theorem readBitsWithoutAValue : Obligations.ReadBitsWithoutAValue := by
  unfold Obligations.ReadBitsWithoutAValue
  intro policy rd n
  refine ⟨fun hw => readBits_width (by omega), fun hf h1 h64 ha => readBits_short ⟨h1, h64⟩ hf ha,
    fun h1 h64 hf hp => ?_, fun h1 h64 hf hp => ?_⟩
  · exact hp ▸ readBits_stickyFail ⟨h1, h64⟩ hf
  · exact hp ▸ readBits_refuse ⟨h1, h64⟩ hf

/-- Settles O9: after `a` bits there are `a` fewer left, and the two words put together are the word of the single read. -/
theorem readBitsConcatenates : Obligations.ReadBitsConcatenates := by
  unfold Obligations.ReadBitsConcatenates
  intro policy rd a b hf ha hb hab
  have hfirst (h : a ≤ rd.avail) : readBits policy rd a = .value (nextWord a rd) (rd.advance a) :=
    readBits_value ⟨ha, by omega⟩ hf h
  have havail : (rd.advance a).avail = rd.avail - a := rd.avail_advance a
  refine ⟨fun henough => ?_, fun hsome hfew => ?_⟩
  · have hsecond : readBits policy (rd.advance a) b = .value (nextWord b (rd.advance a)) (rd.advance (a + b)) := by
      rw [← Reader.advance_advance]
      exact readBits_value ⟨hb, by omega⟩ hf (by omega)
    exact ⟨_, _, _, _, hfirst (by omega), hsecond, _, readBits_value ⟨by omega, hab⟩ hf henough,
      nextWord_add_toNat hab rd⟩
  · exact ⟨readBits_short ⟨by omega, hab⟩ hf hfew, _, _, hfirst hsome, rd.advance_pc a,
      readBits_short ⟨hb, by omega⟩ hf (by omega)⟩

/-! ### READ_BITS as the host asks for it -/

section

variable {s : State} {k : Nat} {n : Int} {rd rd' : Reader} {rest : List Request}
variable (hc : s.phase = .idle) (hr : s.requests = .readBits k n :: rest) (hk : s.readers[k]? = some rd)
include hc hr hk

/-- A value is delivered with `true`, and the reader moves on. -/
theorem step_readBits_value {v : Word} (h : readBits s.params.readAfterFail rd n.toNat = .value v rd') :
    step s = .next { s.discard with
      requests := rest, readers := s.readers.set k rd', result := some (.bits v true) } := by
  rw [step_idle_request hc hr]
  simp [serve, serveReadBits, hk, h, State.deliver, State.discard]

/-- A soft failure delivers a drawn value with `false` (rule R116). -/
theorem step_readBits_short (h : readBits s.params.readAfterFail rd n.toNat = .short rd') :
    step s = .next { s.discard with
      requests := rest, draws := s.draws + 1, readers := s.readers.set k rd'
      result := some (.bits (Config.failedReadValue s.draws) false) } := by
  rw [step_idle_request hc hr]
  simp [serve, serveReadBits, hk, h, State.deliver, State.discard]

/-- A refused read delivers nothing (rules R113, R117). -/
theorem step_readBits_refused {why : ReadRefusal} (h : readBits s.params.readAfterFail rd n.toNat = .refused why) :
    step s = .refused (.ofRead why) := by
  rw [step_idle_request hc hr]
  simp [serve, serveReadBits, hk, h]

end

/-- Settles O12: each case of READ_BITS, delivered. -/
theorem hostReadBitsDelivers : Obligations.HostReadBitsDelivers := by
  unfold Obligations.HostReadBitsDelivers
  intro s k n rd rest hc hr hk
  refine ⟨fun hw => step_readBits_refused hc hr hk (readBits_width (by omega)), fun h1 h64 hf hp => ?_,
    fun h1 h64 hf hp => ?_,
    fun h1 h64 hf ha => step_readBits_short hc hr hk (readBits_short (by omega) hf (by omega)),
    fun h1 h64 hf ha => ⟨nextWord n.toNat rd, nextWord_toNat_sum (by omega) rd,
      step_readBits_value hc hr hk (readBits_value (by omega) hf (by omega))⟩⟩
  · exact step_readBits_refused hc hr hk (hp ▸ readBits_refuse (by omega) hf)
  · have hsame : s.readers.set k rd = s.readers := by
      obtain ⟨hlt, rfl⟩ := List.getElem?_eq_some_iff.mp hk
      exact List.set_getElem_self hlt
    have hstep := step_readBits_short hc hr hk (hp ▸ readBits_stickyFail (by omega) hf)
    rwa [hsame] at hstep

/-- Settles O10: the request is served from a discarded block. -/
theorem newReaderStartsAtBitZero : Obligations.NewReaderStartsAtBitZero := by
  unfold Obligations.NewReaderStartsAtBitZero
  intro s buffer rest hc hr
  exact step_idle_request hc hr

end Sys2Proof
end

section
/-! PROOFS. The four float symbols, executed and stepped from their bits, and the payload inside its window (rules R132 to R141). -/

namespace Sys2Proof

open Machine Safety

/-! ### The payload of a new-window block -/

/-- A payload moved up by its window's trailing zeros shows only between the leading and the trailing bits (rule R138). -/
theorem xorPayload_getLsbD_outside {prev x : Word} {n t i : Nat} (hx : x.toNat < 2 ^ n) (hi : i < t ∨ n + t ≤ i) :
    (xorPayload prev x t).getLsbD i = prev.getLsbD i := by
  have hshift : (x <<< t).getLsbD i = false := by
    rw [BitVec.getLsbD_shiftLeft]
    obtain hlow | hhigh := hi
    · simp [hlow]
    · have hzero : x.getLsbD (i - t) = false :=
        Nat.testBit_lt_two_pow (hx.trans_le (Nat.pow_le_pow_right (by decide) (by omega)))
      simp [hzero]
  rw [xorPayload, BitVec.getLsbD_xor, hshift, Bool.xor_false]

/-- A payload that fits above its trailing zeros loses no bit by the shift (rule R138). -/
theorem shiftLeft_toNat_of_fits {x : Word} {n t : Nat} (hx : x.toNat < 2 ^ n) (hnt : n + t ≤ 64) :
    (x <<< t).toNat = x.toNat * 2 ^ t := by
  rw [BitVec.toNat_shiftLeft, Nat.shiftLeft_eq]
  refine Nat.mod_eq_of_lt ?_
  calc x.toNat * 2 ^ t < 2 ^ n * 2 ^ t := Nat.mul_lt_mul_of_pos_right hx (Nat.two_pow_pos t)
    _ = 2 ^ (n + t) := (Nat.pow_add 2 n t).symm
    _ ≤ 2 ^ 64 := Nat.pow_le_pow_right (by decide) hnt

/-- The window of a new-window block begins `L` bits down (rules R92 to R94, R137). -/
theorem newWindow_leading {policy : ReservedPolicy} {l m : BitVec 6} {n : Nat} {w : Window}
    (h : newWindow policy l m = some (n, w)) : w.leading = l.toNat := by
  unfold newWindow at h
  split at h
  · split at h
    · next hmb0 =>
      cases h
      exact hmb0.2.symm
    · cases h
  · split at h <;> cases h
    rfl

/-- Settles O15: window and payload fill the word, so the shifted payload stays between the window's two ends. -/
theorem newWindowPayloadStaysInItsWindow : Obligations.NewWindowPayloadStaysInItsWindow := by
  unfold Obligations.NewWindowPayloadStaysInItsWindow
  intro policy l m n w prev x hw hx
  obtain ⟨h1, h64, hsum⟩ := newWindow_width hw
  exact ⟨newWindow_leading hw, hsum, by omega, shiftLeft_toNat_of_fits hx (by omega),
    fun i hi => xorPayload_getLsbD_outside hx (by omega)⟩

/-! ### The step at a symbol that is not wholly there -/

section

variable {s : State} {rd rd' : Reader}

theorem step_of_intExhausted (h : IntAt s rd) (hd : decodeSymbol s.params s.id.slot rd = .exhausted rd') :
    step s = .next s.finishInts := by
  obtain ⟨⟨c, hc⟩, hrd, -, hlt⟩ := h
  simp only [step_ints_eq hc, fetchInt, hrd, if_pos hlt, hd]
  exact congrArg _ (withIntReader_finishInts s rd')

theorem step_of_floatExhausted (h : FloatAt s rd) (hd : decodeSymbol s.params s.fd.slot rd = .exhausted rd') :
    step s = .next s.finishFloats := by
  obtain ⟨⟨c, hc⟩, hrd, -, hlt⟩ := h
  simp only [step_floats_eq hc, fetchFloat, hrd, if_pos hlt, hd]
  exact congrArg _ (withFloatReader_finishFloats s rd')

end

/-! ### Each symbol -/

/-- At value #1 a float decode reads 64 bits (rules R81, R133). -/
theorem decodeSymbol_floatFirst {s : State} (hout : s.fd.out = []) (rd : Reader) :
    decodeSymbol s.params s.fd.slot rd =
      afterRead (readBits s.params.readAfterFail rd 64) fun v rd => .symbol (.f64First v) rd := by
  rw [floatSlot_eq, if_pos hout]
  rfl

/-- Settles O16: the symbol is one read of 64 bits, and a short one without them. -/
theorem f64FirstSymbol : Obligations.F64FirstSymbol := by
  unfold Obligations.F64FirstSymbol
  refine ⟨fun v s => rfl, fun s rd v rest h hout hunread => ?_, fun s rd h hout havail => ?_⟩
  · have hd : decodeSymbol s.params s.fd.slot rd = .symbol (.f64First v) (rd.advance 64) := by
      rw [decodeSymbol_floatFirst hout]
      exact afterRead_wholeWord (offers_of_floatAt h hunread)
    rw [step_of_floatSymbol h hd]
    simp [exec, execF64First, State.writeFloat, withFloatReader, hout]
  · have ⟨_, _, hfailed, _⟩ := h
    have hd : decodeSymbol s.params s.fd.slot rd = .exhausted { rd with failed := true } := by
      rw [decodeSymbol_floatFirst hout, readBits_short (by decide) hfailed havail]
      rfl
    exact ⟨hd, step_of_floatExhausted h hd⟩

section

variable {s : State} {v x : Word}

theorem floatPrev_of_some (hprev : s.fd.prevValue = some v) : s.floatPrev = v := by
  rw [State.floatPrev, hprev, Option.getD_some]

theorem exec_f64Repeat (hprev : s.fd.prevValue = some v) :
    exec .f64Repeat s = .next { s with fd := { s.fd with out := s.fd.out ++ [v] } } := by
  simp only [exec, execF64Repeat, floatPrev_of_some hprev]
  rfl

theorem exec_f64XorReuse {w : Window} (hprev : s.fd.prevValue = some v) (hw : s.fd.window = some w) :
    exec (.f64XorReuse x) s = .next { s with
      fd := { s.fd with
        prevValue := some (xorPayload v x w.trailing), out := s.fd.out ++ [xorPayload v x w.trailing] } } := by
  simp [exec, execF64XorReuse, State.writeFloat, floatPrev_of_some hprev, hw]

/-- A new-window block, under any policy that gives its fields a window (rules R94, R137). -/
theorem exec_f64XorNew {l m : BitVec 6} {n : Nat} {w : Window} (hprev : s.fd.prevValue = some v)
    (hw : newWindow s.params.reservedPolicy l m = some (n, w)) :
    exec (.f64XorNew l m x) s = .next { s with
      fd := { s.fd with
        prevValue := some (xorPayload v x w.trailing)
        window := some w
        windowValid := true
        out := s.fd.out ++ [xorPayload v x w.trailing] } } := by
  simp only [exec, execF64XorNew, floatPrev_of_some hprev, hw]
  rfl

end

/-- Settles O17: one bit 0 is the symbol, whatever the window registers hold. -/
theorem f64RepeatSymbol : Obligations.F64RepeatSymbol := by
  unfold Obligations.F64RepeatSymbol
  refine ⟨fun s v => exec_f64Repeat, fun s rd v rest h hout hprev hunread => ?_⟩
  have hd : decodeSymbol s.params s.fd.slot rd = .symbol .f64Repeat (rd.advance 1) := by
    rw [decodeSymbol_floatLater hout]
    exact decodeFloatLater_repeat (offers_of_floatAt h hunread)
  rw [step_of_floatSymbol h hd]
  exact exec_f64Repeat hprev

/-- Settles O18: the payload is as wide as the window registers say, and they are only read. -/
theorem f64XorReuseSymbol : Obligations.F64XorReuseSymbol := by
  unfold Obligations.F64XorReuseSymbol
  refine ⟨fun s v x w => exec_f64XorReuse, fun s rd v x w rest h hout hprev hw hlegal hx hunread => ?_⟩
  have hd : decodeSymbol s.params s.fd.slot rd = .symbol (.f64XorReuse x) (rd.advance (2 + reuseWidth w)) := by
    have hwidth : 1 ≤ reuseWidth w := by unfold reuseWidth; omega
    rw [decodeSymbol_floatLater hout, hw]
    exact decodeFloatLater_xorReuse hwidth hx (offers_of_floatAt h hunread)
  rw [step_of_floatSymbol h hd]
  exact exec_f64XorReuse hprev hw

/-- Settles O19: a legal pair stands for its window under every policy. -/
theorem f64XorNewSymbol : Obligations.F64XorNewSymbol := by
  unfold Obligations.F64XorNewSymbol
  refine ⟨fun s v x l m hprev hm hlm => exec_f64XorNew hprev (newWindow_legal hm hlm),
    fun s rd v x l m rest h hout hprev hm hlm hx hunread => ?_⟩
  have hd : decodeSymbol s.params s.fd.slot rd = .symbol (.f64XorNew l m x) (rd.advance (14 + m.toNat)) := by
    rw [decodeSymbol_floatLater hout]
    exact decodeFloatLater_xorNew (newWindow_legal hm hlm) hx (offers_of_floatAt h hunread)
  rw [step_of_floatSymbol h hd]
  exact exec_f64XorNew (s := withFloatReader s _) hprev (newWindow_legal hm hlm)

end Sys2Proof
end

section
/-! PROOFS. Bytes as bits, and streams cut short: the bits of packed bytes, what reading a beginning of a stream can answer, and a
symbol that is not wholly there (rules R52, R102, R115, R141, R142, R174). -/

namespace Sys2Proof

open Machine Safety

/-! ### The bits of a byte sequence (rule R52) -/

/-- The stream bits of a byte sequence, most significant first. -/
def bitsOfBytes (data : List Byte) : List Bool := data.flatMap fun b => msbBits 8 b.toNat

theorem avail_new (data : List Byte) : (Reader.new data).avail = 8 * data.length := by
  simp [Reader.avail]

/-- A fresh reader has all the bits of its bytes before it. -/
theorem unread_new (data : List Byte) : (Reader.new data).unread = bitsOfBytes data := by
  simp only [Reader.unread, avail_new, Reader.new_buffer, Reader.new_pc, Nat.zero_add]
  induction data with
  | nil => rfl
  | cons b bs ih =>
    have hshift (j : Nat) : streamBit (b :: bs) (8 + j) = streamBit bs j := by
      simp [streamBit, Nat.add_comm 8 j]
    rw [List.length_cons, Nat.mul_succ, Nat.add_comm, List.range_add, List.map_append, List.map_map, bitsOfBytes,
      List.flatMap_cons]
    simp only [Function.comp_def, hshift]
    exact congrArg₂ (· ++ ·) rfl ih

/-- Eight bits are read back from the byte they make. -/
theorem msbBits_packByte {bits : List Bool} (h : bits.length = 8) : msbBits 8 (packByte bits).toNat = bits := by
  have hbyte : packByte bits = BitVec.ofNat 8 (bitsNat bits) := by
    have hdigit : (fun (v : Nat) (b : Bool) => 2 * v + (if b then 1 else 0)) = fun v b => 2 * v + b.toNat := by
      funext v b
      cases b <;> rfl
    rw [packByte, bitsNat, hdigit]
  have hlt : bitsNat bits < 2 ^ 8 := h ▸ bitsNat_lt bits
  rw [hbyte, BitVec.toNat_ofNat, Nat.mod_eq_of_lt hlt]
  exact h ▸ msbBits_bitsNat bits

/-- Bits are read back from the bytes they are packed in, with zeros after them. -/
theorem bitsOfBytes_packBits {n : Nat} {bits : List Bool} (h : bits.length ≤ 8 * n) :
    bitsOfBytes (packBits n bits) = bits ++ List.replicate (8 * n - bits.length) false := by
  induction n generalizing bits with
  | zero =>
    obtain rfl := List.length_eq_zero_iff.mp (Nat.le_zero.mp h)
    rfl
  | succ n ih =>
    have hbyte : msbBits 8 (packByte ((bits ++ List.replicate 8 false).take 8)).toNat =
        bits.take 8 ++ List.replicate (8 - bits.length) false := by
      rw [msbBits_packByte (by simp), List.take_append, List.take_replicate, Nat.min_eq_left (by omega)]
    rw [packBits, bitsOfBytes, List.flatMap_cons, hbyte]
    rw [← bitsOfBytes, ih (by simp; omega), List.length_drop]
    by_cases hlen : bits.length ≤ 8
    · rw [List.take_of_length_le hlen, List.drop_of_length_le hlen, List.nil_append, List.append_assoc,
        List.replicate_append_replicate]
      congr 2
      omega
    · rw [Nat.sub_eq_zero_of_le (by omega : 8 ≤ bits.length), List.replicate_zero, List.append_nil, ← List.append_assoc,
        List.take_append_drop]
      congr 2
      omega

/-- The bits of a packed stream stand before a fresh reader, whatever pads them (rules R52, R102). -/
theorem unread_new_pack (bits : List Bool) : ∃ padding, (Reader.new (pack bits)).unread = bits ++ padding :=
  ⟨_, by rw [unread_new, pack, bitsOfBytes_packBits (by omega)]⟩

/-! ### Two readers of which one has only a beginning of the other's bits -/

/-- Neither reader has failed, and what `a` has still to read is a beginning of what `b` has. -/
structure Cut (a b : Reader) : Prop where
  left : a.failed = false
  right : b.failed = false
  unread : a.unread <+: b.unread

section

variable {a b : Reader}

theorem Cut.refl (h : a.failed = false) : Cut a a := ⟨h, h, List.prefix_refl _⟩

/-- Data cut short, read from the start. -/
theorem Cut.new_take (data : List Byte) (n : Nat) : Cut (Reader.new (data.take n)) (Reader.new data) := by
  refine ⟨rfl, rfl, bitsOfBytes (data.drop n), ?_⟩
  rw [unread_new, unread_new, bitsOfBytes, bitsOfBytes, ← List.flatMap_append, List.take_append_drop]
  rfl

theorem Cut.avail_le (h : Cut a b) : a.avail ≤ b.avail := by
  simpa using h.unread.length_le

theorem Cut.advance (h : Cut a b) (n : Nat) : Cut (a.advance n) (b.advance n) := by
  refine ⟨h.left, h.right, ?_⟩
  rw [Reader.unread_advance, Reader.unread_advance]
  exact h.unread.drop n

/-- Bits that both readers have are the same bits. -/
theorem Cut.nextWord_eq {n : Nat} (h : Cut a b) (hn : n ≤ a.avail) : nextWord n a = nextWord n b := by
  obtain ⟨rest, hrest⟩ := h.unread
  rw [nextWord, nextWord, nextBits_eq_take hn, nextBits_eq_take (hn.trans h.avail_le), ← hrest,
    List.take_append_of_le_length (by simpa using hn)]

end

/-- What reading a symbol from a beginning of a stream can answer: it fails softly, or answers as on the whole stream. -/
inductive CutRead : SymbolRead → SymbolRead → Prop
  | exhausted {rd : Reader} {whole : SymbolRead} (hfailed : rd.failed = true) : CutRead (.exhausted rd) whole
  | symbol {a b : Reader} (i : Instr) (h : Cut a b) : CutRead (.symbol i a) (.symbol i b)
  | reserved (why : Reserved) (a b : Reader) : CutRead (.reserved why a) (.reserved why b)
  | refused : CutRead (.refused .width) (.refused .width)

section

variable {policy : ReadAfterFail} {a b : Reader} {k : Word → Reader → SymbolRead}

theorem cutRead_afterRead {n : Nat} (h : Cut a b) (hk : ∀ v a b, Cut a b → CutRead (k v a) (k v b)) :
    CutRead (afterRead (readBits policy a n) k) (afterRead (readBits policy b n) k) := by
  by_cases hn : 1 ≤ n ∧ n ≤ 64
  · by_cases ha : n ≤ a.avail
    · rw [readBits_value hn h.left ha, readBits_value hn h.right (ha.trans h.avail_le), h.nextWord_eq ha]
      exact hk _ _ _ (h.advance n)
    · rw [readBits_short hn h.left (Nat.lt_of_not_le ha)]
      exact .exhausted rfl
  · rw [readBits_width (by omega), readBits_width (by omega)]
    exact .refused

/-- A field that is the last of its symbol. -/
theorem cutRead_field {n : Nat} {i : Word → Instr} (h : Cut a b) :
    CutRead (afterRead (readBits policy a n) fun x rd => .symbol (i x) rd)
      (afterRead (readBits policy b n) fun x rd => .symbol (i x) rd) :=
  cutRead_afterRead h fun _ _ _ h => .symbol _ h

end

theorem cutRead_decodeIntLater (p : Params) {a b : Reader} (h : Cut a b) :
    CutRead (decodeIntLater p a) (decodeIntLater p b) := by
  refine cutRead_afterRead h fun b1 _ _ h => ?_
  split
  · exact .symbol _ h
  refine cutRead_afterRead h fun b2 _ _ h => ?_
  split
  · exact cutRead_field h
  refine cutRead_afterRead h fun b3 _ _ h => ?_
  split
  · exact cutRead_field h
  refine cutRead_afterRead h fun b4 _ _ h => ?_
  split
  · exact cutRead_field h
  · exact cutRead_field h

theorem cutRead_decodeFloatLater (p : Params) (window : Option Window) {a b : Reader} (h : Cut a b) :
    CutRead (decodeFloatLater p window a) (decodeFloatLater p window b) := by
  refine cutRead_afterRead h fun control _ _ h => ?_
  split
  · exact .symbol _ h
  refine cutRead_afterRead h fun blockType _ _ h => ?_
  split
  · cases window with
    | none => exact .reserved _ _ _
    | some w => exact cutRead_field h
  refine cutRead_afterRead h fun l _ _ h => ?_
  refine cutRead_afterRead h fun m _ _ h => ?_
  split
  · exact .reserved _ _ _
  · exact cutRead_field h

theorem cutRead_decodeSymbol (p : Params) (slot : Slot) {a b : Reader} (h : Cut a b) :
    CutRead (decodeSymbol p slot a) (decodeSymbol p slot b) := by
  cases slot with
  | floatFirst => exact cutRead_field h
  | floatLater window => exact cutRead_decodeFloatLater p window h
  | intFirst => exact cutRead_field h
  | intSecond => exact cutRead_field h
  | intLater => exact cutRead_decodeIntLater p h

/-- On a reader that has not failed, a symbol is refused only for a width (rules R113, R117). -/
theorem decodeSymbol_refused {p : Params} {slot : Slot} {rd : Reader} {why : ReadRefusal} (hfailed : rd.failed = false)
    (h : decodeSymbol p slot rd = .refused why) : why = .width := by
  have hread := cutRead_decodeSymbol p slot (Cut.refl hfailed)
  rw [h] at hread
  cases hread
  rfl

/-! ### A symbol that is not wholly there -/

/-- A reader whose bits are a proper beginning of a symbol's: on the whole symbol it would answer that symbol, and an answer on
this beginning would take more bits than there are. -/
theorem decodeSymbol_incomplete {p : Params} {slot : Slot} {i : Instr} {rd : Reader} {missing : List Bool}
    (hfailed : rd.failed = false) (hfits : i.fits p.reservedPolicy slot = true) (hmissing : missing ≠ [])
    (hbits : encodeSymbol p.reservedPolicy slot i = rd.unread ++ missing) :
    ∃ rd', decodeSymbol p slot rd = .exhausted rd' ∧ rd'.failed = true ∧ rd'.buffer = rd.buffer := by
  obtain ⟨padding, hunread⟩ := unread_new_pack (encodeSymbol p.reservedPolicy slot i)
  have hwhole := symbolDecodesFromItsEncoding p slot i _ padding hfits rfl hunread
  have hcut : Cut rd (Reader.new (pack (encodeSymbol p.reservedPolicy slot i))) :=
    ⟨hfailed, rfl, missing ++ padding, by rw [hunread, hbits, List.append_assoc]⟩
  have hread := cutRead_decodeSymbol p slot hcut
  rw [hwhole] at hread
  have hleads := leadsTo_decodeSymbol p slot rd
  cases hd : decodeSymbol p slot rd with
  | exhausted rd' =>
    rw [hd] at hread hleads
    cases hread with
    | exhausted hfailed' => exact ⟨rd', rfl, hfailed', hleads.1⟩
  | symbol j rd' =>
    rw [hd] at hread
    cases hread
    have hlen := congrArg List.length (hbits ▸ (decodeSymbol_takes hd).unread)
    have hpos := List.length_pos_iff.mpr hmissing
    simp only [List.length_append] at hlen
    omega
  | reserved why rd' =>
    rw [hd] at hread
    cases hread
  | refused why =>
    rw [hd] at hread
    cases hread

/-- Settles O30: the symbol's reads fail softly, and the step ends the decode. -/
theorem incompleteSymbolStopsTheDecode : Obligations.IncompleteSymbolStopsTheDecode := by
  unfold Obligations.IncompleteSymbolStopsTheDecode
  refine ⟨fun s rd i missing h hfits hmissing hbits => ?_, fun s rd i missing h hfits hmissing hbits => ?_⟩
  · have ⟨_, _, hfailed, _⟩ := h
    have hd := decodeSymbol_incomplete hfailed hfits hmissing hbits
    have ⟨rd', hexhausted, _⟩ := hd
    exact ⟨step_of_intExhausted h hexhausted, hd⟩
  · have ⟨_, _, hfailed, _⟩ := h
    have hd := decodeSymbol_incomplete hfailed hfits hmissing hbits
    have ⟨rd', hexhausted, _⟩ := hd
    exact ⟨step_of_floatExhausted h hexhausted, hd⟩

end Sys2Proof
end

section
/-! PROOFS. DECODE_F64 symbol by symbol: the whole algorithm reads what the decoder reads, and the steps do what it does (rules R132
to R141). -/

namespace Sys2Proof

open Machine Safety Machine.Transaction

/-! ### What a float symbol yields -/

/-- The pattern a symbol yields after the pattern `prev` and the window after it (rules R133, R135 to R137). -/
def floatYield (policy : ReservedPolicy) (prev : Word) (window : Option Window) : Instr → Word × Option Window
  | .f64First v => (v, window)
  | .f64XorReuse x =>
    match window with
    | some w => (xorPayload prev x w.trailing, window)
    | none => (prev, window)
  | .f64XorNew l m x =>
    match newWindow policy l m with
    | some (_, w) => (xorPayload prev x w.trailing, some w)
    | none => (prev, window)
  | _ => (prev, window)

theorem floatYield_f64XorNew {policy : ReservedPolicy} {prev x : Word} {window : Option Window} {l m : BitVec 6} {n : Nat}
    {w : Window} (hw : newWindow policy l m = some (n, w)) :
    floatYield policy prev window (.f64XorNew l m x) = (xorPayload prev x w.trailing, some w) := by
  simp only [floatYield, hw]

/-- What reading a symbol at value #2 or later comes to, in the terms of the whole algorithm. -/
def floatOutcome (policy : ReservedPolicy) (prev : Word) (window : Option Window) :
    SymbolRead → Except Halt (Word × Option Window × Reader)
  | .symbol i rd => .ok ((floatYield policy prev window i).1, (floatYield policy prev window i).2, rd)
  | .exhausted _ => .error .truncated
  | .reserved why _ => .error (.reserved why)
  | .refused _ => .error .width

/-! ### The algorithm's reads are the decoder's -/

section

variable {rd : Reader} {n : Nat}

theorem readOr_value (hn : 1 ≤ n ∧ n ≤ 64) (hfailed : rd.failed = false) (havail : n ≤ rd.avail) :
    readOr rd n = .ok (nextWord n rd, rd.advance n) := by
  rw [readOr, readBits_value hn hfailed havail]

theorem readOr_short (hn : 1 ≤ n ∧ n ≤ 64) (hfailed : rd.failed = false) (havail : rd.avail < n) :
    readOr rd n = .error .truncated := by
  rw [readOr, readBits_short hn hfailed havail]

theorem readOr_width (hn : n < 1 ∨ 64 < n) : readOr rd n = .error .width := by
  rw [readOr, readBits_width hn]

/-- A read and what the algorithm goes on with come to what the decoder's read and the rest come to, if the rests do. -/
theorem readOr_bind {policy : ReservedPolicy} {prev : Word} {window : Option Window} {onFail : ReadAfterFail}
    {k : Word × Reader → Except Halt (Word × Option Window × Reader)} {k' : Word → Reader → SymbolRead}
    (hfailed : rd.failed = false)
    (hk : ∀ v, v.toNat < 2 ^ n → k (v, rd.advance n) = floatOutcome policy prev window (k' v (rd.advance n))) :
    (readOr rd n >>= k) = floatOutcome policy prev window (afterRead (readBits onFail rd n) k') := by
  by_cases hn : 1 ≤ n ∧ n ≤ 64
  · by_cases havail : n ≤ rd.avail
    · rw [readOr_value hn hfailed havail, readBits_value hn hfailed havail]
      exact hk _ (nextWord_toNat_lt hn.2 rd)
    · rw [readOr_short hn hfailed (Nat.lt_of_not_le havail), readBits_short hn hfailed (Nat.lt_of_not_le havail)]
      rfl
  · rw [readOr_width (by omega), readBits_width (by omega)]
    rfl

end

/-- The window the fields `L`, `M` stand for, by the tests of the algorithm (rules R94, R137). -/
theorem newWindow_fields {policy : ReservedPolicy} {l m : Word} (hl : l.toNat < 2 ^ 6) (hm : m.toNat < 2 ^ 6) :
    newWindow policy (l.setWidth 6) (m.setWidth 6) =
      if m = 0 ∧ policy = .mb0Is64 ∧ l = 0 then some (64, ⟨0, 0⟩)
      else if m = 0 ∨ 64 < l.toNat + m.toNat then none
      else some (m.toNat, ⟨l.toNat, 64 - l.toNat - m.toNat⟩) := by
  have hzero (x : Word) : x.toNat = 0 ↔ x = 0 := BitVec.toNat_inj (y := 0)
  simp only [newWindow, toNat_setWidth_of_lt hl, toNat_setWidth_of_lt hm, hzero]
  by_cases h : m = 0
  · simp only [h, if_true, true_and, true_or]
  · simp only [h, if_false, false_and, false_or]

/-- The algorithm reads a float symbol as the decoder does, whatever a failed reader would do: none is read (rule R118). -/
theorem readFloat_eq (p : Params) (prev : Word) (window : Option Window) {rd : Reader} (hfailed : rd.failed = false) :
    readFloat p.reservedPolicy prev window rd =
      floatOutcome p.reservedPolicy prev window (decodeFloatLater p window rd) := by
  refine readOr_bind hfailed fun control _ => ?_
  by_cases hcontrol : control = 0
  · simp only [hcontrol, if_true]
    rfl
  simp only [hcontrol, if_false]
  refine readOr_bind hfailed fun blockType _ => ?_
  by_cases hblock : blockType = 0
  · simp only [hblock, if_true]
    cases window with
    | none => rfl
    | some w => exact readOr_bind hfailed fun x _ => rfl
  simp only [hblock, if_false]
  refine readOr_bind hfailed fun l hl => readOr_bind hfailed fun m hm => ?_
  have hwindow := newWindow_fields (policy := p.reservedPolicy) hl hm
  by_cases hmb0 : m = 0 ∧ p.reservedPolicy = .mb0Is64 ∧ l = 0
  · rw [if_pos hmb0] at hwindow
    simp only [hwindow, if_pos hmb0]
    refine readOr_bind hfailed fun x _ => ?_
    rw [floatOutcome, floatYield_f64XorNew hwindow]
    simp only [xorPayload, BitVec.shiftLeft_zero]
    rfl
  rw [if_neg hmb0] at hwindow
  by_cases hbad : m = 0 ∨ 64 < l.toNat + m.toNat
  · rw [if_pos hbad] at hwindow
    simp only [hwindow, if_neg hmb0, if_pos hbad]
    rfl
  · rw [if_neg hbad] at hwindow
    simp only [hwindow, if_neg hmb0, if_neg hbad]
    refine readOr_bind hfailed fun x _ => ?_
    rw [floatOutcome, floatYield_f64XorNew hwindow]
    rfl

/-- The algorithm from a symbol read on, with at most `n` values after that symbol's. -/
def floatLoopAfter (policy : ReservedPolicy) (n : Nat) (prev : Word) (window : Option Window) :
    SymbolRead → Except Refusal (List Word)
  | .symbol i rd =>
    (floatLoop policy n rd (floatYield policy prev window i).1 (floatYield policy prev window i).2).map
      (fun vs => (floatYield policy prev window i).1 :: vs)
  | .exhausted _ => .ok []
  | .reserved why _ => if policy = .softStop then .ok [] else .error (.reservedSymbol why)
  | .refused _ => .error .readWidth

/-- The loop of the algorithm goes on with the symbol the decoder reads. -/
theorem floatLoop_succ (p : Params) (n : Nat) (prev : Word) (window : Option Window) {rd : Reader}
    (hfailed : rd.failed = false) :
    floatLoop p.reservedPolicy (n + 1) rd prev window =
      floatLoopAfter p.reservedPolicy n prev window (decodeFloatLater p window rd) := by
  rw [floatLoop, readFloat_eq p prev window hfailed]
  cases decodeFloatLater p window rd <;> rfl

end Sys2Proof
end

section
/-! PROOFS. The steps of DECODE_F64 deliver what the whole algorithm computes, or are refused as it is (rules R39, R132, R141, R144,
R252). -/

namespace Sys2Proof

open Machine Safety Machine.Transaction

/-! ### A symbol, executed -/

/-- A symbol at value #2 or later writes what it yields; of `window_valid` only that it is written matters here. -/
theorem exec_floatYield {s : State} {i : Instr} {prev : Word} (hprev : s.fd.prevValue = some prev)
    (hfits : i.fits s.params.reservedPolicy (.floatLater s.fd.window) = true) :
    ∃ valid, exec i s = .next { s with
      fd := { s.fd with
        prevValue := some (floatYield s.params.reservedPolicy prev s.fd.window i).1
        window := (floatYield s.params.reservedPolicy prev s.fd.window i).2
        windowValid := valid
        out := s.fd.out ++ [(floatYield s.params.reservedPolicy prev s.fd.window i).1] } } := by
  cases i with
  | f64Repeat => exact ⟨s.fd.windowValid, by simp [exec_f64Repeat hprev, floatYield, hprev]⟩
  | f64XorReuse x =>
    obtain ⟨w, hslot, -, -⟩ := fits_f64XorReuse hfits
    have hw : s.fd.window = some w := Slot.floatLater.inj hslot
    exact ⟨s.fd.windowValid, by simp [exec_f64XorReuse hprev hw, floatYield, hw]⟩
  | f64XorNew l m x =>
    obtain ⟨_, n, w, -, hw, -⟩ := fits_f64XorNew hfits
    exact ⟨true, by rw [exec_f64XorNew hprev hw, floatYield_f64XorNew hw]⟩
  | f64First _ | i64First _ | i64FirstDelta _ | i64Dod0 | i64Dod7 _ | i64Dod9 _ | i64Dod12 _ | i64Dod64 _ | header _
  | trailerFooter _ | descriptor _ | column _ => cases hfits

/-! ### How the steps of a float decode end -/

/-- The state after a float decode that returns `vs`, whoever called it. -/
def floatsReturned (s : State) (vs : List Word) : State := ({ s with fd := { out := vs } } : State).finishFloats

/-- The end of a float decode keeps nothing of its registers but `out`. -/
theorem finishFloats_eq (s : State) (fd : FloatDecoder) :
    ({ s with fd := fd } : State).finishFloats = floatsReturned s fd.out := by
  unfold floatsReturned State.finishFloats
  cases s.phase with
  | decodingFloats c => cases c <;> rfl
  | idle => rfl
  | parsing c => rfl
  | decodingInts c => rfl
  | pairing => rfl
  | returning => rfl

/-- The steps from `s` end a float decode of `base` as an algorithm with this outcome does: with the sequence, or refused. -/
def FloatsEndAs (s base : State) : Except Refusal (List Word) → Prop
  | .ok vs => ∃ k, Reaches k s (floatsReturned base vs)
  | .error r => ∃ k, RefusedWithin k s r

theorem FloatsEndAs.cons {s t base : State} {outcome : Except Refusal (List Word)} (h : step s = .next t)
    (g : FloatsEndAs t base outcome) : FloatsEndAs s base outcome := by
  cases outcome with
  | ok vs =>
    obtain ⟨k, hk⟩ := g
    exact ⟨k + 1, Reaches.cons h hk⟩
  | error r =>
    obtain ⟨k, hk⟩ := g
    exact ⟨k + 1, RefusedWithin.cons h hk⟩

/-- One step that ends the decode. -/
theorem FloatsEndAs.finish {s : State} (h : step s = .next s.finishFloats) : FloatsEndAs s s (.ok s.fd.out) :=
  ⟨1, Reaches.cons h (finishFloats_eq s s.fd ▸ Reaches.zero _)⟩

theorem FloatsEndAs.refuse {s base : State} {r : Refusal} (h : step s = .refused r) : FloatsEndAs s base (.error r) :=
  ⟨1, RefusedWithin.one h⟩

theorem step_of_floatRefused {s : State} {rd : Reader} {why : ReadRefusal} (h : FloatAt s rd)
    (hd : decodeSymbol s.params s.fd.slot rd = .refused why) : step s = .refused (.ofRead why) := by
  obtain ⟨⟨c, hc⟩, hrd, -, hlt⟩ := h
  simp only [step_floats_eq hc, fetchFloat, hrd, if_pos hlt, hd]
  rfl

/-! ### The steps and the algorithm -/

/-- One step of a running float decode at value #2 or later, by the symbol it reads. -/
theorem step_floatYield {s : State} {rd rd' : Reader} {prev : Word} {i : Instr} (h : FloatAt s rd)
    (hprev : s.fd.prevValue = some prev) (hout : s.fd.out ≠ []) (hd : decodeSymbol s.params s.fd.slot rd = .symbol i rd') :
    ∃ valid, step s = .next { s with
      fd := { s.fd with
        rd := some rd'
        prevValue := some (floatYield s.params.reservedPolicy prev s.fd.window i).1
        window := (floatYield s.params.reservedPolicy prev s.fd.window i).2
        windowValid := valid
        out := s.fd.out ++ [(floatYield s.params.reservedPolicy prev s.fd.window i).1] } } := by
  have hfits := decodeSymbol_fits hd
  rw [floatSlot_eq, if_neg hout] at hfits
  rw [step_of_floatSymbol h hd]
  exact exec_floatYield (s := withFloatReader s rd') hprev hfits

/-- What is out stands before what the rest of the loop gives. -/
theorem map_append_map_cons (r : Except Refusal (List Word)) (out : List Word) (v : Word) :
    (r.map (v :: ·)).map (out ++ ·) = r.map ((out ++ [v]) ++ ·) := by
  cases r <;> simp [Except.map]

/-- A float decode ends in the same state whatever its registers held on the way. -/
theorem FloatsEndAs.of_fd {s base : State} {fd : FloatDecoder} {outcome : Except Refusal (List Word)}
    (h : FloatsEndAs s { base with fd := fd } outcome) : FloatsEndAs s base outcome := by
  cases outcome <;> exact h

/-- A running float decode at value #2 or later, with `n` values to come, ends as the algorithm's loop does. -/
theorem floatsEndAs_floatLoop {s : State} {c : Caller} {rd : Reader} {prev : Word} {window : Option Window}
    {out : List Word} {n : Nat} (hc : s.phase = .decodingFloats c) (hrd : s.fd.rd = some rd) (hfailed : rd.failed = false)
    (hprev : s.fd.prevValue = some prev) (hwindow : s.fd.window = window) (hout : s.fd.out = out) (hne : out ≠ [])
    (hcount : s.fd.count.toNat = out.length + n) :
    FloatsEndAs s s ((floatLoop s.params.reservedPolicy n rd prev window).map (out ++ ·)) := by
  induction n generalizing s rd prev window out with
  | zero =>
    subst hout
    have hdone := FloatsEndAs.finish (step_floats_done hc (.inr (by omega)))
    rw [← List.append_nil s.fd.out] at hdone
    exact hdone
  | succ n ih =>
    subst hwindow hout
    have hat : FloatAt s rd := ⟨⟨c, hc⟩, hrd, hfailed, by omega⟩
    rw [floatLoop_succ s.params n prev s.fd.window hfailed, ← decodeSymbol_floatLater hne rd]
    cases hd : decodeSymbol s.params s.fd.slot rd with
    | symbol i rd' =>
      obtain ⟨valid, hstep⟩ := step_floatYield hat hprev hne hd
      have hfailed' : rd'.failed = false := by
        rw [(decodeSymbol_takes hd).moved]
        exact hfailed
      rw [floatLoopAfter, map_append_map_cons]
      refine FloatsEndAs.cons hstep (FloatsEndAs.of_fd (ih hc rfl hfailed' rfl rfl rfl (by simp) ?_))
      rw [List.length_append, List.length_singleton, Nat.add_assoc, Nat.add_comm 1]
      exact hcount
    | exhausted rd' =>
      rw [floatLoopAfter, Except.map, List.append_nil]
      exact FloatsEndAs.finish (step_of_floatExhausted hat hd)
    | reserved why rd' =>
      obtain ⟨hrefuse, hsoft⟩ := step_of_reserved hat hd
      by_cases hpolicy : s.params.reservedPolicy = .softStop
      · rw [floatLoopAfter, if_pos hpolicy, Except.map, List.append_nil]
        exact FloatsEndAs.finish (hsoft hpolicy)
      · rw [floatLoopAfter, if_neg hpolicy]
        exact FloatsEndAs.refuse (hrefuse hpolicy)
    | refused why =>
      obtain rfl := decodeSymbol_refused hfailed hd
      exact FloatsEndAs.refuse (step_of_floatRefused hat hd)

/-- A float decode at its start ends as the whole algorithm does, whoever called it (rule R132). -/
theorem floatsEndAs_decodeF64 {s : State} {c : Caller} {data : List Byte} {count : Word}
    (hc : s.phase = .decodingFloats c) (hfd : s.fd = FloatDecoder.start s.params data count) :
    FloatsEndAs s s (decodeF64 s.params data count) := by
  have hout : s.fd.out = [] := by rw [hfd]; rfl
  by_cases hempty : data = [] ∨ count = 0
  · have hrd : s.fd.rd = none := by rw [hfd]; exact if_pos hempty
    rw [decodeF64, if_pos hempty, ← hout]
    exact FloatsEndAs.finish (step_floats_done hc (.inl hrd))
  have hrd : s.fd.rd = some (Reader.new data) := by rw [hfd]; exact if_neg hempty
  have hcount : s.fd.count = count := by rw [hfd]; rfl
  have hwindow : s.fd.window = s.params.windowReset := by rw [hfd]; rfl
  have hpos : 0 < count.toNat := Nat.pos_of_ne_zero fun h => hempty (.inr (BitVec.eq_of_toNat_eq h))
  have hat : FloatAt s (Reader.new data) := ⟨⟨c, hc⟩, hrd, rfl, by rw [hout, hcount]; exact hpos⟩
  rw [decodeF64, if_neg hempty]
  by_cases havail : 64 ≤ (Reader.new data).avail
  · have hd : decodeSymbol s.params s.fd.slot (Reader.new data) =
        .symbol (.f64First (nextWord 64 (Reader.new data))) ((Reader.new data).advance 64) := by
      rw [decodeSymbol_floatFirst hout, readBits_value (by decide) rfl havail]
      rfl
    rw [readOk, readBits_value (by decide) rfl havail]
    refine FloatsEndAs.cons ((step_of_floatSymbol hat hd).trans rfl) (FloatsEndAs.of_fd (floatsEndAs_floatLoop
      (out := [nextWord 64 (Reader.new data)]) hc rfl rfl rfl hwindow ?_ (by simp) ?_))
    · simp [withFloatReader, hout]
    · simp [withFloatReader, hcount]
      omega
  · have hd : decodeSymbol s.params s.fd.slot (Reader.new data) = .exhausted { Reader.new data with failed := true } := by
      rw [decodeSymbol_floatFirst hout, readBits_short (by decide) rfl (Nat.lt_of_not_le havail)]
      rfl
    rw [readOk, readBits_short (by decide) rfl (Nat.lt_of_not_le havail), ← hout]
    exact FloatsEndAs.finish (step_of_floatExhausted hat hd)

/-- Settles O50: the request starts the decode, and the decode ends as the algorithm does. -/
theorem decodeF64RunsTheAlgorithm : Obligations.DecodeF64RunsTheAlgorithm := by
  unfold Obligations.DecodeF64RunsTheAlgorithm
  intro s data count rest hc hr
  have hends : FloatsEndAs s _ (decodeF64 s.params data count) :=
    FloatsEndAs.cons (step_idle_request hc hr) (floatsEndAs_decodeF64 rfl rfl)
  refine ⟨fun vs hvs => ?_, fun r hr => ?_⟩
  · rw [hvs] at hends
    obtain ⟨k, hk⟩ := hends
    exact ⟨k, _, hk, rfl, rfl, rfl⟩
  · rw [hr] at hends
    exact hends

end Sys2Proof
end

section
/-! PROOFS. The float round trip: the assembler's expansion of each value may stand where it is put and yields that value, so the
decoder reconstructs the sequence (rules R102, R136, R137, R147). -/

namespace Sys2Proof

open Machine Machine.Transaction Machine.Assembler

/-! ### Leading and trailing zeros of a word (rule R102) -/

theorem takeWhile_not_eq_replicate (bs : List Bool) :
    bs.takeWhile (fun b => !b) = List.replicate (bs.takeWhile (fun b => !b)).length false :=
  List.eq_replicate_iff.mpr ⟨rfl, fun _ hb => by simpa using List.mem_takeWhile_imp hb⟩

theorem bitsNat_replicate_false (n : Nat) : bitsNat (List.replicate n false) = 0 := by
  induction n with
  | zero => rfl
  | succ n ih => simp [List.replicate_succ, bitsNat_cons, ih]

theorem bitsNat_msbBits_toNat (x : Word) : bitsNat (msbBits 64 x.toNat) = x.toNat :=
  (bitsNat_msbBits 64 x.toNat).trans (Nat.mod_eq_of_lt x.isLt)

/-- A word is below the power of two its leading zeros leave. -/
theorem toNat_lt_of_leadingZeros (x : Word) : leadingZeros x ≤ 64 ∧ x.toNat < 2 ^ (64 - leadingZeros x) := by
  have hsplit := List.takeWhile_append_dropWhile (p := fun b => !b) (l := msbBits 64 x.toNat)
  rw [takeWhile_not_eq_replicate] at hsplit
  have hlen := congrArg List.length hsplit
  have hval := congrArg bitsNat hsplit
  have hlt := bitsNat_lt ((msbBits 64 x.toNat).dropWhile fun b => !b)
  rw [List.length_append, List.length_replicate, msbBits_length, ← leadingZeros] at hlen
  rw [bitsNat_append, bitsNat_replicate_false, bitsNat_msbBits_toNat] at hval
  rw [show ((msbBits 64 x.toNat).dropWhile fun b => !b).length = 64 - leadingZeros x by omega] at hlt
  exact ⟨by omega, by omega⟩

/-- A word is a multiple of the power of two its trailing zeros give. -/
theorem dvd_toNat_of_trailingZeros (x : Word) : 2 ^ trailingZeros x ∣ x.toNat := by
  have hsplit := List.takeWhile_append_dropWhile (p := fun b => !b) (l := (msbBits 64 x.toNat).reverse)
  rw [takeWhile_not_eq_replicate] at hsplit
  have hval := congrArg (fun bs => bitsNat bs.reverse) hsplit
  simp only [List.reverse_append, List.reverse_replicate, List.reverse_reverse, bitsNat_append, bitsNat_replicate_false,
    List.length_replicate, bitsNat_msbBits_toNat] at hval
  exact ⟨_, hval.symm.trans (Nat.mul_comm _ _)⟩

/-- A word that is not 0 has a bit between its leading and its trailing zeros. -/
theorem leadingZeros_add_trailingZeros_lt {x : Word} (hx : x ≠ 0) : leadingZeros x + trailingZeros x < 64 := by
  have hpos : 0 < x.toNat := Nat.pos_of_ne_zero fun h => hx (BitVec.eq_of_toNat_eq h)
  obtain ⟨hle, hlt⟩ := toNat_lt_of_leadingZeros x
  have hpow := (Nat.le_of_dvd hpos (dvd_toNat_of_trailingZeros x)).trans_lt hlt
  have := (Nat.pow_lt_pow_iff_right (by decide)).mp hpow
  omega

section

variable {x : Word} {l t : Nat}

/-- The bits between a window's ends fit its payload. -/
theorem shiftRight_lt_of_zeros (hl : l ≤ leadingZeros x) (hlt : l + t ≤ 64) : (x >>> t).toNat < 2 ^ (64 - l - t) := by
  rw [BitVec.toNat_ushiftRight, Nat.shiftRight_eq_div_pow, Nat.div_lt_iff_lt_mul (Nat.two_pow_pos t), ← Nat.pow_add]
  refine (toNat_lt_of_leadingZeros x).2.trans_le (Nat.pow_le_pow_right (by decide) ?_)
  omega

/-- A shift down through zeros and up again loses nothing, so a payload yields the pattern it was made for. -/
theorem xorPayload_shiftRight {p q : Word} (ht : t ≤ trailingZeros (p ^^^ q)) :
    xorPayload q ((p ^^^ q) >>> t) t = p := by
  have hback : ((p ^^^ q) >>> t) <<< t = p ^^^ q := by
    apply BitVec.eq_of_toNat_eq
    rw [BitVec.toNat_shiftLeft, BitVec.toNat_ushiftRight, Nat.shiftRight_eq_div_pow, Nat.shiftLeft_eq,
      Nat.div_mul_cancel ((Nat.pow_dvd_pow 2 ht).trans (dvd_toNat_of_trailingZeros _))]
    exact Nat.mod_eq_of_lt (p ^^^ q).isLt
  rw [xorPayload, hback, BitVec.xor_comm p q, ← BitVec.xor_assoc, BitVec.xor_self, BitVec.zero_xor]

end

/-! ### The expansion of a value (rule R102) -/

/-- The symbol may stand after the pattern `q` with this window, and yields `p`. -/
def Codes (q : Word) (window : Option Window) (p : Word) (i : Instr) : Prop :=
  i.fits .refuse (.floatLater window) = true ∧ floatYield .refuse q window i = (p, windowAfter window i)

section

variable {p q : Word}

theorem codes_f64XorReuse {w : Window} (hne : p ≠ q) (hl : w.leading ≤ leadingZeros (p ^^^ q))
    (ht : w.trailing ≤ trailingZeros (p ^^^ q)) :
    Codes q (some w) p (.f64XorReuse ((p ^^^ q) >>> w.trailing)) := by
  have hx := leadingZeros_add_trailingZeros_lt (mt BitVec.xor_eq_zero_iff.mp hne)
  have hwidth : 1 ≤ reuseWidth w := by unfold reuseWidth; omega
  constructor
  · exact Bool.and_eq_true_iff.mpr ⟨decide_eq_true hwidth, decide_eq_true (shiftRight_lt_of_zeros hl (by omega))⟩
  · rw [floatYield, xorPayload_shiftRight ht]
    rfl

/-- The expansion as a new-window block, where its width can be written. -/
def newBlock (x : Word) : Option Instr :=
  if 64 - leadingZeros x - trailingZeros x ≤ 63 then
    some (.f64XorNew (BitVec.ofNat 6 (leadingZeros x)) (BitVec.ofNat 6 (64 - leadingZeros x - trailingZeros x))
      (x >>> trailingZeros x))
  else none

theorem codes_newBlock {window : Option Window} {i : Instr} (hne : p ≠ q) (h : newBlock (p ^^^ q) = some i) :
    Codes q window p i := by
  rw [newBlock, Option.ite_none_right_eq_some, Option.some.injEq] at h
  obtain ⟨hwidth, rfl⟩ := h
  have hx := leadingZeros_add_trailingZeros_lt (mt BitVec.xor_eq_zero_iff.mp hne)
  have hfit := shiftRight_lt_of_zeros (x := p ^^^ q) (le_refl _) hx.le
  have hpayload := xorPayload_shiftRight (p := p) (q := q) (le_refl _)
  generalize (p ^^^ q) >>> trailingZeros (p ^^^ q) = x at *
  generalize leadingZeros (p ^^^ q) = l, trailingZeros (p ^^^ q) = t at *
  have hl : (BitVec.ofNat 6 l).toNat = l := Nat.mod_eq_of_lt (by omega)
  have hm : (BitVec.ofNat 6 (64 - l - t)).toNat = 64 - l - t := Nat.mod_eq_of_lt (by omega)
  have hwindow : newWindow .refuse (BitVec.ofNat 6 l) (BitVec.ofNat 6 (64 - l - t)) = some (64 - l - t, ⟨l, t⟩) := by
    unfold newWindow
    rw [hl, hm, if_neg (by omega), if_neg (by omega)]
    congr 3
    omega
  constructor
  · simpa [Instr.fits, Slot.isFloatLater, newPayloadFits, hwindow] using hfit
  · rw [floatYield_f64XorNew hwindow, hpayload, windowAfter, hwindow]

end

/-- Whatever the expansion of `F64.VALUE p` is, it yields `p`. -/
theorem codes_floatValue {p q : Word} {window : Option Window} {i : Instr} (h : floatValue q window p = some i) :
    Codes q window p i := by
  by_cases hpq : p = q
  · simp only [floatValue, if_pos hpq, Option.some.injEq] at h
    subst hpq h
    exact ⟨rfl, rfl⟩
  simp only [floatValue, if_neg hpq] at h
  cases window with
  | none => exact codes_newBlock hpq h
  | some w =>
    by_cases hzeros : w.leading ≤ leadingZeros (p ^^^ q) ∧ w.trailing ≤ trailingZeros (p ^^^ q)
    · simp only [if_pos hzeros, Option.some.injEq] at h
      subst h
      exact codes_f64XorReuse hpq hzeros.1 hzeros.2
    · simp only [if_neg hzeros] at h
      exact codes_newBlock hpq h

/-! ### The sequence -/

/-- The loop of the algorithm reconstructs the values whose expansions come next. -/
theorem floatLoop_floatBitsAfter {q : Word} {window : Option Window} {ps : List Word} {bits rest : List Bool} {rd : Reader}
    (hbits : floatBitsAfter q window ps = some bits) (h : Offers rd (bits ++ rest)) :
    floatLoop .refuse ps.length rd q window = .ok ps := by
  induction ps generalizing q window bits rd with
  | nil => rfl
  | cons p ps ih =>
    rw [floatBitsAfter] at hbits
    cases hi : floatValue q window p with
    | none =>
      rw [hi] at hbits
      cases hbits
    | some i =>
      rw [hi] at hbits
      obtain ⟨bits', hbits', rfl⟩ := Option.map_eq_some_iff.mp hbits
      obtain ⟨hfits, hyield⟩ := codes_floatValue hi
      rw [List.append_assoc] at h
      have hd := symbolDecodesFromItsEncoding {} (.floatLater window) i rd (bits' ++ rest) hfits h.failed h.unread
      have hrest := h.drop (encodeSymbol .refuse (.floatLater window) i).length
      rw [List.drop_left] at hrest
      have hloop := floatLoop_succ {} ps.length q window h.failed
      rw [show decodeFloatLater {} window rd = _ from hd, floatLoopAfter, hyield] at hloop
      exact hloop.trans (congrArg (Except.map _) (ih hbits' hrest))

/-- Settles O55: the first pattern is read as it is, and each one after it from its expansion. -/
theorem floatRoundTrip : Obligations.FloatRoundTrip := by
  unfold Obligations.FloatRoundTrip
  intro vs bits padding hlen hbits
  cases vs with
  | nil => simp [decodeF64]
  | cons v vs =>
    obtain ⟨bits', hbits', rfl⟩ := Option.map_eq_some_iff.mp hbits
    obtain ⟨rest, hunread⟩ := unread_new_pack (encodeSymbol .refuse .floatFirst (.f64First v) ++ bits' ++ padding)
    generalize pack (encodeSymbol .refuse .floatFirst (.f64First v) ++ bits' ++ padding) = data at hunread ⊢
    have hstart : Offers (Reader.new data) (msbBits 64 v.toNat ++ (bits' ++ (padding ++ rest))) :=
      ⟨rfl, by rw [hunread, encodeSymbol]; simp only [List.append_assoc]⟩
    have hdata : data ≠ [] := by
      rintro rfl
      have hlen := congrArg List.length hstart.unread
      rw [List.length_append, msbBits_length] at hlen
      simp [Reader.avail] at hlen
      omega
    have hcount : (BitVec.ofNat 64 (v :: vs).length).toNat = vs.length + 1 := Nat.mod_eq_of_lt hlen
    have hzero : BitVec.ofNat 64 (v :: vs).length ≠ 0 := by
      intro h
      rw [h] at hcount
      cases hcount
    have hread := (read_msbBits (policy := .stickyFail) 64 v.toNat rfl (by decide) (by decide) v.isLt hstart.unread).1
    have hrest := floatLoop_floatBitsAfter hbits' (hstart.drop 64)
    rw [decodeF64, if_neg (not_or.mpr ⟨hdata, hzero⟩), readOk, hread, hcount]
    simp only [BitVec.ofNat_toNat, BitVec.setWidth_eq, Nat.add_sub_cancel]
    exact congrArg (Except.map _) hrest

end Sys2Proof
end

section
/-! PROOFS. Whole decodes of data cut short, and how many values a decode can give: both algorithms read symbols, a beginning of the
data gives the same symbols as far as it goes, and each symbol takes a bit at least (rules R142, R144, R174, R176). -/

namespace Sys2Proof

open Machine Machine.Transaction Machine.Assembler

/-! ### The int algorithm's reads are the decoder's -/

/-- What reading a symbol at value #3 or later comes to, in the terms of the whole algorithm. -/
def dodOutcome : SymbolRead → Option (Word × Reader)
  | .symbol i rd => (dodOf i).map fun dod => (dod, rd)
  | .exhausted _ => none
  | .reserved _ _ => none
  | .refused _ => none

section

variable {rd : Reader} {n : Nat}

theorem readOk_value (hn : 1 ≤ n ∧ n ≤ 64) (hfailed : rd.failed = false) (havail : n ≤ rd.avail) :
    readOk rd n = some (nextWord n rd, rd.advance n) := by
  rw [readOk, readBits_value hn hfailed havail]

theorem readOk_short (hn : 1 ≤ n ∧ n ≤ 64) (hfailed : rd.failed = false) (havail : rd.avail < n) : readOk rd n = none := by
  rw [readOk, readBits_short hn hfailed havail]

/-- A read and what the algorithm goes on with come to what the decoder's read and the rest come to, if the rests do. -/
theorem readOk_bind {onFail : ReadAfterFail} {k : Word × Reader → Option (Word × Reader)} {k' : Word → Reader → SymbolRead}
    (hn : 1 ≤ n ∧ n ≤ 64) (hfailed : rd.failed = false)
    (hk : ∀ v, v.toNat < 2 ^ n → k (v, rd.advance n) = dodOutcome (k' v (rd.advance n))) :
    (readOk rd n >>= k) = dodOutcome (afterRead (readBits onFail rd n) k') := by
  by_cases havail : n ≤ rd.avail
  · rw [readOk_value hn hfailed havail, readBits_value hn hfailed havail]
    exact hk _ (nextWord_toNat_lt hn.2 rd)
  · rw [readOk_short hn hfailed (Nat.lt_of_not_le havail), readBits_short hn hfailed (Nat.lt_of_not_le havail)]
    rfl

end

/-- Sign extension by its arithmetic definition is the signed reading of the field (rule R172). -/
theorem sextValue_eq {w : Nat} {x : Word} (hw : 1 ≤ w) (hx : x.toNat < 2 ^ w) :
    sextValue w x = BitVec.ofInt 64 (x.setWidth w).toInt := by
  obtain ⟨w, rfl⟩ := Nat.exists_eq_add_of_le' hw
  rw [sextValue, BitVec.toInt_eq_toNat_cond, toNat_setWidth_of_lt hx, Nat.add_sub_cancel, Nat.pow_succ]
  by_cases hsign : x.toNat < 2 ^ w
  · rw [if_pos hsign, if_pos (by omega), BitVec.ofInt_natCast, BitVec.ofNat_toNat, BitVec.setWidth_eq]
  · rw [if_neg hsign, if_neg (by omega)]

/-- The algorithm reads a delta-of-delta as the decoder does, whatever a failed reader would do: none is read (rule R118). -/
theorem readDod_eq (p : Params) {rd : Reader} (hfailed : rd.failed = false) :
    readDod rd = dodOutcome (decodeIntLater p rd) := by
  refine readOk_bind (by decide) hfailed fun b1 _ => ?_
  by_cases h1 : b1 = 0
  · simp only [h1, if_true]
    rfl
  simp only [h1, if_false]
  refine readOk_bind (by decide) hfailed fun b2 _ => ?_
  by_cases h2 : b2 = 0
  · simp only [h2, if_true]
    exact readOk_bind (by decide) hfailed fun x hx => by rw [sextValue_eq (by decide) hx]; rfl
  simp only [h2, if_false]
  refine readOk_bind (by decide) hfailed fun b3 _ => ?_
  by_cases h3 : b3 = 0
  · simp only [h3, if_true]
    exact readOk_bind (by decide) hfailed fun x hx => by rw [sextValue_eq (by decide) hx]; rfl
  simp only [h3, if_false]
  refine readOk_bind (by decide) hfailed fun b4 _ => ?_
  by_cases h4 : b4 = 0
  · simp only [h4, if_true]
    exact readOk_bind (by decide) hfailed fun x hx => by rw [sextValue_eq (by decide) hx]; rfl
  simp only [h4, if_false]
  refine readOk_bind (by decide) hfailed fun x hx => ?_
  rw [sextValue_eq (by decide) hx, BitVec.setWidth_eq, BitVec.ofInt_toInt]
  rfl

/-! ### Data cut short -/

section

variable {a b : Reader}

theorem readOk_cut {n : Nat} (hn : 1 ≤ n ∧ n ≤ 64) (h : Cut a b) :
    readOk a n = none ∨ ∃ v a' b', readOk a n = some (v, a') ∧ readOk b n = some (v, b') ∧ Cut a' b' := by
  by_cases ha : n ≤ a.avail
  · exact .inr ⟨_, _, _, readOk_value hn h.left ha,
      h.nextWord_eq ha ▸ readOk_value hn h.right (ha.trans h.avail_le), h.advance n⟩
  · exact .inl (readOk_short hn h.left (Nat.lt_of_not_le ha))

theorem readDod_cut (h : Cut a b) :
    readDod a = none ∨ ∃ dod a' b', readDod a = some (dod, a') ∧ readDod b = some (dod, b') ∧ Cut a' b' := by
  have hread := cutRead_decodeIntLater {} h
  rw [readDod_eq {} h.left, readDod_eq {} h.right]
  generalize decodeIntLater {} a = ra, decodeIntLater {} b = rb at hread
  cases hread with
  | exhausted hfailed => exact .inl rfl
  | symbol i h' =>
    cases hdod : dodOf i with
    | none => exact .inl (by rw [dodOutcome, hdod]; rfl)
    | some dod => exact .inr ⟨dod, _, _, by rw [dodOutcome, hdod]; rfl, by rw [dodOutcome, hdod]; rfl, h'⟩
  | reserved why a b => exact .inl rfl
  | refused => exact .inl rfl

theorem intLoop_cut (n : Nat) (h : Cut a b) (prev delta : Word) : intLoop n a prev delta <+: intLoop n b prev delta := by
  induction n generalizing a b prev delta with
  | zero => exact List.prefix_refl _
  | succ n ih =>
    rw [intLoop, intLoop]
    obtain hnone | ⟨dod, a', b', ha, hb, h'⟩ := readDod_cut h
    · rw [hnone]
      exact List.nil_prefix
    · rw [ha, hb]
      exact (List.prefix_cons_inj _).mpr (ih h' _ _)

/-- A sequence that was mapped was one before. -/
theorem map_ok {xs : Except Refusal (List Word)} {f : List Word → List Word} {vs : List Word} (h : xs.map f = .ok vs) :
    ∃ ws, xs = .ok ws ∧ f ws = vs := by
  cases xs with
  | ok ws => exact ⟨ws, rfl, Except.ok.inj h⟩
  | error r => cases h

/-- A loop on a beginning of the bits gives a beginning of the values, and meets no reserved symbol the other does not meet. -/
theorem floatLoop_cut (p : Params) {n : Nat} {prev : Word} {window : Option Window} {vs : List Word} (h : Cut a b)
    (hvs : floatLoop p.reservedPolicy n b prev window = .ok vs) :
    ∃ ws, floatLoop p.reservedPolicy n a prev window = .ok ws ∧ ws <+: vs := by
  induction n generalizing a b prev window vs with
  | zero => exact ⟨vs, hvs, List.prefix_refl _⟩
  | succ n ih =>
    have hread := cutRead_decodeFloatLater p window h
    rw [floatLoop_succ p n prev window h.right] at hvs
    rw [floatLoop_succ p n prev window h.left]
    generalize decodeFloatLater p window a = ra, decodeFloatLater p window b = rb at hread hvs
    cases hread with
    | exhausted hfailed => exact ⟨[], rfl, List.nil_prefix⟩
    | symbol i h' =>
      obtain ⟨vs', hvs', rfl⟩ := map_ok hvs
      obtain ⟨ws', hws', hprefix⟩ := ih h' hvs'
      exact ⟨_, by rw [floatLoopAfter, hws']; rfl, (List.prefix_cons_inj _).mpr hprefix⟩
    | reserved why a b => exact ⟨vs, hvs, List.prefix_refl _⟩
    | refused => cases hvs

end

/-- Rule R174 for the whole int algorithm. -/
theorem decodeI64_take (data : List Byte) (n : Nat) (count : Word) :
    decodeI64 (data.take n) count <+: decodeI64 data count := by
  by_cases hempty : data.take n = [] ∨ count = 0
  · rw [decodeI64, if_pos hempty]
    exact List.nil_prefix
  have hwhole : ¬(data = [] ∨ count = 0) := fun h => hempty (h.imp_left fun h => by rw [h, List.take_nil])
  rw [decodeI64, decodeI64, if_neg hempty, if_neg hwhole]
  obtain hnone | ⟨v, a, b, ha, hb, h⟩ := readOk_cut (n := 64) (by decide) (Cut.new_take data n)
  · rw [hnone]
    exact List.nil_prefix
  simp only [ha, hb]
  by_cases hone : count = 1
  · rw [if_pos hone, if_pos hone]
  rw [if_neg hone, if_neg hone]
  obtain hnone | ⟨d, a', b', ha', hb', h'⟩ := readOk_cut (n := 64) (by decide) h
  · rw [hnone]
    cases readOk b 64 with
    | none => exact List.prefix_refl _
    | some r => exact (List.prefix_cons_inj v).mpr List.nil_prefix
  · simp only [ha', hb']
    exact (List.prefix_cons_inj v).mpr ((List.prefix_cons_inj _).mpr (intLoop_cut _ h' _ _))

/-- Rule R142 for the whole float algorithm. -/
theorem decodeF64_take {p : Params} {data : List Byte} {count : Word} {vs : List Word} (n : Nat)
    (hvs : decodeF64 p data count = .ok vs) : ∃ ws, decodeF64 p (data.take n) count = .ok ws ∧ ws <+: vs := by
  by_cases hempty : data.take n = [] ∨ count = 0
  · exact ⟨[], if_pos hempty, List.nil_prefix⟩
  have hwhole : ¬(data = [] ∨ count = 0) := fun h => hempty (h.imp_left fun h => by rw [h, List.take_nil])
  rw [decodeF64, if_neg hwhole] at hvs
  rw [decodeF64, if_neg hempty]
  obtain hnone | ⟨v, a, b, ha, hb, h⟩ := readOk_cut (n := 64) (by decide) (Cut.new_take data n)
  · rw [hnone]
    exact ⟨[], rfl, List.nil_prefix⟩
  simp only [hb] at hvs
  simp only [ha]
  obtain ⟨vs', hvs', rfl⟩ := map_ok hvs
  obtain ⟨ws', hws', hprefix⟩ := floatLoop_cut p h hvs'
  exact ⟨v :: ws', by rw [hws']; rfl, (List.prefix_cons_inj v).mpr hprefix⟩

/-- Settles O56: the two readers stay together until the shorter one runs out. -/
theorem truncationGivesAPrefix : Obligations.TruncationGivesAPrefix := by
  unfold Obligations.TruncationGivesAPrefix
  exact ⟨decodeI64_take, fun p data n count vs => decodeF64_take n⟩

/-! ### How many values there can be -/

/-- A symbol has one bit at least (rules R83, R85). -/
theorem encodeSymbol_length_pos {policy : ReservedPolicy} {slot : Slot} {i : Instr} (h : i.fits policy slot = true) :
    0 < (encodeSymbol policy slot i).length := by
  cases i with
  | f64XorReuse x =>
    obtain ⟨w, rfl, -⟩ := fits_f64XorReuse h
    simp [encodeSymbol]
  | f64XorNew l m x =>
    obtain ⟨window, n, w, rfl, hw, -⟩ := fits_f64XorNew h
    simp [encodeSymbol, hw]
  | f64First _ | f64Repeat | i64First _ | i64FirstDelta _ | i64Dod0 | i64Dod7 _ | i64Dod9 _ | i64Dod12 _ | i64Dod64 _ =>
    simp [encodeSymbol]
  | header _ | trailerFooter _ | descriptor _ | column _ => cases h

/-- A symbol that was read leaves a reader that has not failed, with fewer bits. -/
theorem decodeSymbol_avail_lt {p : Params} {slot : Slot} {rd rd' : Reader} {i : Instr} (hfailed : rd.failed = false)
    (h : decodeSymbol p slot rd = .symbol i rd') : rd'.failed = false ∧ rd'.avail < rd.avail := by
  have htakes := decodeSymbol_takes h
  have hpos := encodeSymbol_length_pos (decodeSymbol_fits h)
  have hlen := congrArg List.length htakes.unread
  rw [List.length_append, Reader.unread_length, Reader.unread_length] at hlen
  exact ⟨by rw [htakes.moved]; exact hfailed, by omega⟩

/-- A delta-of-delta takes a bit at least. -/
theorem readDod_avail_lt {rd rd' : Reader} {dod : Word} (hfailed : rd.failed = false) (h : readDod rd = some (dod, rd')) :
    rd'.failed = false ∧ rd'.avail < rd.avail := by
  rw [readDod_eq {} hfailed] at h
  cases hd : decodeIntLater {} rd with
  | symbol i rd'' =>
    rw [hd, dodOutcome, Option.map_eq_some_iff] at h
    obtain ⟨dod', -, hpair⟩ := h
    cases hpair
    exact decodeSymbol_avail_lt (p := {}) (slot := .intLater) hfailed hd
  | exhausted rd'' => rw [hd] at h; cases h
  | reserved why rd'' => rw [hd] at h; cases h
  | refused why => rw [hd] at h; cases h

theorem intLoop_length_le (n : Nat) {rd : Reader} (hfailed : rd.failed = false) (prev delta : Word) :
    (intLoop n rd prev delta).length ≤ n ∧ (intLoop n rd prev delta).length ≤ rd.avail := by
  induction n generalizing rd prev delta with
  | zero => exact ⟨le_refl _, Nat.zero_le _⟩
  | succ n ih =>
    rw [intLoop]
    cases hd : readDod rd with
    | none => exact ⟨Nat.zero_le _, Nat.zero_le _⟩
    | some r =>
      obtain ⟨hfailed', hlt⟩ := readDod_avail_lt hfailed hd
      obtain ⟨hn, havail⟩ := ih hfailed' (prev + (delta + r.1)) (delta + r.1)
      simp only [List.length_cons]
      omega

theorem floatLoop_length_le (p : Params) {n : Nat} {rd : Reader} {prev : Word} {window : Option Window} {vs : List Word}
    (hfailed : rd.failed = false) (h : floatLoop p.reservedPolicy n rd prev window = .ok vs) :
    vs.length ≤ n ∧ vs.length ≤ rd.avail := by
  induction n generalizing rd prev window vs with
  | zero =>
    cases h
    exact ⟨le_refl _, Nat.zero_le _⟩
  | succ n ih =>
    rw [floatLoop_succ p n prev window hfailed] at h
    cases hd : decodeFloatLater p window rd with
    | symbol i rd' =>
      rw [hd] at h
      obtain ⟨vs', hvs', rfl⟩ := map_ok h
      obtain ⟨hfailed', hlt⟩ := decodeSymbol_avail_lt (slot := .floatLater window) hfailed hd
      obtain ⟨hn, havail⟩ := ih hfailed' hvs'
      simp only [List.length_cons]
      omega
    | exhausted rd' =>
      rw [hd] at h
      cases h
      exact ⟨Nat.zero_le _, Nat.zero_le _⟩
    | reserved why rd' =>
      rw [hd, floatLoopAfter] at h
      split at h <;> cases h
      exact ⟨Nat.zero_le _, Nat.zero_le _⟩
    | refused why =>
      rw [hd] at h
      cases h

/-- The bounds of an int decode: nothing without the first 64 bits, one value without the next 64, then a bit a value. -/
theorem decodeI64_length (data : List Byte) (count : Word) :
    (decodeI64 data count).length ≤ count.toNat ∧
    (data.length < 8 → (decodeI64 data count).length = 0) ∧
    (data.length < 16 → (decodeI64 data count).length ≤ 1) ∧
    (16 ≤ data.length → (decodeI64 data count).length ≤ 8 * data.length - 126) := by
  by_cases hempty : data = [] ∨ count = 0
  · rw [decodeI64, if_pos hempty]
    simp
  have hpos : count.toNat ≠ 0 := fun h => hempty (.inr (BitVec.eq_of_toNat_eq h))
  have havail := avail_new data
  have havail' := Reader.avail_advance (Reader.new data) 64
  rw [decodeI64, if_neg hempty]
  by_cases h8 : 64 ≤ (Reader.new data).avail
  swap
  · rw [readOk_short (by decide) rfl (Nat.lt_of_not_le h8)]
    simp
  rw [readOk_value (by decide) rfl h8]
  dsimp only
  by_cases hone : count = 1
  · rw [if_pos hone, List.length_singleton]
    omega
  have htwo : count.toNat ≠ 1 := fun h => hone (BitVec.eq_of_toNat_eq h)
  rw [if_neg hone]
  by_cases h16 : 64 ≤ ((Reader.new data).advance 64).avail
  · rw [readOk_value (by decide) rfl h16]
    obtain ⟨hn, hbits⟩ := intLoop_length_le (count.toNat - 2) (rd := ((Reader.new data).advance 64).advance 64) rfl
      (nextWord 64 (Reader.new data) + nextWord 64 ((Reader.new data).advance 64)) (nextWord 64 ((Reader.new data).advance 64))
    rw [Reader.avail_advance] at hbits
    simp only [List.length_cons]
    omega
  · rw [readOk_short (by decide) rfl (Nat.lt_of_not_le h16)]
    simp only [List.length_singleton]
    omega

/-- The bounds of a float decode: nothing without the first 64 bits, then a bit a value. -/
theorem decodeF64_length {p : Params} {data : List Byte} {count : Word} {vs : List Word}
    (h : decodeF64 p data count = .ok vs) :
    vs.length ≤ count.toNat ∧ (data.length < 8 → vs.length = 0) ∧
    (8 ≤ data.length → vs.length ≤ 8 * data.length - 63) := by
  rw [decodeF64] at h
  by_cases hempty : data = [] ∨ count = 0
  · rw [if_pos hempty] at h
    cases h
    simp
  have hpos : count.toNat ≠ 0 := fun h => hempty (.inr (BitVec.eq_of_toNat_eq h))
  have havail := avail_new data
  rw [if_neg hempty] at h
  by_cases h8 : 64 ≤ (Reader.new data).avail
  · rw [readOk_value (by decide) rfl h8] at h
    obtain ⟨vs', hvs', rfl⟩ := map_ok h
    obtain ⟨hn, hbits⟩ := floatLoop_length_le p rfl hvs'
    rw [Reader.avail_advance] at hbits
    simp only [List.length_cons]
    omega
  · rw [readOk_short (by decide) rfl (Nat.lt_of_not_le h8)] at h
    cases h
    simp

/-- Settles O57: the first values take 64 bits each and every further one takes a bit at least. -/
theorem decodedLengthIsBounded : Obligations.DecodedLengthIsBounded := by
  unfold Obligations.DecodedLengthIsBounded
  refine ⟨fun data count => ?_, fun p data count vs h => ?_⟩
  · obtain ⟨hcount, hnone, hone, hmore⟩ := decodeI64_length data count
    exact ⟨hcount, fun h => List.length_eq_zero_iff.mp (hnone h), fun _ h => hone h, hmore⟩
  · obtain ⟨hcount, hnone, hmore⟩ := decodeF64_length h
    exact ⟨hcount, fun h => List.length_eq_zero_iff.mp (hnone h), hmore⟩

end Sys2Proof
end

section
/-! PROOFS. The words and the symbols of the int stream: sign extension and the wrapping sums, and the seven symbols, executed and
stepped from their bits (rules R163 to R174). -/

namespace Sys2Proof

open Machine Safety Machine.Transaction Machine.Assembler

/-! ### Sign extension and the sums modulo `2^64` -/

/-- The signed reading of a field, by the bound of rule R172. -/
theorem toInt_eq_ite {w : Nat} (hw : 1 ≤ w) (x : BitVec w) :
    x.toInt = if x.toNat < 2 ^ (w - 1) then (x.toNat : Int) else (x.toNat : Int) - 2 ^ w := by
  obtain ⟨w, rfl⟩ := Nat.exists_eq_add_of_le' hw
  rw [BitVec.toInt_eq_toNat_cond, Nat.add_sub_cancel, Nat.pow_succ]
  by_cases hsign : x.toNat < 2 ^ w
  · rw [if_pos hsign, if_pos (by omega)]
  · rw [if_neg hsign, if_neg (by omega)]
    push_cast
    ring

/-- Settles O13: widening to 64 bits keeps the signed reading, which is the one of rule R172. -/
theorem signExtension : Obligations.SignExtension := by
  unfold Obligations.SignExtension
  intro w x hw h64
  rw [sext, BitVec.toInt_signExtend_of_le h64]
  exact toInt_eq_ite hw x

/-- Settles O14: the sum of bit patterns wraps for both readings. -/
theorem additionsWrap : Obligations.AdditionsWrap := by
  unfold Obligations.AdditionsWrap
  exact ⟨fun a b => ⟨BitVec.toNat_add a b, BitVec.toInt_add a b⟩, by decide⟩

/-- A field extended by the arithmetic definition is its signed reading as a word (rule R172). -/
theorem sextValue_setWidth {w : Nat} (hw : 1 ≤ w ∧ w ≤ 64) (x : BitVec w) :
    sextValue w (x.setWidth 64) = BitVec.ofInt 64 x.toInt := by
  have hx : (x.setWidth 64).toNat = x.toNat := BitVec.toNat_setWidth_of_le hw.2
  rw [sextValue_eq hw.1 (hx.trans_lt x.isLt), BitVec.setWidth_setWidth_of_le x hw.2, BitVec.setWidth_eq]

/-! ### The delta-of-delta symbols, executed -/

/-- Every delta-of-delta symbol applies the delta-of-delta it carries, and changes nothing else (rules R166 to R171). -/
theorem exec_of_dodOf {i : Instr} {dod : Word} (h : dodOf i = some dod) (s : State) : exec i s = .next (afterDod s dod) := by
  cases i with
  | i64Dod0 | i64Dod7 d | i64Dod9 d | i64Dod12 d =>
    cases h
    rfl
  | i64Dod64 d =>
    cases h
    simp only [exec, execI64Dod64, sext, BitVec.signExtend_eq]
    rfl
  | f64First _ | f64Repeat | f64XorReuse _ | f64XorNew _ _ _ | i64First _ | i64FirstDelta _ | header _ | trailerFooter _
  | descriptor _ | column _ => cases h

/-- The symbols that carry a delta-of-delta are the ones that may stand at value #3 or later (rules R81, R87). -/
theorem dodOf_isSome (policy : ReservedPolicy) (i : Instr) : (dodOf i).isSome = i.fits policy .intLater := by
  cases i <;> rfl

/-- Settles O23: each symbol carries its field's signed reading. -/
theorem dodSymbolsExecute : Obligations.DodSymbolsExecute := by
  unfold Obligations.DodSymbolsExecute
  intro s
  refine ⟨exec_of_dodOf rfl s, fun d => ?_, fun d => ?_, fun d => ?_, fun d => exec_of_dodOf rfl s⟩
  all_goals
    rw [sextValue_setWidth (by decide)]
    exact exec_of_dodOf rfl s

/-! ### What stands at each position -/

section

variable {s : State} (rd : Reader)

/-- At value #1 an int decode reads 64 bits (rules R81, R163). -/
theorem decodeSymbol_intFirst (hout : s.id.out = []) :
    decodeSymbol s.params s.id.slot rd =
      afterRead (readBits s.params.readAfterFail rd 64) fun v rd => .symbol (.i64First v) rd := by
  rw [intSlot_eq, if_pos hout]
  rfl

/-- At value #2 an int decode reads 64 bits (rules R81, R164). -/
theorem decodeSymbol_intSecond {v : Word} (hout : s.id.out = [v]) :
    decodeSymbol s.params s.id.slot rd =
      afterRead (readBits s.params.readAfterFail rd 64) fun d rd => .symbol (.i64FirstDelta d) rd := by
  rw [intSlot_eq, hout]
  rfl

/-- From value #3 on the first bits select the tier (rules R81, R165). -/
theorem decodeSymbol_intLater (hout : 2 ≤ s.id.out.length) :
    decodeSymbol s.params s.id.slot rd = decodeIntLater s.params rd := by
  have hne : s.id.out ≠ [] := fun h => by simp [h] at hout
  rw [intSlot_eq, if_neg hne, if_neg (by omega)]
  rfl

end

/-! ### The first two values -/

section

variable {s : State} {rd : Reader} {i : Word → Instr} (h : IntAt s rd)
  (hword : decodeSymbol s.params s.id.slot rd =
    afterRead (readBits s.params.readAfterFail rd 64) fun x rd => .symbol (i x) rd)
include h hword

/-- A symbol that is one word, all of it there. -/
theorem step_of_word (havail : 64 ≤ rd.avail) :
    step s = exec (i (nextWord 64 rd)) (withIntReader s (rd.advance 64)) := by
  have ⟨_, _, hfailed, _⟩ := h
  rw [readBits_value (by decide) hfailed havail] at hword
  exact step_of_intSymbol h hword

/-- A symbol that is one word, with fewer than 64 bits left (rules R115, R174). -/
theorem step_of_shortWord (havail : rd.avail < 64) :
    decodeSymbol s.params s.id.slot rd = .exhausted { rd with failed := true } ∧ step s = .next s.finishInts := by
  have ⟨_, _, hfailed, _⟩ := h
  rw [readBits_short (by decide) hfailed havail] at hword
  exact ⟨hword, step_of_intExhausted h hword⟩

end

/-- The bits of a word that come next are read as that word. -/
theorem nextWord_of_offers {rd : Reader} {v : Word} {rest : List Bool} (h : Offers rd (msbBits 64 v.toNat ++ rest)) :
    64 ≤ rd.avail ∧ nextWord 64 rd = v := by
  have havail : 64 ≤ rd.avail := by
    rw [← Reader.unread_length, h.unread, List.length_append, msbBits_length]
    omega
  refine ⟨havail, ?_⟩
  rw [nextWord, nextBits_eq_take havail, h.unread, List.take_left' (msbBits_length 64 _), bitsNat_msbBits,
    Nat.mod_eq_of_lt v.isLt, BitVec.ofNat_toNat, BitVec.setWidth_eq]

theorem offers_of_intAt {s : State} {rd : Reader} {bits : List Bool} (h : IntAt s rd) (hunread : rd.unread = bits) :
    Offers rd bits := by
  obtain ⟨-, -, hfailed, -⟩ := h
  exact ⟨hfailed, hunread⟩

theorem exec_i64FirstDelta {s : State} {v : Word} (d : Word) (hprev : s.id.prevValue = some v) :
    exec (.i64FirstDelta d) s = .next { s with
      id := { s.id with prevDelta := some d, prevValue := some (v + d), out := s.id.out ++ [v + d] } } := by
  simp only [exec, execI64FirstDelta, State.stepInt, State.intPrev, hprev, addWrap, Option.getD_some]

/-- Settles O21: the symbol is one read of 64 bits, and a short one without them. -/
theorem i64FirstSymbol : Obligations.I64FirstSymbol := by
  unfold Obligations.I64FirstSymbol
  refine ⟨fun v s => rfl, fun s rd v rest h hout hunread => ?_,
    fun s rd h hout havail => step_of_shortWord h (decodeSymbol_intFirst rd hout) havail⟩
  obtain ⟨havail, hv⟩ := nextWord_of_offers (offers_of_intAt h hunread)
  rw [step_of_word h (decodeSymbol_intFirst rd hout) havail, hv]
  simp [exec, execI64First, State.writeInt, withIntReader, hout]

/-- Settles O22: the delta is one read of 64 bits, added to the first value, and a short one without them. -/
theorem i64FirstDeltaSymbol : Obligations.I64FirstDeltaSymbol := by
  unfold Obligations.I64FirstDeltaSymbol
  refine ⟨fun s v d => exec_i64FirstDelta d, fun s rd v d rest h hout hprev hunread => ?_,
    fun s rd v h hout havail => step_of_shortWord h (decodeSymbol_intSecond rd hout) havail⟩
  obtain ⟨havail, hd⟩ := nextWord_of_offers (offers_of_intAt h hunread)
  rw [step_of_word h (decodeSymbol_intSecond rd hout) havail, hd,
    exec_i64FirstDelta (s := withIntReader s (rd.advance 64)) d hprev]
  simp [withIntReader, hout]

/-! ### The delta-of-delta symbols, from their bits -/

/-- A step at value #3 or later applies the delta-of-delta of the symbol it reads. -/
theorem step_of_dodOf {s : State} {rd rd' : Reader} {i : Instr} {dod : Word} (h : IntAt s rd) (hout : 2 ≤ s.id.out.length)
    (hd : decodeIntLater s.params rd = .symbol i rd') (hdod : dodOf i = some dod) :
    step s = .next (afterDod (withIntReader s rd') dod) := by
  rw [← decodeSymbol_intLater rd hout] at hd
  rw [step_of_intSymbol h hd, exec_of_dodOf hdod]

/-- Settles O24: the symbol the first bits select, and the delta-of-delta it carries. -/
theorem dodSymbolsStep : Obligations.DodSymbolsStep := by
  unfold Obligations.DodSymbolsStep
  intro s rd rest h hout
  refine ⟨fun hunread => ?_, fun x hunread => ?_, fun x hunread => ?_, fun x hunread => ?_, fun x hunread => ?_⟩
  · exact step_of_dodOf h hout (decodeIntLater_dod0 (offers_of_intAt h hunread)) rfl
  · rw [sextValue_setWidth (by decide)]
    exact step_of_dodOf h hout (decodeIntLater_dod7 (offers_of_intAt h hunread)) rfl
  · rw [sextValue_setWidth (by decide)]
    exact step_of_dodOf h hout (decodeIntLater_dod9 (offers_of_intAt h hunread)) rfl
  · rw [sextValue_setWidth (by decide)]
    exact step_of_dodOf h hout (decodeIntLater_dod12 (offers_of_intAt h hunread)) rfl
  · exact step_of_dodOf h hout (decodeIntLater_dod64 (offers_of_intAt h hunread)) rfl

end Sys2Proof
end

section
/-! PROOFS. DECODE_I64 symbol by symbol: the whole algorithm case by case, and the steps, which deliver what it computes (rules R39,
R162 to R164, R171, R174, R176). -/

namespace Sys2Proof

open Machine Safety Machine.Transaction Machine.Assembler

/-! ### The whole algorithm, case by case -/

section

variable {data : List Byte} {count : Word}

/-- Nothing is asked for, or the first value is not there. -/
theorem decodeI64_none (h : count = 0 ∨ (Reader.new data).avail < 64) : decodeI64 data count = [] := by
  rw [decodeI64]
  by_cases hempty : data = [] ∨ count = 0
  · rw [if_pos hempty]
  · have havail := h.resolve_left fun hzero => hempty (.inr hzero)
    rw [if_neg hempty, readOk_short (by decide) rfl havail]

/-- Bytes that hold a word are not empty. -/
theorem ne_nil_of_avail (h : 64 ≤ (Reader.new data).avail) : data ≠ [] := by
  rintro rfl
  rw [avail_new, List.length_nil] at h
  omega

/-- One value is asked for, or the second one is not there. -/
theorem decodeI64_single (hfirst : 64 ≤ (Reader.new data).avail) {v : Word} (hv : nextWord 64 (Reader.new data) = v)
    (hcount : count ≠ 0) (h : count = 1 ∨ ((Reader.new data).advance 64).avail < 64) : decodeI64 data count = [v] := by
  subst hv
  rw [decodeI64, if_neg (not_or.mpr ⟨ne_nil_of_avail hfirst, hcount⟩), readOk_value (by decide) rfl hfirst]
  by_cases hone : count = 1
  · simp only [if_pos hone]
  · simp only [if_neg hone, readOk_short (by decide) (Reader.advance_failed _ 64) (h.resolve_left hone)]

/-- Two values at least are asked for, and the first two are there. -/
theorem decodeI64_more (hfirst : 64 ≤ (Reader.new data).avail) (hsecond : 64 ≤ ((Reader.new data).advance 64).avail)
    {v d : Word} (hv : nextWord 64 (Reader.new data) = v) (hd : nextWord 64 ((Reader.new data).advance 64) = d)
    (hcount : count ≠ 0) (hmore : count ≠ 1) :
    decodeI64 data count = v :: (v + d) :: intLoop (count.toNat - 2) ((Reader.new data).advance 128) (v + d) d := by
  subst hv hd
  rw [decodeI64, if_neg (not_or.mpr ⟨ne_nil_of_avail hfirst, hcount⟩), readOk_value (by decide) rfl hfirst]
  simp only [if_neg hmore, readOk_value (by decide) (Reader.advance_failed _ 64) hsecond, Reader.advance_advance]

end

section

variable {p : Params} {rd rd' : Reader}

/-- The loop goes on with the delta-of-delta of the symbol the decoder reads. -/
theorem intLoop_symbol {i : Instr} {dod : Word} (hfailed : rd.failed = false) (hd : decodeIntLater p rd = .symbol i rd')
    (hdod : dodOf i = some dod) (n : Nat) (prev delta : Word) :
    intLoop (n + 1) rd prev delta = (prev + (delta + dod)) :: intLoop n rd' (prev + (delta + dod)) (delta + dod) := by
  have hread : readDod rd = some (dod, rd') := by rw [readDod_eq p hfailed, hd, dodOutcome, hdod, Option.map_some]
  rw [intLoop, hread]

/-- The loop ends where the decoder runs out of bits. -/
theorem intLoop_exhausted (hfailed : rd.failed = false) (hd : decodeIntLater p rd = .exhausted rd') (n : Nat)
    (prev delta : Word) : intLoop n rd prev delta = [] := by
  have hread : readDod rd = none := by rw [readDod_eq p hfailed, hd, dodOutcome]
  cases n with
  | zero => rfl
  | succ n => rw [intLoop, hread]

/-- All that reading a symbol at value #3 or later can answer (rules R91, R165 to R170). -/
theorem decodeIntLater_cases (p : Params) (hfailed : rd.failed = false) :
    (∃ i rd' dod, decodeIntLater p rd = .symbol i rd' ∧ dodOf i = some dod ∧ rd'.failed = false) ∨
    ∃ rd', decodeIntLater p rd = .exhausted rd' := by
  obtain ⟨i, rd', hd⟩ | ⟨rd', hd, -⟩ := decodeIntLater_symbolOrShort (p := p) hfailed
  · have hfits : i.fits p.reservedPolicy .intLater = true := decodeSymbol_fits (slot := .intLater) hd
    obtain ⟨dod, hdod⟩ := Option.isSome_iff_exists.mp ((dodOf_isSome p.reservedPolicy i).trans hfits)
    exact .inl ⟨i, rd', dod, hd, hdod, (decodeSymbol_avail_lt (slot := .intLater) hfailed hd).1⟩
  · exact .inr ⟨rd', hd⟩

end

/-! ### How the steps of an int decode end -/

/-- The state after an int decode that returns `vs`, whoever called it. -/
def intsReturned (s : State) (vs : List Word) : State := ({ s with id := { out := vs } } : State).finishInts

/-- The end of an int decode keeps nothing of its registers but `out`. -/
theorem finishInts_eq (s : State) : s.finishInts = intsReturned s s.id.out := by
  unfold intsReturned State.finishInts
  cases s.phase with
  | decodingInts c => cases c <;> rfl
  | idle | parsing _ | decodingFloats _ | pairing | returning => rfl

/-- The steps from `s` end an int decode of `base` with the sequence `vs`. -/
def IntsEndAs (s base : State) (vs : List Word) : Prop := ∃ k, Reaches k s (intsReturned base vs)

theorem IntsEndAs.cons {s t base : State} {vs : List Word} (h : step s = .next t) (g : IntsEndAs t base vs) :
    IntsEndAs s base vs := by
  obtain ⟨k, hk⟩ := g
  exact ⟨k + 1, Reaches.cons h hk⟩

/-- One step that ends the decode. -/
theorem IntsEndAs.finish {s : State} (h : step s = .next s.finishInts) : IntsEndAs s s s.id.out :=
  ⟨1, Reaches.cons h (finishInts_eq s ▸ Reaches.zero _)⟩

/-- An int decode ends in the same state whatever its registers held on the way. -/
theorem IntsEndAs.of_id {s base : State} {id : IntDecoder} {vs : List Word}
    (h : IntsEndAs s { base with id := id } vs) : IntsEndAs s base vs := h

/-! ### The steps and the algorithm -/

/-- The registers of a running int decode with two values out or more. -/
def laterInts (rd : Reader) (count prev delta : Word) (out : List Word) : IntDecoder :=
  { rd := some rd, count := count, prevValue := some prev, prevDelta := some delta, out := out }

theorem afterDod_laterInts {s : State} {rd : Reader} {count prev delta : Word} {out : List Word}
    (hid : s.id = laterInts rd count prev delta out) (rd' : Reader) (dod : Word) :
    afterDod (withIntReader s rd') dod = { s with
      id := laterInts rd' count (prev + (delta + dod)) (delta + dod) (out ++ [prev + (delta + dod)]) } := by
  simp [afterDod, withIntReader, State.intPrev, State.intDelta, hid, laterInts]

/-- An int decode at value #3 or later, with at most `n` values to come, ends as the algorithm's loop does. -/
theorem intsEndAs_intLoop {s : State} {c : Caller} {rd : Reader} {count prev delta : Word} {out : List Word} {n : Nat}
    (hc : s.phase = .decodingInts c) (hid : s.id = laterInts rd count prev delta out) (hfailed : rd.failed = false)
    (hout : 2 ≤ out.length) (hcount : count.toNat = out.length + n) :
    IntsEndAs s s (out ++ intLoop n rd prev delta) := by
  have hlen : s.id.out = out := by rw [hid, laterInts]
  have hasked : s.id.count = count := by rw [hid, laterInts]
  induction n generalizing s rd prev delta out with
  | zero =>
    rw [intLoop, List.append_nil, ← hlen]
    exact IntsEndAs.finish (step_ints_done hc (.inr (by rw [hlen, hasked]; omega)))
  | succ n ih =>
    have hat : IntAt s rd := ⟨⟨c, hc⟩, by rw [hid, laterInts], hfailed, by rw [hlen, hasked]; omega⟩
    have hlater : 2 ≤ s.id.out.length := by rwa [hlen]
    obtain ⟨i, rd', dod, hd, hdod, hfailed'⟩ | ⟨rd', hd⟩ := decodeIntLater_cases s.params hfailed
    · have hstep := step_of_dodOf hat hlater hd hdod
      rw [afterDod_laterInts hid] at hstep
      rw [intLoop_symbol hfailed hd hdod, List.append_cons]
      refine IntsEndAs.cons hstep (IntsEndAs.of_id (ih hc rfl hfailed' ?_ ?_ rfl rfl))
      · rw [List.length_append]
        omega
      · rw [List.length_append, List.length_singleton]
        omega
    · rw [intLoop_exhausted hfailed hd, List.append_nil, ← hlen]
      rw [← decodeSymbol_intLater rd hlater] at hd
      exact IntsEndAs.finish (step_of_intExhausted hat hd)

/-- An int decode with its first value out ends as the algorithm does from there. -/
theorem intsEndAs_second {s : State} {c : Caller} {data : List Byte} {count v : Word}
    (hc : s.phase = .decodingInts c) (hfirst : 64 ≤ (Reader.new data).avail)
    (hv : nextWord 64 (Reader.new data) = v) (hcount : count ≠ 0)
    (hid : s.id = { rd := some ((Reader.new data).advance 64), count := count, prevValue := some v, out := [v] }) :
    IntsEndAs s s (decodeI64 data count) := by
  have hout : s.id.out = [v] := by rw [hid]
  have hasked : s.id.count = count := by rw [hid]
  by_cases hone : count = 1
  · rw [decodeI64_single hfirst hv hcount (.inl hone), ← hout]
    exact IntsEndAs.finish (step_ints_done hc (.inr (by rw [hout, hasked, hone]; exact le_refl 1)))
  have htwo : 2 ≤ count.toNat := by
    have hne0 : count.toNat ≠ 0 := fun h => hcount (BitVec.eq_of_toNat_eq h)
    have hne1 : count.toNat ≠ 1 := fun h => hone (BitVec.eq_of_toNat_eq h)
    omega
  have hat : IntAt s ((Reader.new data).advance 64) :=
    ⟨⟨c, hc⟩, by rw [hid], rfl, by rw [hout, hasked, List.length_singleton]; omega⟩
  have hword := decodeSymbol_intSecond ((Reader.new data).advance 64) hout
  by_cases hsecond : ((Reader.new data).advance 64).avail < 64
  · rw [decodeI64_single hfirst hv hcount (.inr hsecond), ← hout]
    exact IntsEndAs.finish (step_of_shortWord hat hword hsecond).2
  · have hstep := step_of_word hat hword (Nat.le_of_not_lt hsecond)
    rw [exec_i64FirstDelta (s := withIntReader s _) _ (show s.id.prevValue = _ by rw [hid])] at hstep
    rw [decodeI64_more hfirst (Nat.le_of_not_lt hsecond) hv rfl hcount hone]
    refine IntsEndAs.cons hstep (IntsEndAs.of_id
      (intsEndAs_intLoop (count := count) (out := [v, _]) hc ?_ rfl (le_refl 2) ?_))
    · simp [withIntReader, hid, laterInts]
    · simp only [List.length_cons, List.length_nil]
      omega

/-- An int decode at its start ends as the whole algorithm does, whoever called it (rule R162). -/
theorem intsEndAs_decodeI64 {s : State} {c : Caller} {data : List Byte} {count : Word}
    (hc : s.phase = .decodingInts c) (hid : s.id = IntDecoder.start data count) :
    IntsEndAs s s (decodeI64 data count) := by
  have hout : s.id.out = [] := by rw [hid]; rfl
  by_cases hempty : data = [] ∨ count = 0
  · have hrd : s.id.rd = none := by rw [hid]; exact if_pos hempty
    rw [decodeI64, if_pos hempty, ← hout]
    exact IntsEndAs.finish (step_ints_done hc (.inl hrd))
  have hcount : count ≠ 0 := (not_or.mp hempty).2
  have hrd : s.id.rd = some (Reader.new data) := by rw [hid]; exact if_neg hempty
  have hasked : s.id.count = count := by rw [hid]; rfl
  have hpos : 0 < count.toNat := Nat.pos_of_ne_zero fun h => hcount (BitVec.eq_of_toNat_eq h)
  have hat : IntAt s (Reader.new data) := ⟨⟨c, hc⟩, hrd, rfl, by rw [hout, hasked]; exact hpos⟩
  have hword := decodeSymbol_intFirst (Reader.new data) hout
  by_cases hfirst : (Reader.new data).avail < 64
  · rw [decodeI64_none (.inr hfirst), ← hout]
    exact IntsEndAs.finish (step_of_shortWord hat hword hfirst).2
  · have hstep := step_of_word hat hword (Nat.le_of_not_lt hfirst)
    refine IntsEndAs.cons hstep (IntsEndAs.of_id (intsEndAs_second hc (Nat.le_of_not_lt hfirst) rfl hcount ?_))
    rw [withIntReader, hid]
    rfl

/-- Settles O49: the request starts the decode, and the decode ends as the algorithm does. -/
theorem decodeI64RunsTheAlgorithm : Obligations.DecodeI64RunsTheAlgorithm := by
  unfold Obligations.DecodeI64RunsTheAlgorithm
  intro s data count rest hc hr
  obtain ⟨k, hk⟩ : IntsEndAs s _ (decodeI64 data count) :=
    IntsEndAs.cons (step_idle_request hc hr) (intsEndAs_decodeI64 rfl rfl)
  exact ⟨k, _, hk, rfl, rfl, rfl⟩

end Sys2Proof
end

section
/-! PROOFS. The int round trip: the first two words stand in the stream raw, and from value #3 on each symbol is read back with the
delta-of-delta it carries, so the decoder reconstructs the sequence (rules R90, R163, R164, R171 to R173, R178). -/

namespace Sys2Proof

open Machine Machine.Transaction Machine.Assembler

/-! ### The first two words -/

section

variable {data : List Byte} {v d : Word} {rest : List Bool}

theorem decodeI64_one (h : Offers (Reader.new data) (msbBits 64 v.toNat ++ rest)) : decodeI64 data 1 = [v] := by
  obtain ⟨hfirst, hv⟩ := nextWord_of_offers h
  exact decodeI64_single hfirst hv (by decide) (.inl rfl)

theorem decodeI64_two {count : Word} (h : Offers (Reader.new data) (msbBits 64 v.toNat ++ (msbBits 64 d.toNat ++ rest)))
    (hcount : 2 ≤ count.toNat) :
    decodeI64 data count = v :: (v + d) :: intLoop (count.toNat - 2) ((Reader.new data).advance 128) (v + d) d := by
  have hrest : Offers ((Reader.new data).advance 64) (msbBits 64 d.toNat ++ rest) := h.drop 64
  obtain ⟨hfirst, hv⟩ := nextWord_of_offers h
  obtain ⟨hsecond, hd⟩ := nextWord_of_offers hrest
  refine decodeI64_more hfirst hsecond hv hd ?_ ?_
  · rintro rfl
    cases hcount
  · rintro rfl
    exact absurd hcount (by decide)

end

/-- Whole bytes of packed bits stand before a fresh reader, and then the bytes that follow (rules R52, R102). -/
theorem offers_pack_append {n : Nat} {bits : List Bool} (hlen : bits.length = 8 * n) (rest : List Byte) :
    Offers (Reader.new (pack bits ++ rest)) (bits ++ bitsOfBytes rest) := by
  have hbits : bitsOfBytes (pack bits) = bits := by
    rw [pack, bitsOfBytes_packBits (by omega), show 8 * ((bits.length + 7) / 8) - bits.length = 0 by omega,
      List.replicate_zero, List.append_nil]
  refine ⟨rfl, ?_⟩
  rw [unread_new, bitsOfBytes, List.flatMap_append, ← bitsOfBytes, ← bitsOfBytes, hbits]

/-- Settles O58: one word is the first value, and the next its difference to the second. -/
theorem firstValuesAreRaw : Obligations.FirstValuesAreRaw := by
  unfold Obligations.FirstValuesAreRaw
  intro v d rest
  constructor
  · exact decodeI64_one (offers_pack_append (n := 8) (msbBits_length 64 _) rest)
  · have h := offers_pack_append (n := 16) (bits := msbBits 64 v.toNat ++ msbBits 64 d.toNat)
      (by rw [List.length_append, msbBits_length, msbBits_length]) rest
    rw [List.append_assoc] at h
    exact decodeI64_two h (by decide)

/-! ### The sequence -/

theorem intBits_cons (i : Instr) (is : List Instr) :
    intBits (i :: is) = encodeSymbol .refuse .intLater i ++ intBits is := rfl

/-- The loop of the algorithm reconstructs the values whose symbols come next. -/
theorem intLoop_codesDods {prev delta : Word} {vs : List Word} {is : List Instr} {rest : List Bool} {rd : Reader}
    (hcodes : codesDods prev delta vs is = true) (h : Offers rd (intBits is ++ rest)) :
    intLoop vs.length rd prev delta = vs := by
  induction vs generalizing prev delta is rd with
  | nil => rfl
  | cons v vs ih =>
    cases is with
    | nil => cases hcodes
    | cons i is =>
      obtain ⟨hdod, hcodes⟩ := Bool.and_eq_true_iff.mp hcodes
      have hdod : dodOf i = some (v - prev - delta) := eq_of_beq hdod
      have hfits : i.fits .refuse .intLater = true := by rw [← dodOf_isSome, hdod, Option.isSome_some]
      rw [intBits_cons, List.append_assoc] at h
      have hd : decodeIntLater {} rd = _ := symbolDecodesFromItsEncoding {} .intLater i rd _ hfits h.failed h.unread
      have hrest := h.drop (encodeSymbol .refuse .intLater i).length
      rw [List.drop_left] at hrest
      rw [List.length_cons, intLoop_symbol h.failed hd hdod, add_sub_cancel, add_sub_cancel, ih hcodes hrest]

/-- What a coding of an int sequence looks like (rule R178). -/
theorem codesInts_cases {vs : List Word} {is : List Instr} (h : codesInts vs is = true) :
    vs = [] ∨ (∃ v, vs = [v] ∧ is = [.i64First v]) ∨
    ∃ v1 v2 vs' is', vs = v1 :: v2 :: vs' ∧ is = .i64First v1 :: .i64FirstDelta (v2 - v1) :: is' ∧
      codesDods v2 (v2 - v1) vs' is' = true := by
  unfold codesInts at h
  split at h
  · exact .inl rfl
  · next v v' => exact .inr (.inl ⟨v, rfl, by rw [eq_of_beq h]⟩)
  · next v1 v2 vs' v d is' =>
    simp only [Bool.and_eq_true, beq_iff_eq] at h
    obtain ⟨⟨rfl, rfl⟩, hdods⟩ := h
    exact .inr (.inr ⟨v1, v2, vs', is', rfl, rfl, hdods⟩)
  · cases h

/-- The algorithm reconstructs the sequence whose symbols begin the data (rule R178). -/
theorem decodeI64_codesInts {vs : List Word} {is : List Instr} {data : List Byte} {rest : List Bool}
    (hlen : vs.length < 2 ^ 64) (hcodes : codesInts vs is = true) (h : Offers (Reader.new data) (intBits is ++ rest)) :
    decodeI64 data (BitVec.ofNat 64 vs.length) = vs := by
  obtain rfl | ⟨v, rfl, rfl⟩ | ⟨v1, v2, vs, is, rfl, rfl, hdods⟩ := codesInts_cases hcodes
  · exact decodeI64_none (.inl rfl)
  · rw [intBits_cons, List.append_assoc] at h
    exact decodeI64_one h
  · have hcount : (BitVec.ofNat 64 (v1 :: v2 :: vs).length).toNat = vs.length + 2 := Nat.mod_eq_of_lt hlen
    rw [intBits_cons, intBits_cons, List.append_assoc, List.append_assoc] at h
    rw [decodeI64_two h (hcount ▸ Nat.le_add_left 2 _), hcount, add_sub_cancel, Nat.add_sub_cancel,
      intLoop_codesDods hdods (h.drop 128)]

/-- Settles O53: the first two words are read as they are, and each value after them from its symbol, whatever follows. -/
theorem intRoundTrip : Obligations.IntRoundTrip := by
  unfold Obligations.IntRoundTrip
  intro vs is padding hlen hcodes
  obtain ⟨zeros, hunread⟩ := unread_new_pack (intBits is ++ padding)
  exact decodeI64_codesInts hlen hcodes ⟨rfl, hunread.trans (List.append_assoc _ _ zeros)⟩

end Sys2Proof
end

section
/-! PROOFS. The four container records, executed, and the checks of the trailer and the footer (rules R62, R193 to R199, R202,
R242). -/

namespace Sys2Proof

open Machine Safety

/-! ### The records, executed -/

section

variable {s : State}

theorem exec_header {h : HeaderFields} (hmagic : h.magic = Config.magic) :
    exec (.header h) s = .next { s with cp := { s.cp with header := some h } } := if_pos hmagic

theorem exec_header_badMagic {h : HeaderFields} (hmagic : h.magic ≠ Config.magic) :
    exec (.header h) s = .next (s.raise .badMagic) := if_neg hmagic

theorem exec_trailerFooter_beforeHeader {f : FooterFields}
    (hstart : footerStart s.file.len f.footerSize < Config.headerBytes) :
    exec (.trailerFooter f) s = .next (s.raise .footerBeforeHeader) := if_pos hstart

theorem exec_trailerFooter_badColumnCount {f : FooterFields}
    (hstart : ¬footerStart s.file.len f.footerSize < Config.headerBytes) (hcount : f.columnCount ≠ Config.columnCount) :
    exec (.trailerFooter f) s = .next (s.raise .badColumnCount) := (if_neg hstart).trans (if_neg hcount)

theorem exec_trailerFooter {f : FooterFields} (hstart : ¬footerStart s.file.len f.footerSize < Config.headerBytes)
    (hcount : f.columnCount = Config.columnCount) :
    exec (.trailerFooter f) s = .next { s with
      cp := { s.cp with footer := some f, footerStart := some (footerStart s.file.len f.footerSize) }
      ptr := footerStart s.file.len f.footerSize + 8 } := (if_neg hstart).trans (if_pos hcount)

theorem exec_descriptor (d : DescriptorFields) :
    exec (.descriptor d) s = .next { s with
      cp := if s.cp.col0 = none then { s.cp with col0 := some d } else { s.cp with col1 := some d }
      ptr := s.ptr + 32 + d.nameLen.toNat } := rfl

theorem exec_column (data : List Byte) :
    exec (.column data) s = .next { s with
      cp := if s.cp.slice0 = none then { s.cp with slice0 := some data } else { s.cp with slice1 := some data } } := rfl

end

/-- Settles O25: each record by the checks it makes, a descriptor and a column by whether the first one is kept already. -/
theorem recordsExecute : Obligations.RecordsExecute := by
  unfold Obligations.RecordsExecute
  refine ⟨fun h s => ⟨exec_header, exec_header_badMagic⟩, fun f s => ⟨exec_trailerFooter_beforeHeader, fun hstart =>
    exec_trailerFooter_badColumnCount (not_lt.mpr hstart), fun hstart => exec_trailerFooter (not_lt.mpr hstart)⟩,
    fun d s => ⟨fun h0 => ?_, fun h0 => ?_⟩, fun data s => ⟨fun h0 => ?_, fun h0 => ?_⟩⟩
  · rw [exec_descriptor, if_pos h0]
  · rw [exec_descriptor, if_neg h0]
  · rw [exec_column, if_pos h0]
  · rw [exec_column, if_neg h0]

/-! ### The checks of the trailer and the footer -/

/-- The `footer_size` of the trailer, the word in the last 4 bytes (rule R195). -/
def trailerWord (f : FileBuf) : Nat := leNat (f.bytes (f.len - 4) 4)

/-- The three fields as the bytes give them, where the footer starts in the file (rules R97, R195 to R197). -/
def footerAt (f : FileBuf) : FooterFields where
  footerSize := BitVec.ofNat 32 (trailerWord f)
  metadataVersion := BitVec.ofNat 32 (leNat (f.bytes (f.len - 4 - trailerWord f) 4))
  columnCount := BitVec.ofNat 32 (leNat (f.bytes (f.len - 4 - trailerWord f + 4) 4))

theorem footerAt_footerSize (f : FileBuf) : (footerAt f).footerSize.toNat = trailerWord f := toNat_ofNat_bytes4 f _

theorem footerStart_footerAt (f : FileBuf) : footerStart f.len (footerAt f).footerSize = (f.len : Int) - 4 - trailerWord f :=
  congrArg (fun n : Nat => (f.len : Int) - 4 - n) (footerAt_footerSize f)

/-- The footer's two words are the little-endian ones; its `column_count` is in the file if and only if `footer_size` is 4 or more
(rules R62, R195 to R197, R242). -/
theorem decodeTrailerFooter_eq {f : FileBuf} (hlen : 36 ≤ f.len) :
    decodeTrailerFooter f =
      if f.len < 36 + trailerWord f then .error .footerBeforeHeader
      else if trailerWord f < 4 then .error .outOfRange
      else .ok (footerAt f) := by
  have hsize : memRead32 f ((f.len : Int) - Config.footerSizeBytes) = some (footerAt f).footerSize := by
    rw [show (f.len : Int) - Config.footerSizeBytes = ↑(f.len - 4) by simp only [Config.footerSizeBytes]; omega,
      memRead32_nat, if_pos (by omega)]
    rfl
  rw [decodeTrailerFooter, hsize]
  simp only [orOutOfRange, bind, Except.bind, footerStart_footerAt]
  by_cases hstart : f.len < 36 + trailerWord f
  · rw [if_pos hstart, if_pos (by simp only [Config.headerBytes]; omega)]
    rfl
  · have haddr : (f.len : Int) - 4 - trailerWord f = ↑(f.len - 4 - trailerWord f) := by omega
    have hversion := memRead32_nat f (f.len - 4 - trailerWord f)
    have hcount := memRead32_nat f (f.len - 4 - trailerWord f + 4)
    rw [Nat.cast_add, Nat.cast_ofNat] at hcount
    rw [if_neg hstart, if_neg (by simp only [Config.headerBytes]; omega), haddr, hversion, if_pos (by omega)]
    by_cases hfour : trailerWord f < 4
    · rw [if_neg (by omega)] at hcount
      rw [if_pos hfour, hcount]
    · rw [if_pos (by omega)] at hcount
      rw [if_neg hfour, hcount]
      rfl

/-- The footer's `column_count` is the little-endian word 4 bytes into it (rule R197). -/
theorem footerAt_columnCount_iff (f : FileBuf) :
    (footerAt f).columnCount = Config.columnCount ↔ leNat (f.bytes (f.len - 4 - trailerWord f + 4) 4) = 2 := by
  rw [← BitVec.toNat_inj]
  exact iff_of_eq (congrArg (· = _) (toNat_ofNat_bytes4 f _))

/-- A footer that the file has room for starts after the header (rule R196). -/
theorem footerAt_inside {f : FileBuf} (hin : 36 + trailerWord f ≤ f.len) :
    ¬footerStart f.len (footerAt f).footerSize < Config.headerBytes := by
  rw [footerStart_footerAt]
  simp only [Config.headerBytes]
  omega

/-- Settles O34: the footer is read or not by its two bounds, and what is read is executed. -/
theorem footerChecks : Obligations.FooterChecks := by
  unfold Obligations.FooterChecks
  intro s size h hlen hsize
  obtain rfl : size = trailerWord s.file := hsize
  rw [step_atFooter h, decodeTrailerFooter_eq hlen]
  refine ⟨fun hbefore => ?_, fun hin hsmall => ?_, fun hin hlarge hcount => ?_, fun hin hlarge hcount =>
    ⟨footerAt s.file, ?_, footerAt_footerSize _, toNat_ofNat_bytes4 _ _, (footerAt_columnCount_iff _).mpr hcount⟩⟩
  · rw [if_pos hbefore]
    rfl
  · rw [if_neg (not_lt.mpr hin), if_pos hsmall]
    rfl
  · rw [if_neg (not_lt.mpr hin), if_neg (not_lt.mpr hlarge)]
    exact exec_trailerFooter_badColumnCount (footerAt_inside hin) (mt (footerAt_columnCount_iff _).mp hcount)
  · rw [if_neg (not_lt.mpr hin), if_neg (not_lt.mpr hlarge), ← footerStart_footerAt]
    exact exec_trailerFooter (footerAt_inside hin) ((footerAt_columnCount_iff _).mpr hcount)

end Sys2Proof
end

section
/-! PROOFS. PARSE_CONTAINER record by record: the whole algorithm in terms of the records' decoders, the steps, which deliver what it
computes, and the files that do not parse (rules R62, R63, R191 to R202, R209, R246, R255). -/

namespace Sys2Proof

open Machine Safety Machine.Transaction

/-! ### The reads of the whole algorithm -/

section

variable (file : List Byte)

theorem bytesAt_eq (a : Int) (n : Nat) : bytesAt file a n = orOutOfRange (memBytes (FileBuf.ofBytes file) a n) := by
  rw [bytesAt, memBytes_ofBytes]
  split <;> rfl

theorem u32At_eq (a : Int) : u32At file a = orOutOfRange (memRead32 (FileBuf.ofBytes file) a) := by
  rw [u32At, bytesAt_eq, memRead32]
  cases memBytes (FileBuf.ofBytes file) a 4 <;> rfl

theorem u64At_eq (a : Int) : u64At file a = orOutOfRange (memRead64 (FileBuf.ofBytes file) a) := by
  rw [u64At, bytesAt_eq, memRead64]
  cases memBytes (FileBuf.ofBytes file) a 8 <;> rfl

variable {file} in
theorem bytesAt_inside {a n : Nat} (h : a + n ≤ file.length) : bytesAt file a n = .ok ((FileBuf.ofBytes file).bytes a n) := by
  rw [bytesAt_eq, memBytes_nat, ofBytes_len, if_pos h]
  rfl

variable {file} in
theorem u32At_inside {a : Nat} (h : a + 4 ≤ file.length) :
    u32At file a = .ok (BitVec.ofNat 32 (leNat ((FileBuf.ofBytes file).bytes a 4))) := by
  rw [u32At, bytesAt_inside h]
  rfl

variable {file} in
theorem u64At_inside {a : Nat} (h : a + 8 ≤ file.length) :
    u64At file a = .ok (BitVec.ofNat 64 (leNat ((FileBuf.ofBytes file).bytes a 8))) := by
  rw [u64At, bytesAt_inside h]
  rfl

/-- The first read out of the file is what a sequence of reads raises (rule R62). -/
theorem orOutOfRange_bind {α β : Type} (x : Option α) (k : α → Option β) :
    orOutOfRange (x >>= k) = orOutOfRange x >>= fun a => orOutOfRange (k a) := by
  cases x <;> rfl

theorem descriptorAt_eq (p : Int) : Transaction.descriptorAt file p = decodeDescriptor (FileBuf.ofBytes file) p := by
  simp only [Transaction.descriptorAt, decodeDescriptor, u32At_eq, u64At_eq, bytesAt_eq, orOutOfRange_bind]
  rfl

theorem sliceOf_eq (d : DescriptorFields) : sliceOf file d = decodeColumn (FileBuf.ofBytes file) d.offset d.size := by
  by_cases hout : d.size.toNat < 8 ∨ file.length < d.offset.toNat + d.size.toNat
  · rw [decodeColumn_outside hout]
    exact if_pos hout
  · obtain ⟨hsize, hend⟩ := not_or.mp hout
    rw [decodeColumn_inside (not_lt.mp hsize) (not_lt.mp hend), ofBytes_bytes _ _ _ (by omega)]
    exact if_neg hout

end

/-! ### The whole algorithm, record by record -/

/-- The parse as its records are decoded: each record whole, its check at once after it (log entry 21). -/
def parseRecords (f : FileBuf) : Except Cause Container := do
  let header ← decodeHeader f
  if header.magic ≠ Config.magic then throw .badMagic
  let footer ← decodeTrailerFooter f
  if footer.columnCount ≠ Config.columnCount then throw .badColumnCount
  let col0 ← decodeDescriptor f (footerStart f.len footer.footerSize + 8)
  let col1 ← decodeDescriptor f (footerStart f.len footer.footerSize + 8 + 32 + col0.nameLen.toNat)
  let slice0 ← decodeColumn f col0.offset col0.size
  let slice1 ← decodeColumn f col1.offset col1.size
  return {
    fileLen := some f.len
    header := some header
    footer := some footer
    footerStart := some (footerStart f.len footer.footerSize)
    col0 := some col0
    col1 := some col1
    slice0 := some slice0
    slice1 := some slice1 }

/-- A check that fails ends what stands before the rest of the parse, and so the parse. -/
theorem check_bind {α β : Type} (p : Prop) [Decidable p] (c : Cause) (x : Except Cause α) (k : α → Except Cause β) :
    ((if p then throw c else x) >>= k) = if p then throw c else x >>= k := by
  split <;> rfl

theorem throw_bind {α β : Type} (c : Cause) (k : α → Except Cause β) : (throw c >>= k) = throw c := rfl

/-- The header's reads all succeed in a file of `MIN_FILE_BYTES`, so reading it whole before its check changes no cause. -/
theorem parseContainer_eq (file : List Byte) : parseContainer file = parseRecords (FileBuf.ofBytes file) := by
  rw [parseRecords, decodeHeader_eq, parseContainer]
  by_cases hlen : file.length < 36
  · rw [if_pos hlen, if_pos (show (FileBuf.ofBytes file).len < 36 from hlen)]
    rfl
  rw [if_neg hlen, if_neg (show ¬(FileBuf.ofBytes file).len < 36 from hlen)]
  have hmagic : u32At file 0 = .ok _ := u32At_inside (a := 0) (by omega)
  have hversion : u32At file 4 = .ok _ := u32At_inside (a := 4) (by omega)
  have hrecords : u64At file 8 = .ok _ := u64At_inside (a := 8) (by omega)
  have hcolumns : u32At file 16 = .ok _ := u32At_inside (a := 16) (by omega)
  have hidentifier : bytesAt file 20 4 = .ok _ := bytesAt_inside (a := 20) (by omega)
  simp only [hmagic, hversion, hrecords, hcolumns, hidentifier, decodeTrailerFooter, u32At_eq, descriptorAt_eq, sliceOf_eq]
  simp only [throw_bind, check_bind, bind_assoc, pure_bind]
  rfl

/-- A footer that was decoded starts after the header (rule R196). -/
theorem decodeTrailerFooter_start {f : FileBuf} {footer : FooterFields} (h : decodeTrailerFooter f = .ok footer) :
    ¬footerStart f.len footer.footerSize < Config.headerBytes := by
  obtain ⟨footerSize, -, h⟩ := bind_ok h
  obtain ⟨hstart, h⟩ := check_ok h
  obtain ⟨metadataVersion, -, h⟩ := bind_ok h
  obtain ⟨columnCount, -, h⟩ := bind_ok h
  cases h
  exact hstart

/-! ### How the steps of a parse end -/

/-- A FormatError leaves the same state whatever the registers of the parser held (rule R247). -/
theorem raise_registers (s : State) (cp : Container) (ptr : Int) (c : Cause) :
    ({ s with cp := cp, ptr := ptr } : State).raise c = s.raise c := by
  unfold State.raise
  cases s.phase with
  | parsing c => cases c <;> rfl
  | idle | decodingInts _ | decodingFloats _ | pairing | returning => rfl

/-- The steps from `s` end its parse as an algorithm with this outcome does, whoever called it: with the registers, everything
read, or with the cause. -/
def ParseEndsAs (s : State) : Except Cause Container → Prop
  | .ok cp =>
    ∃ k ptr count0 count1 slice0 slice1, cp.stage = .done count0 count1 slice0 slice1 ∧
      Reaches k s (({ s with cp := cp, ptr := ptr } : State).finishParse count0 count1 slice0 slice1)
  | .error c => ∃ k, Reaches k s (s.raise c)

namespace ParseEndsAs

variable {s : State}

theorem raise {c : Cause} (h : step s = .next (s.raise c)) : ParseEndsAs s (.error c) :=
  ⟨1, Reaches.cons h (Reaches.zero _)⟩

/-- A step that keeps a record in the registers of the parser. -/
theorem cons {cp : Container} {ptr : Int} {outcome : Except Cause Container}
    (h : step s = .next { s with cp := cp, ptr := ptr })
    (g : ParseEndsAs { s with cp := cp, ptr := ptr } outcome) : ParseEndsAs s outcome := by
  cases outcome with
  | ok cp' =>
    obtain ⟨k, ptr', count0, count1, slice0, slice1, hdone, hk⟩ := g
    exact ⟨k + 1, ptr', count0, count1, slice0, slice1, hdone, Reaches.cons h hk⟩
  | error c =>
    obtain ⟨k, hk⟩ := g
    rw [raise_registers] at hk
    exact ⟨k + 1, Reaches.cons h hk⟩

/-- The step that finds everything read. -/
theorem finish {c : Caller} {count0 count1 : Word} {slice0 slice1 : List Byte} (hc : s.phase = .parsing c)
    (hdone : s.cp.stage = .done count0 count1 slice0 slice1) : ParseEndsAs s (.ok s.cp) := by
  have hstep : step s = .next (s.finishParse count0 count1 slice0 slice1) := by
    rw [step_parsing_eq hc, fetchRecord, hdone]
    rfl
  exact ⟨1, s.ptr, count0, count1, slice0, slice1, hdone, Reaches.cons hstep (Reaches.zero _)⟩

/-- One record: its decoder raises, or the parse goes on with what was decoded. -/
theorem record {α : Type} {i : α → Instr} {decoded : Except Cause α} {k : α → Except Cause Container}
    (hstep : step s = (fetchedRecord s i decoded).run)
    (h : ∀ a, decoded = .ok a → step s = exec (i a) s → ParseEndsAs s (k a)) : ParseEndsAs s (decoded >>= k) := by
  cases decoded with
  | error c => exact raise hstep
  | ok a => exact h a rfl hstep

/-! ### The steps, record by record -/

theorem header {k : HeaderFields → Except Cause Container} (hat : AtHeader s)
    (h : ∀ hd, ParseEndsAs { s with cp := { s.cp with header := some hd } } (k hd)) :
    ParseEndsAs s (decodeHeader s.file >>= fun hd => if hd.magic ≠ Config.magic then throw .badMagic else k hd) := by
  refine record (step_atHeader hat) fun hd _ hstep => ?_
  by_cases hmagic : hd.magic = Config.magic
  · rw [if_neg (not_not.mpr hmagic)]
    exact cons (hstep.trans (exec_header hmagic)) (h hd)
  · rw [if_pos hmagic]
    exact raise (hstep.trans (exec_header_badMagic hmagic))

theorem footer {k : FooterFields → Except Cause Container} (hat : AtFooter s)
    (h : ∀ f, ParseEndsAs { s with
      cp := { s.cp with footer := some f, footerStart := some (footerStart s.file.len f.footerSize) }
      ptr := footerStart s.file.len f.footerSize + 8 } (k f)) :
    ParseEndsAs s (decodeTrailerFooter s.file >>= fun f =>
      if f.columnCount ≠ Config.columnCount then throw .badColumnCount else k f) := by
  refine record (step_atFooter hat) fun f hf hstep => ?_
  have hstart := decodeTrailerFooter_start hf
  by_cases hcount : f.columnCount = Config.columnCount
  · rw [if_neg (not_not.mpr hcount)]
    exact cons (hstep.trans (exec_trailerFooter hstart hcount)) (h f)
  · rw [if_pos hcount]
    exact raise (hstep.trans (exec_trailerFooter_badColumnCount hstart hcount))

theorem descriptor {k : DescriptorFields → Except Cause Container} (hat : AtDescriptor s)
    (h : ∀ d, ParseEndsAs { s with
      cp := if s.cp.col0 = none then { s.cp with col0 := some d } else { s.cp with col1 := some d }
      ptr := s.ptr + 32 + d.nameLen.toNat } (k d)) :
    ParseEndsAs s (decodeDescriptor s.file s.ptr >>= k) :=
  record (step_atDescriptor hat) fun d _ hstep => cons (hstep.trans (exec_descriptor d)) (h d)

theorem column {k : List Byte → Except Cause Container} {d : DescriptorFields} (hat : AtColumn s d)
    (h : ∀ data, ParseEndsAs { s with
      cp := if s.cp.slice0 = none then { s.cp with slice0 := some data } else { s.cp with slice1 := some data } } (k data)) :
    ParseEndsAs s (decodeColumn s.file d.offset d.size >>= k) :=
  record (step_atColumn hat) fun data _ hstep => cons (hstep.trans (exec_column data)) (h data)

end ParseEndsAs

/-- A parse at its start ends as the whole algorithm does, whoever called it (rule R191). -/
theorem parseEndsAs_parseContainer (s : State) (c : Caller) (file : List Byte) :
    ParseEndsAs (s.startParse c file) (parseContainer file) := by
  rw [parseContainer_eq, parseRecords]
  simp only [throw_bind]
  refine ParseEndsAs.header ⟨⟨c, rfl⟩, rfl⟩ fun header => ?_
  refine ParseEndsAs.footer ⟨⟨c, rfl⟩, nofun, rfl⟩ fun footer => ?_
  refine ParseEndsAs.descriptor ⟨⟨c, rfl⟩, nofun, nofun, .inl rfl⟩ fun col0 => ?_
  refine ParseEndsAs.descriptor ⟨⟨c, rfl⟩, nofun, nofun, .inr rfl⟩ fun col1 => ?_
  refine ParseEndsAs.column ⟨⟨c, rfl⟩, nofun, nofun, col0, col1, rfl, rfl, .inl ⟨rfl, rfl⟩⟩ fun slice0 => ?_
  refine ParseEndsAs.column ⟨⟨c, rfl⟩, nofun, nofun, col0, col1, rfl, rfl, .inr ⟨nofun, rfl, rfl⟩⟩ fun slice1 => ?_
  exact ParseEndsAs.finish rfl rfl

/-- Settles O51: the request starts the parse, and the parse ends as the algorithm does. -/
theorem parseContainerRunsTheAlgorithm : Obligations.ParseContainerRunsTheAlgorithm := by
  unfold Obligations.ParseContainerRunsTheAlgorithm
  intro s file rest hc hr hmax
  have hstep : step s = .next (({ s.discard with requests := rest } : State).startParse .host file) := by
    rw [step_idle_request hc hr]
    exact if_pos (admits_of_bound hmax)
  have hends := parseEndsAs_parseContainer { s.discard with requests := rest } .host file
  cases hparse : parseContainer file with
  | ok cp =>
    rw [hparse] at hends
    obtain ⟨k, ptr, count0, count1, slice0, slice1, -, hk⟩ := hends
    refine ⟨k + 1, _, Reaches.cons hstep hk, rfl, rfl, fun cp' h => ?_, nofun⟩
    cases h
    exact ⟨rfl, rfl⟩
  | error c =>
    rw [hparse] at hends
    obtain ⟨k, hk⟩ := hends
    refine ⟨k + 1, _, Reaches.cons hstep hk, rfl, rfl, nofun, fun c' h => ?_⟩
    cases h
    rfl

/-! ### Files that do not parse -/

/-- A number of `n` bytes has one writing in them (rule R50). -/
theorem leBytes_leNat (bs : List Byte) : leBytes bs.length (leNat bs) = bs := by
  induction bs with
  | nil => rfl
  | cons b bs ih =>
    have hb : b.toNat < 256 := b.isLt
    have hlow : BitVec.ofNat 8 (leNat (b :: bs)) = b := by
      apply BitVec.eq_of_toNat_eq
      rw [BitVec.toNat_ofNat, leNat]
      omega
    have hhigh : leNat (b :: bs) / 256 = leNat bs := by
      rw [leNat]
      omega
    rw [List.length_cons, leBytes, hlow, hhigh, ih]

/-- A descriptor that was decoded lies in the file (rules R62, R199, R200). -/
theorem decodeDescriptor_inside {f : FileBuf} {p : Int} {d : DescriptorFields} (hp : 0 ≤ p)
    (h : decodeDescriptor f p = .ok d) : p + 32 + d.nameLen.toNat ≤ f.len := by
  obtain ⟨n, rfl⟩ := Int.eq_ofNat_of_zero_le hp
  rw [decodeDescriptor_eq] at h
  split at h <;> cases h
  simp only [descriptorAt, toNat_ofNat_bytes4]
  omega

/-- The magic is checked before anything but the length (rules R192, R193, R255). -/
theorem parseContainer_badMagic {file : List Byte} (hlen : 36 ≤ file.length)
    (hmagic : file.take 4 ≠ [0x51, 0x52, 0x41, 0x50]) : parseContainer file = .error .badMagic := by
  have hbytes : (FileBuf.ofBytes file).bytes 0 4 = file.take 4 := ofBytes_bytes file 0 4 (by omega)
  have hne : (headerAt (FileBuf.ofBytes file)).magic ≠ Config.magic := by
    rw [ne_eq, headerAt_magic_iff, hbytes]
    intro hword
    have hwriting := leBytes_leNat (file.take 4)
    rw [hword, List.length_take_of_le (by omega)] at hwriting
    exact hmagic (hwriting.symm.trans (by decide))
  rw [parseContainer_eq, parseRecords, decodeHeader_eq, ofBytes_len, if_neg (not_lt.mpr hlen)]
  exact if_pos hne

/-- A file that parses holds a header, a footer's head and two descriptors (rule R209). -/
theorem length_of_parseContainer {file : List Byte} {cp : Container} (h : parseContainer file = .ok cp) :
    104 ≤ file.length := by
  rw [parseContainer_eq] at h
  obtain ⟨header, -, h⟩ := bind_ok h
  obtain ⟨-, h⟩ := check_ok h
  obtain ⟨footer, hfooter, h⟩ := bind_ok h
  obtain ⟨-, h⟩ := check_ok h
  obtain ⟨col0, -, h⟩ := bind_ok h
  obtain ⟨col1, hcol1, -⟩ := bind_ok h
  have hstart := decodeTrailerFooter_start hfooter
  simp only [Config.headerBytes] at hstart
  have hend := decodeDescriptor_inside (by omega) hcol1
  simp only [ofBytes_len] at hstart hend
  omega

/-- Settles O59: the magic is checked right after the length, and the two descriptors that a parse reads lie after the header. -/
theorem filesThatDoNotParse : Obligations.FilesThatDoNotParse := by
  unfold Obligations.FilesThatDoNotParse
  refine ⟨fun magic rest hmagic hrest hne => parseContainer_badMagic ?_ ?_, fun file hshort => ?_⟩
  · rw [List.length_append]
    omega
  · rwa [List.take_left' hmagic]
  · cases hparse : parseContainer file with
    | ok cp => exact absurd (length_of_parseContainer hparse) (not_le.mpr hshort)
    | error c => exact ⟨c, rfl⟩

end Sys2Proof
end

section
/-! PROOFS. READ_FILE end to end: the parse, the two decodes, the pairing and the return, one after the other, deliver what the
whole algorithm computes, or are refused as it is (rules R33, R39, R231 to R234, R252). -/

namespace Sys2Proof

open Machine Safety Machine.Transaction

/-! ### How the steps of READ_FILE end -/

/-- The state after a READ_FILE that returns `r`: rows with the registers of the parse, a FormatError with none (rule R33). -/
def fileReturned (s : State) : FileResult → State
  | .rows rows => s.deliverParsed (.rows rows)
  | .formatError c => s.deliverError c

/-- What the host is delivered for a result of READ_FILE (rule R12). -/
def deliveredFile : FileResult → Result
  | .rows rows => .rows rows
  | .formatError c => .formatError c

section

variable (s : State) (r : FileResult)

theorem fileReturned_phase : (fileReturned s r).phase = .idle := by cases r <;> rfl
theorem fileReturned_requests : (fileReturned s r).requests = s.requests := by cases r <;> rfl
theorem fileReturned_result : (fileReturned s r).result = some (deliveredFile r) := by cases r <;> rfl

/-- READ_FILE ends in the same state whatever the decoders and the orchestrator held on the way (rule R270). -/
theorem fileReturned_registers (phase : Phase) (id : IntDecoder) (fd : FloatDecoder) (orch : Orchestrator) :
    fileReturned { s with phase := phase, id := id, fd := fd, orch := orch } r = fileReturned s r := by
  cases r <;> rfl

end

theorem returnFile_eq {s : State} {r : FileResult} (h : s.orch.result = some r) : s.returnFile = fileReturned s r := by
  cases r with
  | rows rows => exact returnFile_rows h
  | formatError c => exact returnFile_formatError h

/-- Within READ_FILE a decode's sequence goes to the orchestrator, column 0's to `or.ts` (rule R35). -/
theorem intsReturned_readFile {s : State} (hc : s.phase = .decodingInts .readFile) (vs : List Word) :
    intsReturned s vs = { s with phase := .decodingFloats .readFile, id := {}, orch := { s.orch with ts := vs } } :=
  finishInts_readFile (s := { s with id := { out := vs } }) hc

/-- Within READ_FILE a decode's sequence goes to the orchestrator, column 1's to `or.val` (rule R35). -/
theorem floatsReturned_readFile {s : State} (hc : s.phase = .decodingFloats .readFile) (vs : List Word) :
    floatsReturned s vs = { s with phase := .pairing, fd := {}, orch := { s.orch with val := vs } } :=
  finishFloats_readFile (s := { s with fd := { out := vs } }) hc

/-- The steps from `s` end a READ_FILE of `base` as an algorithm with this outcome does: with the result, or refused. -/
def FileEndsAs (s base : State) : Except Refusal FileResult → Prop
  | .ok r => ∃ k, Reaches k s (fileReturned base r)
  | .error r => ∃ k, RefusedWithin k s r

namespace FileEndsAs

variable {s t base : State} {outcome : Except Refusal FileResult}

theorem trans {k : Nat} (h : Reaches k s t) (g : FileEndsAs t base outcome) : FileEndsAs s base outcome := by
  cases outcome with
  | ok r =>
    obtain ⟨j, hj⟩ := g
    exact ⟨k + j, Reaches.trans h hj⟩
  | error r =>
    obtain ⟨j, hj⟩ := g
    exact ⟨k + j, Reaches.refused h hj⟩

/-- A part of READ_FILE leaves only the decoders and the orchestrator behind, and its end drops them. -/
theorem of_registers {phase : Phase} {id : IntDecoder} {fd : FloatDecoder} {orch : Orchestrator}
    (h : FileEndsAs s { base with phase := phase, id := id, fd := fd, orch := orch } outcome) : FileEndsAs s base outcome := by
  cases outcome with
  | ok r =>
    obtain ⟨k, hk⟩ := h
    rw [fileReturned_registers] at hk
    exact ⟨k, hk⟩
  | error r => exact h

/-! ### The parts of READ_FILE, the last one first -/

/-- The return delivers the result (rule R234). -/
theorem returning {r : FileResult} (hc : s.phase = .returning) (hr : s.orch.result = some r) : FileEndsAs s s (.ok r) :=
  ⟨1, Reaches.cons (returnFile_eq hr ▸ step_returning_eq hc) (Reaches.zero _)⟩

/-- The pairing makes the result, and the return follows (rule R232). -/
theorem pairing (hc : s.phase = .pairing) : FileEndsAs s s (.ok (.rows (s.orch.ts.zip s.orch.val))) :=
  trans (Reaches.cons (step_pairing_eq hc) (Reaches.zero _)) (of_registers (returning (s := s.pairColumns) rfl rfl))

/-- The decode of column 1, with column 0 in `or.ts`; the pairing follows, if the decode is not refused. -/
theorem decodingFloats {data : List Byte} {count : Word} (hc : s.phase = .decodingFloats .readFile)
    (hfd : s.fd = FloatDecoder.start s.params data count) :
    FileEndsAs s s ((decodeF64 s.params data count).map fun vals => .rows (s.orch.ts.zip vals)) := by
  have hends := floatsEndAs_decodeF64 hc hfd
  cases hdecode : decodeF64 s.params data count with
  | ok vals =>
    rw [hdecode] at hends
    obtain ⟨k, hk⟩ := hends
    rw [floatsReturned_readFile hc] at hk
    exact trans hk (of_registers (pairing rfl))
  | error r =>
    rw [hdecode] at hends
    exact hends

/-- The decode of column 0; that of column 1, already set up, follows (rule R233, log entry 11). -/
theorem decodingInts {slice0 slice1 : List Byte} {count0 count1 : Word} (hc : s.phase = .decodingInts .readFile)
    (hid : s.id = IntDecoder.start slice0 count0) (hfd : s.fd = FloatDecoder.start s.params slice1 count1) :
    FileEndsAs s s (decodeColumns s.params slice0 count0 slice1 count1) := by
  obtain ⟨k, hk⟩ := intsEndAs_decodeI64 hc hid
  rw [intsReturned_readFile hc] at hk
  exact trans hk (of_registers (decodingFloats rfl hfd))

/-- The end of READ_FILE's parse with everything read; the decodes of the two slices follow (rule R231). -/
theorem finishParse {slice0 slice1 : List Byte} {count0 count1 : Word} (hc : s.phase = .parsing .readFile) :
    FileEndsAs (s.finishParse count0 count1 slice0 slice1) s (decodeColumns s.params slice0 count0 slice1 count1) := by
  have hnext : s.finishParse count0 count1 slice0 slice1 = { s with
      id := IntDecoder.start slice0 count0
      fd := FloatDecoder.start s.params slice1 count1
      phase := .decodingInts .readFile } := by
    unfold State.finishParse
    rw [hc]
  rw [hnext]
  exact of_registers (decodingInts rfl rfl rfl)

/-- A FormatError in READ_FILE's parse; the return with its cause follows (rules R234, R246). -/
theorem raise {c : Cause} (hc : s.phase = .parsing .readFile) : FileEndsAs (s.raise c) s (.ok (.formatError c)) := by
  have hnext : s.raise c = { s.discard with phase := .returning, orch := { result := some (.formatError c) } } := by
    unfold State.raise
    rw [hc]
  rw [hnext]
  exact ⟨1, Reaches.cons (step_returning_eq rfl) (Reaches.zero _)⟩

end FileEndsAs

/-! ### The whole algorithm by the outcome of its parse -/

section

variable {p : Params} {file : List Byte}

theorem readFile_of_error {c : Cause} (h : parseContainer file = .error c) : readFile p file = .ok (.formatError c) := by
  rw [readFile, h]

/-- A parse with everything read has kept both descriptors and both slices. -/
theorem descriptors_of_done {cp : Container} {count0 count1 : Word} {slice0 slice1 : List Byte}
    (h : cp.stage = .done count0 count1 slice0 slice1) :
    ∃ d0 d1, cp.col0 = some d0 ∧ cp.col1 = some d1 ∧ cp.slice0 = some slice0 ∧ cp.slice1 = some slice1 ∧
      d0.count = count0 ∧ d1.count = count1 := by
  obtain ⟨hat, -⟩ | ⟨hat, -⟩ | ⟨hat, -⟩ | ⟨d0, d1, -, -, hcol0, hcol1, hslices⟩ := stage_cases cp
  · cases h.symm.trans hat
  · cases h.symm.trans hat
  · cases h.symm.trans hat
  · obtain ⟨hat, -⟩ | ⟨hat, -⟩ | ⟨b0, b1, hat, hslice0, hslice1⟩ := hslices
    · cases h.symm.trans hat
    · cases h.symm.trans hat
    · cases h.symm.trans hat
      exact ⟨d0, d1, hcol0, hcol1, hslice0, hslice1, rfl, rfl⟩

theorem readFile_of_done {cp : Container} {count0 count1 : Word} {slice0 slice1 : List Byte}
    (h : parseContainer file = .ok cp) (hdone : cp.stage = .done count0 count1 slice0 slice1) :
    readFile p file = decodeColumns p slice0 count0 slice1 count1 := by
  obtain ⟨d0, d1, hcol0, hcol1, hslice0, hslice1, rfl, rfl⟩ := descriptors_of_done hdone
  simp only [readFile, h, hcol0, hcol1, hslice0, hslice1]

/-- The two decodes never give a FormatError (rule R250). -/
theorem rows_of_decodeColumns {slice0 slice1 : List Byte} {count0 count1 : Word} {r : FileResult}
    (h : decodeColumns p slice0 count0 slice1 count1 = .ok r) : ∃ rows, r = .rows rows := by
  unfold decodeColumns at h
  cases hdecode : decodeF64 p slice1 count1 with
  | ok vals =>
    rw [hdecode] at h
    cases h
    exact ⟨_, rfl⟩
  | error c =>
    rw [hdecode] at h
    cases h

end

/-! ### The steps and the algorithm -/

/-- READ_FILE from the start of its parse ends as the whole algorithm does, and where the file parses the host may then read the
registers (rules R33, R231). -/
theorem fileEndsAs_readFile (s : State) (file : List Byte) :
    ∃ base, FileEndsAs (s.startParse .readFile file) base (readFile s.params file) ∧ base.requests = s.requests ∧
      ∀ cp r, parseContainer file = .ok cp → readFile s.params file = .ok r → (fileReturned base r).hostRegisters = cp := by
  have hends := parseEndsAs_parseContainer s .readFile file
  cases hparse : parseContainer file with
  | ok cp =>
    rw [hparse] at hends
    obtain ⟨k, ptr, count0, count1, slice0, slice1, hdone, hk⟩ := hends
    rw [readFile_of_done hparse hdone]
    refine ⟨_, FileEndsAs.trans hk (FileEndsAs.finishParse rfl), rfl, fun cp' r hcp hr => ?_⟩
    obtain ⟨rows, rfl⟩ := rows_of_decodeColumns hr
    exact Except.ok.inj hcp
  | error c =>
    rw [hparse] at hends
    obtain ⟨k, hk⟩ := hends
    rw [readFile_of_error hparse]
    exact ⟨_, FileEndsAs.trans hk (FileEndsAs.raise rfl), rfl, nofun⟩

/-- Settles O52: the request starts the parse, and READ_FILE ends as the algorithm does. -/
theorem readFileRunsTheAlgorithm : Obligations.ReadFileRunsTheAlgorithm := by
  unfold Obligations.ReadFileRunsTheAlgorithm
  intro s file rest hc hr hmax
  have hstep : step s = .next (({ s.discard with requests := rest } : State).startParse .readFile file) := by
    rw [step_idle_request hc hr]
    exact if_pos (admits_of_bound hmax)
  obtain ⟨base, hends, hrequests, hregisters⟩ := fileEndsAs_readFile { s.discard with requests := rest } file
  replace hends : FileEndsAs s base (readFile s.params file) :=
    FileEndsAs.trans (Reaches.cons hstep (Reaches.zero _)) hends
  refine ⟨fun r hok => ?_, fun r hrefused => ?_⟩
  · rw [hok] at hends
    obtain ⟨k, hk⟩ := hends
    exact ⟨k, _, hk, fileReturned_phase base r, (fileReturned_requests base r).trans hrequests,
      fileReturned_result base r, fun cp hparse => hregisters cp r hparse hok⟩
  · rw [hrefused] at hends
    exact hends

end Sys2Proof
end

section
/-! PROOFS. What may not go wrong in a parse and in a decode: neither a parse nor an int decode is refused, and no decode makes a
FormatError (rules R91, R94, R248 to R252). -/

namespace Sys2Proof

open Machine Safety

/-! ### A parse is never refused -/

section

variable {s : State}

/-- HEADER is kept or raises (rules R193, R194). -/
theorem exec_header_next (h : HeaderFields) : ∃ t, exec (.header h) s = .next t := by
  by_cases hmagic : h.magic = Config.magic
  · exact ⟨_, exec_header hmagic⟩
  · exact ⟨_, exec_header_badMagic hmagic⟩

/-- TRAILER-FOOTER is kept or raises (rules R195 to R197). -/
theorem exec_trailerFooter_next (f : FooterFields) : ∃ t, exec (.trailerFooter f) s = .next t := by
  by_cases hstart : footerStart s.file.len f.footerSize < Config.headerBytes
  · exact ⟨_, exec_trailerFooter_beforeHeader hstart⟩
  · by_cases hcolumns : f.columnCount = Config.columnCount
    · exact ⟨_, exec_trailerFooter hstart hcolumns⟩
    · exact ⟨_, exec_trailerFooter_badColumnCount hstart hcolumns⟩

/-- A record whose read fails raises, so the fetch of a record goes on if its execution does (rules R246, R248). -/
theorem fetchedRecord_next {α : Type} {record : α → Instr} (decoded : Except Cause α)
    (h : ∀ a, ∃ t, exec (record a) s = .next t) : ∃ t, (fetchedRecord s record decoded).run = .next t := by
  cases decoded with
  | error c => exact ⟨_, rfl⟩
  | ok a => exact h a

/-- Every step of a parse has a next state. -/
theorem step_parsing_next {c : Caller} (hc : s.phase = .parsing c) : ∃ t, step s = .next t := by
  rw [step_parsing_eq hc, fetchRecord]
  cases s.cp.stage with
  | header => exact fetchedRecord_next _ exec_header_next
  | footer => exact fetchedRecord_next _ exec_trailerFooter_next
  | descriptor => exact fetchedRecord_next _ fun d => ⟨_, exec_descriptor d⟩
  | column d => exact fetchedRecord_next _ fun data => ⟨_, exec_column data⟩
  | done count0 count1 slice0 slice1 => exact ⟨_, rfl⟩

/-! ### An int decode is never refused -/

/-- A symbol that is one word is executed or cut short, both with a next state. -/
theorem step_word_next {rd : Reader} {i : Word → Instr} (h : IntAt s rd)
    (hword : decodeSymbol s.params s.id.slot rd =
      afterRead (readBits s.params.readAfterFail rd 64) fun x rd => .symbol (i x) rd)
    (hexec : ∀ x u, ∃ t, exec (i x) u = .next t) : ∃ t, step s = .next t := by
  obtain hshort | havail := Nat.lt_or_ge rd.avail 64
  · exact ⟨_, (step_of_shortWord h hword hshort).2⟩
  · rw [step_of_word h hword havail]
    exact hexec _ _

/-- Every step of an int decode that still wants a value, with a reader that has not failed, has a next state. -/
theorem step_intAt_next {rd : Reader} (h : IntAt s rd) : ∃ t, step s = .next t := by
  obtain ⟨-, hout⟩ | ⟨-, v, hout⟩ | ⟨-, hout⟩ := intSlot_cases s.id
  · exact step_word_next h (decodeSymbol_intFirst rd hout) fun _ _ => ⟨_, rfl⟩
  · exact step_word_next h (decodeSymbol_intSecond rd hout) fun _ _ => ⟨_, rfl⟩
  · have ⟨_, _, hfailed, _⟩ := h
    obtain ⟨i, rd', dod, hd, hdod, -⟩ | ⟨rd', hd⟩ := decodeIntLater_cases s.params hfailed
    · exact ⟨_, step_of_dodOf h hout hd hdod⟩
    · exact ⟨_, step_of_intExhausted h ((decodeSymbol_intLater rd hout).trans hd)⟩

end

/-! ### What a decode's step does to the results -/

/-- A decode's step goes on and leaves both results, or ends the operation and delivers no FormatError. -/
inductive DecodeResults (s t : State) : Prop where
  | kept (hphase : t.phase ≠ .idle) (hresult : t.result = s.result) (horch : t.orch.result = s.orch.result)
  | delivered (r : Result) (hr : ∀ e, r ≠ .formatError e) (h : t = s.deliver r)

namespace DecodeResults

variable {s : State}

theorem finishInts : DecodeResults s s.finishInts := by
  obtain ⟨_, e⟩ | ⟨_, e⟩ := finishInts_cases s <;> rw [e]
  · exact .kept nofun rfl rfl
  · exact .delivered (.ints s.id.out) nofun rfl

theorem finishFloats : DecodeResults s s.finishFloats := by
  obtain ⟨_, e⟩ | ⟨_, e⟩ := finishFloats_cases s <;> rw [e]
  · exact .kept nofun rfl rfl
  · exact .delivered (.floats s.fd.out) nofun rfl

/-- A symbol writes its decoder's registers alone. -/
theorem of_decoders (hrun : s.phase ≠ .idle) (id : IntDecoder) (fd : FloatDecoder) :
    DecodeResults s { s with id := id, fd := fd } :=
  .kept hrun rfl rfl

theorem step_ints {t : State} {c : Caller} (hc : s.phase = .decodingInts c) (h : step s = .next t) : DecodeResults s t := by
  have hrun : s.phase ≠ .idle := by rw [hc]; nofun
  obtain rfl | ⟨_, _, _, _, _, ⟨_, _, rfl⟩ | ⟨_, _, rfl⟩ | ⟨_, _, rfl⟩⟩ := step_ints_cases hc h
  · exact finishInts
  all_goals exact of_decoders hrun _ _

theorem step_floats {t : State} {c : Caller} (hc : s.phase = .decodingFloats c) (h : step s = .next t) :
    DecodeResults s t := by
  have hrun : s.phase ≠ .idle := by rw [hc]; nofun
  obtain rfl | ⟨_, _, _, _, _, ⟨_, _, rfl⟩ | ⟨_, rfl⟩ | ⟨_, _, rfl⟩ | ⟨_, _, _, _, _, _, _, rfl⟩⟩ :=
    step_floats_cases hc h
  · exact finishFloats
  all_goals exact of_decoders hrun _ _

/-- No FormatError comes from a decode (rules R248, R249). -/
theorem noFormatError {t : State} (h : DecodeResults s t) (e : Cause) :
    (t.phase = .idle → t.result ≠ some (.formatError e)) ∧
    (t.result = some (.formatError e) → s.result = some (.formatError e)) ∧
    (t.orch.result = some (.formatError e) → s.orch.result = some (.formatError e)) := by
  cases h with
  | kept hphase hresult horch => exact ⟨fun hidle => absurd hidle hphase, hresult.symm.trans, horch.symm.trans⟩
  | delivered r hr h =>
    subst h
    have hne : (s.deliver r).result ≠ some (.formatError e) := fun he => hr e (Option.some.inj he)
    exact ⟨fun _ => hne, fun he => absurd he hne, nofun⟩

end DecodeResults

/-- Settles O41: a parse's and an int decode's step have a next state, and a decode's step leaves both results or delivers its
sequence. -/
theorem decodesRaiseNothing : Obligations.DecodesRaiseNothing := by
  unfold Obligations.DecodesRaiseNothing
  refine ⟨fun s c r hc hrefused => ?_, fun s rd r h hrefused => ?_, fun s t c e hc h => ?_⟩
  · obtain ⟨t, ht⟩ := step_parsing_next hc
    cases ht.symm.trans hrefused
  · obtain ⟨t, ht⟩ := step_intAt_next h
    cases ht.symm.trans hrefused
  · obtain hints | hfloats := hc
    · exact (DecodeResults.step_ints hints h).noFormatError e
    · exact (DecodeResults.step_floats hfloats h).noFormatError e

end Sys2Proof
end

section
/-! PROOFS. The parameters are fixed when the block is built (rule R274, log entry 8). -/

namespace Sys2Proof

open Machine

/-- Settles O38: `step_params` goes through what a step of each phase can do, and none of it is a write of a parameter. -/
theorem parametersNeverChange : Obligations.ParametersNeverChange := by
  unfold Obligations.ParametersNeverChange
  exact fun _ _ hstep => step_params hstep

end Sys2Proof
end
